-- ==== Sys2Proof/Word.lean ====
section
/-! DEFINITION. The word types of the hardware: a data or command byte, a host request word, a transceiver word. -/

namespace Sys2Proof

/-- One transferred byte, `DATA_W = CMD_W = 8` bits (00_scope R7). -/
abbrev Byte := BitVec 8

/-- A host request word, `REQ_W = 16` bits (00_scope R11). -/
abbrev ReqWord := BitVec 16

/-- The internal transceiver word of nine bits, XOP above XB (30_encoding R73). -/
abbrev XopWord := BitVec 9

/-- An address inside one of the two device spaces, `ADDR_W = 5` bits (00_scope R7). -/
abbrev Addr := BitVec 5

end Sys2Proof
end

