-- ==== Sys2Proof/Syntax.lean ====
section
/-! DEFINITION. The instructions: one constructor per row of spec/opcode_table.json. -/

namespace Sys2Proof

/-- The two address spaces of the device (20_memory R35). -/
inductive Space where
  /-- clock/calendar space, command bit 6 = 0 -/
  | clk
  /-- RAM space, command bit 6 = 1 -/
  | ram
  deriving DecidableEq, Repr

/-- The direction of a transaction (30_encoding R64, bit 0). -/
inductive Dir where
  | write
  | read
  deriving DecidableEq, Repr

/-- One constructor per row of the opcode table. Fields the hardware ignores are kept as operands, so that an
encoding loses no bit. -/
inductive Instr where
  /-- WRCLK a, v: write a clock/calendar register (41_sequencer R89). -/
  | wrclk (a : Addr) (v : Byte)
  /-- RDCLK a: read a clock/calendar register (R90); `x` is the ignored W field. -/
  | rdclk (a : Addr) (x : Byte)
  /-- WRRAM a, v: write a RAM byte (R89). -/
  | wrram (a : Addr) (v : Byte)
  /-- RDRAM a: read a RAM byte (R90); `x` is the ignored W field. -/
  | rdram (a : Addr) (x : Byte)
  /-- A reserved request word, M = 0 (30_encoding R71, 60_exceptions R124); `x` is bits 14..0. -/
  | reserved (x : BitVec 15)
  /-- The named calendar registers of 30_encoding R75, from here to `rdyear`. -/
  | wrsec (v : Byte)
  | rdsec (x : Byte)
  | wrmin (v : Byte)
  | rdmin (x : Byte)
  | wrhour (v : Byte)
  | rdhour (x : Byte)
  | wrdate (v : Byte)
  | rddate (x : Byte)
  | wrmon (v : Byte)
  | rdmon (x : Byte)
  | wrday (v : Byte)
  | rdday (x : Byte)
  | wryear (v : Byte)
  | rdyear (x : Byte)
  /-- A clock-write command byte at the device (30_encoding R65, 20_memory R47). -/
  | cmdClkWrite (a : Addr)
  /-- A clock-read command byte at the device (R65, R48). -/
  | cmdClkRead (a : Addr)
  /-- A RAM-write command byte at the device (R65, R47). -/
  | cmdRamWrite (a : Addr)
  /-- A RAM-read command byte at the device (R65, R48). -/
  | cmdRamRead (a : Addr)
  /-- A command byte with bit 7 = 0, which the block never sends (30_encoding R66). -/
  | cmdNeverSent (x : BitVec 7)
  /-- SEND_BYTE b: the transceiver transmits one byte (40_transceiver R80). -/
  | sendByte (b : Byte)
  /-- RECV_BYTE: the transceiver receives one byte (R81); `x` is the ignored XB field. -/
  | recvByte (x : Byte)
  deriving DecidableEq, Repr

end Sys2Proof
end

