-- ==== Sys2Proof/WellFormed.lean ====
section
/-! DEFINITION. Which instructions are the table's own reading of their words. -/

namespace Sys2Proof

/-- Every operand has the width of its field, so no value is out of range (30_encoding R71). The one condition left is
about NAMES: the words of WRCLK and RDCLK with an address 0..6 are also those of a named calendar register (R75), the
more specific row of the table, so for those addresses the well-formed instruction is the named one. -/
def Instr.wellFormed : Instr → Bool
  | .wrclk a _ => decide (7 ≤ a.toNat)
  | .rdclk a _ => decide (7 ≤ a.toNat)
  | .wrram _ _ | .rdram _ _ | .reserved _ => true
  | .wrsec _ | .rdsec _ | .wrmin _ | .rdmin _ | .wrhour _ | .rdhour _ | .wrdate _ | .rddate _ => true
  | .wrmon _ | .rdmon _ | .wrday _ | .rdday _ | .wryear _ | .rdyear _ => true
  | .cmdClkWrite _ | .cmdClkRead _ | .cmdRamWrite _ | .cmdRamRead _ | .cmdNeverSent _ => true
  | .sendByte _ | .recvByte _ => true

end Sys2Proof
end

