-- ==== Sys2Proof/Decode.lean ====
section
/-! DEFINITION. The three decoders, total on every word of their width, and the encoder, written from spec/30_encoding.md. -/

namespace Sys2Proof

/-- A word of one of the three encodings of 30_encoding: a host request, a command byte, a transceiver word. -/
inductive TableWord where
  | req (w : ReqWord)
  | cmd (b : Byte)
  | xop (w : XopWord)
  deriving DecidableEq, Repr

/-- Why bits are no word of the table. -/
inductive DecodeError where
  /-- No encoding has this many bits (30_encoding R72: no form is longer or shorter). -/
  | noSuchWidth
  /-- The number does not fit in the stated width. -/
  | tooManyBits
  deriving DecidableEq, Repr

/-! ## Decoding -/

/-- The clock/calendar rows: addresses 0..6 are named (30_encoding R75), the others are WRCLK and RDCLK. -/
def decodeClock (a : Addr) (d : Dir) (w : Byte) : Instr :=
  match a.toNat, d with
  | 0, .write => .wrsec w
  | 0, .read => .rdsec w
  | 1, .write => .wrmin w
  | 1, .read => .rdmin w
  | 2, .write => .wrhour w
  | 2, .read => .rdhour w
  | 3, .write => .wrdate w
  | 3, .read => .rddate w
  | 4, .write => .wrmon w
  | 4, .read => .rdmon w
  | 5, .write => .wrday w
  | 5, .read => .rdday w
  | 6, .write => .wryear w
  | 6, .read => .rdyear w
  | _, .write => .wrclk a w
  | _, .read => .rdclk a w

/-- The RAM rows (30_encoding R69). -/
def decodeRam (a : Addr) (d : Dir) (w : Byte) : Instr :=
  match d with
  | .write => .wrram a w
  | .read => .rdram a w

/-- Bit 8 of a request, bit 0 of a command byte: 0 = write, 1 = read (30_encoding R64, R68). -/
def dirOfBit (b : Bool) : Dir :=
  if b then .read else .write

/-- Bit 14 of a request, bit 6 of a command byte: 0 = clock/calendar, 1 = RAM (R64, R68). -/
def spaceOfBit (b : Bool) : Space :=
  if b then .ram else .clk

/-- A host request word (30_encoding R68, R69): bit 15 M, bit 14 S, bits 13..9 A, bit 8 D, bits 7..0 W. -/
def decodeRequest (w : ReqWord) : Instr :=
  if w.getLsbD 15 then
    match spaceOfBit (w.getLsbD 14) with
    | .clk => decodeClock (w.extractLsb' 9 5) (dirOfBit (w.getLsbD 8)) (w.extractLsb' 0 8)
    | .ram => decodeRam (w.extractLsb' 9 5) (dirOfBit (w.getLsbD 8)) (w.extractLsb' 0 8)
  else .reserved (w.extractLsb' 0 15)

/-- A command byte as the device reads it (30_encoding R64, R65): bit 7 WE, bit 6 RS, bits 5..1 A, bit 0 RW. -/
def decodeCommand (b : Byte) : Instr :=
  if b.getLsbD 7 then
    match spaceOfBit (b.getLsbD 6), dirOfBit (b.getLsbD 0) with
    | .clk, .write => .cmdClkWrite (b.extractLsb' 1 5)
    | .clk, .read => .cmdClkRead (b.extractLsb' 1 5)
    | .ram, .write => .cmdRamWrite (b.extractLsb' 1 5)
    | .ram, .read => .cmdRamRead (b.extractLsb' 1 5)
  else .cmdNeverSent (b.extractLsb' 0 7)

/-- A transceiver word (30_encoding R73): bit 8 XOP, bits 7..0 XB. -/
def decodeXop (w : XopWord) : Instr :=
  if w.getLsbD 8 then .recvByte (w.extractLsb' 0 8) else .sendByte (w.extractLsb' 0 8)

/-- The decoder of the word's own encoding. -/
def decode : TableWord → Instr
  | .req w => decodeRequest w
  | .cmd b => decodeCommand b
  | .xop w => decodeXop w

/-- The word that `nbits` bits of value `w` are, or the reason they are none. The width names the encoding: 16 bits a
host request, 8 a command byte, 9 a transceiver word (30_encoding R72, R73). -/
def tableWord (nbits w : Nat) : Except DecodeError TableWord :=
  if nbits = 16 then
    if w < 65536 then .ok (.req (BitVec.ofNat 16 w)) else .error .tooManyBits
  else if nbits = 8 then
    if w < 256 then .ok (.cmd (BitVec.ofNat 8 w)) else .error .tooManyBits
  else if nbits = 9 then
    if w < 512 then .ok (.xop (BitVec.ofNat 9 w)) else .error .tooManyBits
  else .error .noSuchWidth

/-- Total decoding of any bits, rejecting by name. -/
def decodeBits (nbits w : Nat) : Except DecodeError Instr :=
  (tableWord nbits w).map decode

/-- The host's question: the instruction the decoder reads from `nbits` bits of value `w`. A number of bits that is no
width of the table, or a value that does not fit, is refused. -/
def decodeTableWord (nbits w : Nat) : Option Instr :=
  match decodeBits nbits w with
  | .ok i => some i
  | .error _ => none

/-! ## Encoding -/

/-- The bit of a space (R64 RS, R68 S). -/
def Space.bit : Space → BitVec 1
  | .clk => 0#1
  | .ram => 1#1

/-- The bit of a direction (R64 RW, R68 D). -/
def Dir.bit : Dir → BitVec 1
  | .write => 0#1
  | .read => 1#1

/-- A request word with M = 1 from its fields (30_encoding R68). -/
def requestWord (sp : Space) (a : Addr) (d : Dir) (w : Byte) : ReqWord :=
  1#1 ++ sp.bit ++ a ++ d.bit ++ w

/-- A command byte with WE = 1 from its fields (30_encoding R64). -/
def commandByte (sp : Space) (a : Addr) (d : Dir) : Byte :=
  1#1 ++ sp.bit ++ a ++ d.bit

/-- The words of an instruction, in its own encoding (30_encoding R64..R75). -/
def encode : Instr → TableWord
  | .wrclk a v => .req (requestWord .clk a .write v)
  | .rdclk a x => .req (requestWord .clk a .read x)
  | .wrram a v => .req (requestWord .ram a .write v)
  | .rdram a x => .req (requestWord .ram a .read x)
  | .reserved x => .req (0#1 ++ x)
  | .wrsec v => .req (requestWord .clk 0#5 .write v)
  | .rdsec x => .req (requestWord .clk 0#5 .read x)
  | .wrmin v => .req (requestWord .clk 1#5 .write v)
  | .rdmin x => .req (requestWord .clk 1#5 .read x)
  | .wrhour v => .req (requestWord .clk 2#5 .write v)
  | .rdhour x => .req (requestWord .clk 2#5 .read x)
  | .wrdate v => .req (requestWord .clk 3#5 .write v)
  | .rddate x => .req (requestWord .clk 3#5 .read x)
  | .wrmon v => .req (requestWord .clk 4#5 .write v)
  | .rdmon x => .req (requestWord .clk 4#5 .read x)
  | .wrday v => .req (requestWord .clk 5#5 .write v)
  | .rdday x => .req (requestWord .clk 5#5 .read x)
  | .wryear v => .req (requestWord .clk 6#5 .write v)
  | .rdyear x => .req (requestWord .clk 6#5 .read x)
  | .cmdClkWrite a => .cmd (commandByte .clk a .write)
  | .cmdClkRead a => .cmd (commandByte .clk a .read)
  | .cmdRamWrite a => .cmd (commandByte .ram a .write)
  | .cmdRamRead a => .cmd (commandByte .ram a .read)
  | .cmdNeverSent x => .cmd (0#1 ++ x)
  | .sendByte b => .xop (0#1 ++ b)
  | .recvByte x => .xop (1#1 ++ x)

/-! ## The rows of the opcode table -/

/-- One row: its width in bits, and the match and mask over the word. -/
structure Row where
  width : Nat
  pattern : Nat
  mask : Nat
  deriving DecidableEq, Repr

/-- The row of spec/opcode_table.json an instruction stands in. -/
def Instr.row : Instr → Row
  | .wrclk _ _ => ⟨16, 0x8000, 0xC100⟩
  | .rdclk _ _ => ⟨16, 0x8100, 0xC100⟩
  | .wrram _ _ => ⟨16, 0xC000, 0xC100⟩
  | .rdram _ _ => ⟨16, 0xC100, 0xC100⟩
  | .reserved _ => ⟨16, 0x0000, 0x8000⟩
  | .wrsec _ => ⟨16, 0x8000, 0xFF00⟩
  | .rdsec _ => ⟨16, 0x8100, 0xFF00⟩
  | .wrmin _ => ⟨16, 0x8200, 0xFF00⟩
  | .rdmin _ => ⟨16, 0x8300, 0xFF00⟩
  | .wrhour _ => ⟨16, 0x8400, 0xFF00⟩
  | .rdhour _ => ⟨16, 0x8500, 0xFF00⟩
  | .wrdate _ => ⟨16, 0x8600, 0xFF00⟩
  | .rddate _ => ⟨16, 0x8700, 0xFF00⟩
  | .wrmon _ => ⟨16, 0x8800, 0xFF00⟩
  | .rdmon _ => ⟨16, 0x8900, 0xFF00⟩
  | .wrday _ => ⟨16, 0x8A00, 0xFF00⟩
  | .rdday _ => ⟨16, 0x8B00, 0xFF00⟩
  | .wryear _ => ⟨16, 0x8C00, 0xFF00⟩
  | .rdyear _ => ⟨16, 0x8D00, 0xFF00⟩
  | .cmdClkWrite _ => ⟨8, 0x80, 0xC1⟩
  | .cmdClkRead _ => ⟨8, 0x81, 0xC1⟩
  | .cmdRamWrite _ => ⟨8, 0xC0, 0xC1⟩
  | .cmdRamRead _ => ⟨8, 0xC1, 0xC1⟩
  | .cmdNeverSent _ => ⟨8, 0x00, 0x80⟩
  | .sendByte _ => ⟨9, 0x000, 0x100⟩
  | .recvByte _ => ⟨9, 0x100, 0x100⟩

/-- The width and the value of a word, as the table numbers its bits. -/
def TableWord.bits : TableWord → Nat × Nat
  | .req w => (16, w.toNat)
  | .cmd b => (8, b.toNat)
  | .xop w => (9, w.toNat)

/-- A word lies in a row: it has the row's width and its masked bits are the row's pattern. -/
def Row.holds (r : Row) (w : TableWord) : Bool :=
  w.bits.1 = r.width && (w.bits.2 &&& r.mask) = r.pattern

end Sys2Proof
end

