-- ==== Sys2Proof/Config.lean ====
section
/-! DEFINITION. What is fixed when a block is built and wired (00_scope R8..R10, 10_state R27), and the free values of the
spec. -/

namespace Sys2Proof

/-- Physical pins of the three lines: the source's `initialize(clockPin, dataPin, resetPin)` (10_state R27). -/
structure Pins where
  clock : Nat
  data : Nat
  reset : Nat
  deriving DecidableEq, Repr

/-- What is fixed before a run: the timing parameters, in one unit of time (00_scope R8, R9, R10), and the wiring (10_state
R27). The spec gives none of them a value. -/
structure Config where
  /-- `T_SYS`, the system clock's period (R9). -/
  tSys : Nat
  /-- `T_CL`, clock-low settle delay (R8). -/
  tCL : Nat
  /-- `T_CH`, clock-high delay (R8). -/
  tCH : Nat
  /-- `T_CDD`, clock-to-data propagation delay (R8). -/
  tCDD : Nat
  /-- `T_CC`, reset-setup delay (R8). -/
  tCC : Nat
  /-- `T_CCH`, clock-to-reset hold delay (R8). -/
  tCCH : Nat
  /-- `T_CWH`, minimum reset-inactive time (R8). -/
  tCWH : Nat
  /-- `DEV_MIN_X`, the device's own minimum for each interval (R10). -/
  devMinCL : Nat
  devMinCH : Nat
  devMinCDD : Nat
  devMinCC : Nat
  devMinCCH : Nat
  devMinCWH : Nat
  /-- The wiring of the lines (R27). -/
  pins : Pins
  /-- A device is attached to the lines. With none, every bit read is a draw and nothing is reported (40_transceiver R81,
  41_sequencer R90, 60_exceptions R123). -/
  attached : Bool
  deriving DecidableEq, Repr

/-- A place of the spec that draws a value. Each place draws from a stream of its own. -/
inductive DrawSite where
  /-- The level of IO when neither side drives it, or the device drives no valid bit (10_state R13, 20_memory R56). -/
  | io
  /-- Clock register `r` after a tick (20_memory R51). -/
  | tick (r : Nat)
  /-- What a clock register holds after invalid content was written to it (20_memory R47). -/
  | badContent
  /-- What a read of an undocumented address returns (20_memory R50). -/
  | undocRead
  /-- Clock register `r` of a havocked device (20_memory R50, R58; 70_reset R140). -/
  | havocClk (r : Nat)
  /-- RAM byte `a` of a havocked device. -/
  | havocRam (a : Nat)
  /-- Everything else a havocked device holds. -/
  | havocUndoc
  /-- K once a read has left RXD (10_state R17). -/
  | heldIndex
  /-- Register `r` of a block, or of the device's progress, before the first reset (10_state R33). -/
  | powerUp (r : Nat)
  deriving DecidableEq, Repr

/-- A free bit: `draw()` of width 1 at a place, at the `n`-th drawing. Nothing fixes its value. -/
opaque Config.freeBit : DrawSite → Nat → Bool

/-- A free byte. Nothing fixes its value. -/
opaque Config.freeByte : DrawSite → Nat → Byte

/-- A free natural number. Nothing fixes its value. -/
opaque Config.freeNat : DrawSite → Nat → Nat

end Sys2Proof
end

