-- ==== Sys2Proof/Machine/State.lean ====
section
/-! DEFINITION. The state: every register of the block (10_state R12..R25), the external device (R28..R31), the host
software's variables (48_client_layer R98), the fixed parameters, and what the agents around the block will do next. -/

namespace Sys2Proof.Machine

/-! ## The block -/

/-- The phase register PH, ten values of a 4-bit code (10_state R15). Codes 10 to 15 are never written; they can stand
in the register only before the first reset (R33). -/
inductive Phase where
  | reset
  | recover
  | idle
  | setup
  | txl
  | txh
  | rxd
  | rxl
  | rxh
  | hold
  /-- code 10 + c, before the first reset only -/
  | unassigned (c : Fin 6)
  deriving DecidableEq, Repr

/-- The byte selector SEL (10_state R18). -/
inductive Sel where
  | cmd
  | data
  deriving DecidableEq, Repr

/-! ## The device -/

/-- The seven documented clock/calendar registers (10_state R28, 20_memory R37). -/
structure ClkRegs where
  seconds : Byte
  minutes : Byte
  hours : Byte
  date : Byte
  month : Byte
  day : Byte
  year : Byte
  deriving DecidableEq, Repr

/-- The RAM bytes: pairs of an address and a byte, addresses rising, no byte equal to what an unlisted address reads. -/
abbrev Memory := List Host.Cell

/-- DEVSEQ, the device's progress through a transaction (10_state R30, 20_memory R53..R57). -/
structure DevSeq where
  /-- RST has risen and not fallen (R53, R57). -/
  inFrame : Bool
  /-- CLK rising edges seen in this frame (R30). -/
  rises : Nat
  /-- CLK falling edges seen in this frame (R56). -/
  falls : Nat
  /-- The command bits taken so far (R54). -/
  cmd : Byte
  /-- The data bits of a write taken so far (R55). -/
  din : Byte
  /-- The byte being driven on IO, if the device drives it (R56). -/
  dout : Option Byte
  /-- SYS_CLK edges since the last CLK falling edge: bit j is valid from T_CDD after it (R56). -/
  sinceFall : Nat
  deriving DecidableEq, Repr

/-- The external device (10_state R28). -/
structure Device where
  clk : ClkRegs
  ram : Memory
  /-- UNDOC: an abstract token for everything else the device holds. -/
  undoc : Nat
  seq : DevSeq
  deriving DecidableEq, Repr

/-! ## The host and the inputs -/

/-- A Datetime (48_client_layer R97). The fields are integers; the ranges are checked by the façade (R113). -/
structure Datetime where
  year : Int
  month : Int
  date : Int
  hours : Int
  minutes : Int
  seconds : Int
  day : Int
  deriving DecidableEq, Repr

/-- The façade operations of the host software (48_client_layer R114..R121). -/
inductive FacadeCall where
  /-- `initialize()` (R114) -/
  | startUp
  | getDatetime
  | setupDatetime (dt : Datetime)
  | getRamByte (a : Int)
  | setRamByte (a : Int) (v : Byte)
  | getClockHaltBit
  | setClockHaltBit (h : Bool)
  | isRunning
  deriving DecidableEq, Repr

/-- The levels on the input ports at one SYS_CLK edge (10_state R26). -/
structure Ports where
  resetIn : Bool
  reqValid : Bool
  req : ReqWord
  deriving DecidableEq, Repr

/-- What the host software does between two requests. It takes no SYS_CLK edge. -/
inductive HostOp where
  /-- `running <- (RDATA[7] = 0)` (48_client_layer R114, R119). -/
  | seedRunning
  /-- Append RDATA to the bytes this call has read (R115, R117, R119). -/
  | keepRdata
  /-- Issue `wrsec (RDATA & 0x7F) | (h ? 0x80 : 0x00)` next (R120). -/
  | writeHalt (h : Bool)
  /-- `running <- r` (R120). -/
  | setRunning (r : Bool)
  deriving DecidableEq, Repr

/-- One move of the agents around the block: the host, the reset source and the supply. -/
inductive Move where
  /-- One SYS_CLK edge at these input levels (10_state R26, 70_reset R154). -/
  | edge (p : Ports)
  /-- A request line: wait for READY, present the word at the acceptance edge, wait for READY (30_encoding R74). -/
  | request (w : ReqWord)
  /-- A `reset` line: RESET_IN for one edge, then wait for READY (R74). -/
  | reset
  /-- Wait until READY = 1. -/
  | waitReady
  /-- A step of the host software itself. -/
  | software (op : HostOp)
  /-- A façade call, unfolded into its lines (48_client_layer R114..R121). -/
  | call (c : FacadeCall)
  /-- Main power was lost and has come up again; `backup`: backup power was supplied meanwhile (60_exceptions R137, 70_reset
  R141). -/
  | powerUp (backup : Bool)
  deriving DecidableEq, Repr

/-- A word put straight to one of the machine's two internal interfaces. -/
inductive Probe where
  /-- A transceiver word (30_encoding R73). -/
  | xop (w : XopWord)
  /-- A command byte that has reached the device (20_memory R54). -/
  | cmd (b : Byte)
  deriving DecidableEq, Repr

/-- The host software's variables (48_client_layer R98, R113). -/
structure HostState where
  /-- The running-state cache (R98). -/
  running : Bool
  /-- The bytes the current façade call has read, oldest first. -/
  kept : List Byte
  /-- The last façade call was rejected with a range error (R113). -/
  rangeError : Bool
  deriving DecidableEq, Repr

/-! ## The whole -/

/-- The machine. -/
structure State where
  /-- The fixed parameters and the wiring (10_state R27); no step writes them. -/
  cfg : Config
  /-- The levels driven on the three lines, and the direction of IO, true = output (R12). -/
  clkO : Bool
  rstO : Bool
  ioO : Bool
  ioOE : Bool
  /-- Phase, timer, bit index, byte selector (R15..R18). -/
  ph : Phase
  t : Nat
  k : BitVec 4
  sel : Sel
  /-- Command, write-data and receive registers (R19..R21). -/
  cmdr : Byte
  wdr : Byte
  rxr : Byte
  /-- Host-visible response registers (R22..R24). -/
  rdata : Byte
  rvalid : Bool
  err : Bool
  /-- RESET_IN has been asserted for an edge since power-up (R33). -/
  inited : Bool
  /-- The external device (R28). -/
  dev : Device
  /-- The host software's variables (R98). -/
  host : HostState
  /-- SYS_CLK edges passed: the model's own count of time. -/
  edges : Nat
  /-- Drawings made: what every free value is applied to. The model's own. -/
  draws : Nat
  /-- The coming moves of the host, the reset source and the supply. The model's own. -/
  agenda : List Move
  /-- A word waiting at an internal interface. The model's own; no agent of the spec sets it. -/
  probe : Option Probe
  deriving DecidableEq, Repr

/-! ## How a step can end -/

/-- Why the machine can stop. Both are stuck states of the spec, not faults of the block, which has none
(60_exceptions R123). -/
inductive Fault where
  /-- A request is presented before RESET_IN has been asserted since power-up (70_reset R142): raised by the request
  meanings and by the edge that sees it. Safe: the hardware does something, the model nothing. -/
  | requestBeforeReset
  /-- The table of 41_sequencer R91 has no row for the phase, timer and index: raised by `edge`. No run reaches it after a
  reset (R92). Safe. -/
  | noRow
  deriving DecidableEq, Repr

/-- Why a step can be refused. -/
inductive Refusal where
  /-- The instruction has no meaning yet: raised by `exec`'s refused arms only, of which there are none. Safe. -/
  | notModelled (mnemonic : String)
  deriving DecidableEq, Repr

/-! ## Reset -/

/-- DEVSEQ with no frame open (10_state R31, 70_reset R139). -/
def DevSeq.closed : DevSeq where
  inFrame := false
  rises := 0
  falls := 0
  cmd := 0#8
  din := 0#8
  dout := none
  sinceFall := 0

/-- The parameters State.reset holds: every count N_X is 1, the lines on three pins, a device attached. DESIGN CHOICE (logs 5,
35, 36): the spec gives no default. Unsafe for a statement about the reset state alone; every other statement holds for all
parameters. -/
def unitConfig : Config where
  tSys := 1
  tCL := 1
  tCH := 1
  tCDD := 1
  tCC := 1
  tCCH := 1
  tCWH := 1
  devMinCL := 1
  devMinCH := 1
  devMinCDD := 1
  devMinCC := 1
  devMinCCH := 1
  devMinCWH := 1
  pins := ⟨0, 1, 2⟩
  attached := true

/-- The device State.reset holds. 10_state R31 calls its contents unknown. DESIGN CHOICE (logs 8, 9): halted, every other
byte zero. Unsafe for a statement about the reset state alone. -/
def Device.atReset : Device where
  clk := ⟨0x80#8, 0x00#8, 0x00#8, 0x00#8, 0x00#8, 0x00#8, 0x00#8⟩
  ram := []
  undoc := 0
  seq := .closed

/-- The machine right after a reset edge (10_state R32, 70_reset R138): RESET_IN has just been asserted, so the phase is
RESET and READY is 0. -/
def State.reset : State where
  cfg := unitConfig
  clkO := false
  rstO := false
  ioO := false
  ioOE := true
  ph := .reset
  t := 0
  k := 0#4
  sel := .cmd
  cmdr := 0x00#8
  wdr := 0x00#8
  rxr := 0x00#8
  rdata := 0x00#8
  rvalid := false
  err := false
  inited := true
  dev := .atReset
  host := ⟨false, [], false⟩
  edges := 0
  draws := 0
  agenda := []
  probe := none

end Sys2Proof.Machine
end

