-- ==== Sys2Proof/Machine/Operands.lean ====
section
/-! DEFINITION. Bits of bytes, the command byte, and what an address of the device names. -/

namespace Sys2Proof.Machine

/-- Bit `j` of a byte, bit 0 the least significant (00_scope §5). -/
def bitOf (b : Byte) (j : Nat) : Bool :=
  b.getLsbD j

/-- The byte with bit `j` replaced: how CMDR, WDR and RXR are assembled, least significant bit first (20_memory R41). -/
def putBit (b : Byte) (j : Nat) (v : Bool) : Byte :=
  if v then b ||| (1#8 <<< j) else b &&& ~~~(1#8 <<< j)

/-- Command generation, `{1, S, A[4:0], D}` (41_sequencer R85). No range check (R85, 60_exceptions R125). -/
def cmdGen (sp : Space) (a : Addr) (d : Dir) : Byte :=
  commandByte sp a d

/-- The fields of a request word with M = 1 (30_encoding R68, R70). -/
def reqSpace (w : ReqWord) : Space := spaceOfBit (w.getLsbD 14)
def reqAddr (w : ReqWord) : Addr := w.extractLsb' 9 5
def reqDir (w : ReqWord) : Dir := dirOfBit (w.getLsbD 8)
def reqData (w : ReqWord) : Byte := w.extractLsb' 0 8

/-- The request marker M (30_encoding R68). -/
def reqMarker (w : ReqWord) : Bool := w.getLsbD 15

/-- The fields of a command byte (30_encoding R64). -/
def cmdSpace (b : Byte) : Space := spaceOfBit (b.getLsbD 6)
def cmdAddr (b : Byte) : Addr := b.extractLsb' 1 5
def cmdDir (b : Byte) : Dir := dirOfBit (b.getLsbD 0)
def cmdMarker (b : Byte) : Bool := b.getLsbD 7

/-- The direction of the transaction in progress: `CMDR[0]` (10_state R19). -/
def isRead (cmdr : Byte) : Bool := cmdr.getLsbD 0

/-- The software's command for an address of any size (30_encoding R67): `(addr << 1) | RAM_SELECT_BIT` or
`(addr << 1) & ~RAM_SELECT_BIT`, then bit 7 set, bit 0 by direction, and truncated to a byte. -/
def softwareCommand (sp : Space) (addr : Nat) (d : Dir) : Byte :=
  let shifted : Byte := BitVec.ofNat 8 (addr * 2)
  let spaced : Byte := match sp with
    | .ram => shifted ||| 0x40#8
    | .clk => shifted &&& ~~~0x40#8
  let marked : Byte := spaced ||| 0x80#8
  match d with
  | .write => marked &&& ~~~0x01#8
  | .read => marked ||| 0x01#8

/-! ## Addresses of the device -/

/-- The seven documented clock/calendar registers (20_memory R37). -/
inductive ClkReg where
  | seconds
  | minutes
  | hours
  | date
  | month
  | day
  | year
  deriving DecidableEq, Repr

/-- What an address reaches: a clock register, a RAM byte, or nothing documented (20_memory R36). -/
inductive Loc where
  | clk (r : ClkReg)
  | ram (a : Nat)
  | undocumented
  deriving DecidableEq, Repr

/-- The address map (20_memory R35..R38): CLK 0..6 and RAM 0..30 are documented. -/
def locate (sp : Space) (a : Addr) : Loc :=
  match sp with
  | .ram => if a.toNat < 31 then .ram a.toNat else .undocumented
  | .clk =>
    match a.toNat with
    | 0 => .clk .seconds
    | 1 => .clk .minutes
    | 2 => .clk .hours
    | 3 => .clk .date
    | 4 => .clk .month
    | 5 => .clk .day
    | 6 => .clk .year
    | _ => .undocumented

/-- The address of a clock register (20_memory R37). -/
def ClkReg.addr : ClkReg → Addr
  | .seconds => 0#5
  | .minutes => 1#5
  | .hours => 2#5
  | .date => 3#5
  | .month => 4#5
  | .day => 5#5
  | .year => 6#5

/-- A clock register's byte. -/
def clkGet (c : ClkRegs) : ClkReg → Byte
  | .seconds => c.seconds
  | .minutes => c.minutes
  | .hours => c.hours
  | .date => c.date
  | .month => c.month
  | .day => c.day
  | .year => c.year

/-- The clock registers with one byte replaced. -/
def clkSet (c : ClkRegs) (r : ClkReg) (v : Byte) : ClkRegs :=
  match r with
  | .seconds => { c with seconds := v }
  | .minutes => { c with minutes := v }
  | .hours => { c with hours := v }
  | .date => { c with date := v }
  | .month => { c with month := v }
  | .day => { c with day := v }
  | .year => { c with year := v }

/-- `CH`, the clock-halt bit: bit 7 of the seconds register, 1 = halted (10_state R29). -/
def halted (c : ClkRegs) : Bool :=
  c.seconds.getLsbD 7

/-! ## Valid content -/

/-- `v[hi:lo]` as a number: the source's `getBits(v, lo, hi)` (48_client_layer R99). -/
def getBits (v : Byte) (lo hi : Nat) : Nat :=
  (v.toNat >>> lo) % 2 ^ (hi + 1 - lo)

/-- A packed decimal field: tens in `v[th:4]`, ones in `v[3:0]`, ones at most 9, value within the bounds. -/
def bcdWithin (v : Byte) (th lo hi : Nat) : Bool :=
  decide (getBits v 0 3 ≤ 9) && decide (lo ≤ 10 * getBits v 4 th + getBits v 0 3)
    && decide (10 * getBits v 4 th + getBits v 0 3 ≤ hi)

/-- Valid content of a clock register (20_memory R49). -/
def validContent (r : ClkReg) (v : Byte) : Bool :=
  match r with
  | .seconds => bcdWithin v 6 0 59
  | .minutes => decide (getBits v 7 7 = 0) && bcdWithin v 6 0 59
  | .hours => decide (getBits v 6 7 = 0) && bcdWithin v 5 0 23
  | .date => decide (getBits v 6 7 = 0) && bcdWithin v 5 1 31
  | .month => decide (getBits v 5 7 = 0) && bcdWithin v 4 1 12
  | .day => decide (1 ≤ v.toNat) && decide (v.toNat ≤ 7)
  | .year => bcdWithin v 7 0 99

end Sys2Proof.Machine
end

