-- ==== Sys2Proof/Machine/Flags.lean ====
section
/-! DEFINITION. The status flags the host sees: READY, RVALID, ERR (10_state R23..R25). -/

namespace Sys2Proof.Machine

/-- Whether a phase is IDLE. -/
def Phase.isIdle : Phase → Bool
  | .idle => true
  | .reset | .recover | .setup | .txl | .txh | .rxd | .rxl | .rxh | .hold | .unassigned _ => false

/-- The phases of a transaction in progress, SETUP to HOLD: those in which `RST_O = 1` (10_state R15). -/
def Phase.active : Phase → Bool
  | .setup | .txl | .txh | .rxd | .rxl | .rxh | .hold => true
  | .reset | .recover | .idle | .unassigned _ => false

/-- READY = 1 exactly when PH = IDLE (10_state R25). -/
def ready (s : State) : Bool :=
  s.ph.isIdle

/-- The block can take a request: it has been reset since power-up (10_state R33) and is in IDLE (41_sequencer R86). -/
def canTake (s : State) : Bool :=
  s.inited && ready s

/-- `refuse(RESERVED_REQ)`: ERR is set and nothing else changes (60_exceptions R124). -/
def refuse (s : State) : State :=
  { s with err := true }

/-- RVALID is cleared at every acceptance (10_state R23). -/
def clearValid (s : State) : State :=
  { s with rvalid := false }

/-- A completed read delivers: `RDATA <- RXR`, `RVALID <- 1` (10_state R22, R23). -/
def deliver (s : State) : State :=
  { s with rdata := s.rxr, rvalid := true }

end Sys2Proof.Machine
end

