-- ==== Sys2Proof/Machine/Memory.lean ====
section
/-! DEFINITION. The device's RAM as a list of cells in one canonical form (10_state R28, 20_memory R38). -/

namespace Sys2Proof.Machine

/-- What an address nothing was written to reads as. 10_state R31 gives no contents. DESIGN CHOICE (log 9), unsafe. -/
def unlisted : Byte := 0x00#8

/-- The byte at an address. -/
def memRead : Memory → Nat → Byte
  | [], _ => unlisted
  | (b, v) :: m, a => if a = b then v else memRead m a

/-- A cell in front of a list, unless it says what an unlisted address reads. -/
def memCons (a : Nat) (v : Byte) (m : Memory) : Memory :=
  if v = unlisted then m else (a, v) :: m

/-- The memory with one byte replaced, in canonical form again. -/
def memWrite : Memory → Nat → Byte → Memory
  | [], a, v => memCons a v []
  | (b, u) :: m, a, v =>
    if a < b then memCons a v ((b, u) :: m)
    else if a = b then memCons a v m
    else (b, u) :: memWrite m a v

/-- Every address of the list is above `lo`, the addresses rise, and no cell says what an unlisted address reads. -/
def memWfAbove : Nat → Memory → Bool
  | _, [] => true
  | lo, (b, v) :: m => decide (lo ≤ b) && decide (v ≠ unlisted) && memWfAbove (b + 1) m

/-- The canonical form. -/
def Memory.wf (m : Memory) : Bool :=
  memWfAbove 0 m

/-- Every listed address is below `n`. -/
def memBelow (n : Nat) : Memory → Bool
  | [] => true
  | (b, _) :: m => decide (b < n) && memBelow n m

/-- The memory that holds `f a` at each address `a` below `n`, built from the top down. -/
def memOf (f : Nat → Byte) : Nat → Memory
  | 0 => []
  | n + 1 => memWrite (memOf f n) n (f n)

end Sys2Proof.Machine
end

