-- ==== Sys2Proof/Machine/Timing.lean ====
section
/-! DEFINITION. Cycle counts from the timing parameters (00_scope R9), the timing premise (R10), and the fixed totals of a
transaction (70_reset R151). -/

namespace Sys2Proof.Machine

/-- `N_X = max(1, ceil(T_X / T_SYS))` (00_scope R9). -/
def cycles (tX tSys : Nat) : Nat :=
  max 1 ((tX + tSys - 1) / tSys)

def nCL (c : Config) : Nat := cycles c.tCL c.tSys
def nCH (c : Config) : Nat := cycles c.tCH c.tSys
def nCDD (c : Config) : Nat := cycles c.tCDD c.tSys
def nCC (c : Config) : Nat := cycles c.tCC c.tSys
def nCCH (c : Config) : Nat := cycles c.tCCH c.tSys
def nCWH (c : Config) : Nat := cycles c.tCWH c.tSys

/-- The timing premise: `N_X * T_SYS >= DEV_MIN_X` for every interval (00_scope R10). -/
def premise (c : Config) : Bool :=
  decide (c.devMinCL ≤ nCL c * c.tSys) && decide (c.devMinCH ≤ nCH c * c.tSys)
    && decide (c.devMinCDD ≤ nCDD c * c.tSys) && decide (c.devMinCC ≤ nCC c * c.tSys)
    && decide (c.devMinCCH ≤ nCCH c * c.tSys) && decide (c.devMinCWH ≤ nCWH c * c.tSys)

/-- The device contract holds: a device is there, and the timing premise holds (20_memory R46). -/
def inContract (c : Config) : Bool :=
  c.attached && premise c

/-- A device is there and the timing premise fails (20_memory R58). -/
def outOfTime (c : Config) : Bool :=
  c.attached && !premise c

/-- The largest count loaded into the timer. -/
def maxCount (c : Config) : Nat :=
  max (nCL c) (max (nCH c) (max (nCDD c) (max (nCC c) (max (nCCH c) (nCWH c)))))

/-- `TIMER_W = ceil(log2(max_X N_X + 1))`, the least width of the timer register (00_scope R9). -/
def timerWidth (c : Config) : Nat :=
  Nat.log2 (maxCount c) + 1

/-- One bit's clock period, `a = N_CL + N_CH` (41_sequencer R93). -/
def bitCycles (c : Config) : Nat :=
  nCL c + nCH c

/-- Acceptance to IDLE of a write (70_reset R151). -/
def writeCycles (c : Config) : Nat :=
  nCC c + 16 * bitCycles c + nCCH c + nCWH c

/-- Acceptance to IDLE of a read (70_reset R151). -/
def readCycles (c : Config) : Nat :=
  nCC c + 16 * bitCycles c + 9 * nCDD c + nCCH c + nCWH c

end Sys2Proof.Machine
end

