-- ==== Sys2Proof/Machine/Ops.lean ====
section
/-! DEFINITION. The named operations: the device contract (20_memory R46..R58), the passing of a system-clock edge, the
line primitives of the block (40_transceiver R76..R79), acceptance (41_sequencer R86) and reset (70_reset R138, R140). -/

namespace Sys2Proof.Machine

/-! ## The device: contents -/

/-- Seven clock registers drawn at a place of the spec. -/
def drawnClk (site : Nat → DrawSite) (n : Nat) : ClkRegs where
  seconds := Config.freeByte (site 0) n
  minutes := Config.freeByte (site 1) n
  hours := Config.freeByte (site 2) n
  date := Config.freeByte (site 3) n
  month := Config.freeByte (site 4) n
  day := Config.freeByte (site 5) n
  year := Config.freeByte (site 6) n

/-- `havoc(CLKREG, RAM, UNDOC)`: every content is free (20_memory R50, R58; 70_reset R140). -/
def havoc (n : Nat) (d : Device) : Device :=
  { d with
    clk := drawnClk .havocClk n
    ram := memOf (fun a => Config.freeByte (.havocRam a) n) 31
    undoc := Config.freeNat .havocUndoc n }

/-- The clock registers after the device may have ticked: while running, any bit but CH is free; while halted, nothing
changes (20_memory R51). -/
def tick (n : Nat) (c : ClkRegs) : ClkRegs :=
  if halted c then c
  else
    let t := drawnClk .tick n
    { t with seconds := putBit t.seconds 7 false }

/-- `DevWrite(space, addr, v)` (20_memory R47, R50). -/
def devWrite (n : Nat) (sp : Space) (a : Addr) (v : Byte) (d : Device) : Device :=
  match locate sp a with
  | .ram i => { d with ram := memWrite d.ram i v }
  | .clk r =>
    if validContent r v then { d with clk := clkSet d.clk r v }
    else { d with clk := clkSet d.clk r (Config.freeByte .badContent n) }
  | .undocumented => havoc n d

/-- The byte `DevRead(space, addr)` returns (20_memory R48, R50). -/
def devReadByte (n : Nat) (sp : Space) (a : Addr) (d : Device) : Byte :=
  match locate sp a with
  | .ram i => memRead d.ram i
  | .clk r => clkGet d.clk r
  | .undocumented => Config.freeByte .undocRead n

/-- The device after `DevRead(space, addr)`: unchanged at a documented address (20_memory R45), havocked at an
undocumented one (R50). -/
def devReadAfter (n : Nat) (sp : Space) (a : Addr) (d : Device) : Device :=
  match locate sp a with
  | .ram _ | .clk _ => d
  | .undocumented => havoc n d

/-! ## The device: its part of a transaction

With no device attached the field `dev` is a record that nothing reads: DEVSEQ still counts the edges on the lines, no
transaction changes the contents, and IO is never driven (log 35). -/

/-- The device performs a write it has received whole. The contract holds under the timing premise (20_memory R46);
without it the contents are free (R58). With no device attached nothing is stored (41_sequencer R89: "a write that the device
did not take is not detected"). -/
def devCommit (c : Config) (n : Nat) (sp : Space) (a : Addr) (v : Byte) (d : Device) : Device :=
  if inContract c then devWrite n sp a v d else if outOfTime c then havoc n d else d

/-- The device, if one is attached, starts to drive the byte of a read (20_memory R56). -/
def devDrive (c : Config) (n : Nat) (sp : Space) (a : Addr) (d : Device) : Device :=
  if inContract c then
    let e := devReadAfter n sp a d
    { e with seq := { e.seq with dout := some (devReadByte n sp a d) } }
  else if outOfTime c then
    let e := havoc n d
    { e with seq := { e.seq with dout := some (Config.freeByte .undocRead n) } }
  else d

/-- A frame opens: RST rises (20_memory R53). -/
def devOpen (d : Device) : Device :=
  { d with seq := { DevSeq.closed with inFrame := true } }

/-- A frame ends: RST falls and the device lets go of IO (20_memory R57). Without the timing premise its contents are
free after the transaction (R58). -/
def devClose (c : Config) (n : Nat) (d : Device) : Device :=
  let e := if outOfTime c then havoc n d else d
  { e with seq := .closed }

/-- A rising CLK edge with `lvl` on IO: bit `rises` of the command (20_memory R54), or of the data of a write (R55), the
byte being stored at the sixteenth. Further edges have no effect. A command byte with bit 7 = 0 is never sent
(30_encoding R66); what the device does with one is free (log 18). -/
def devRise (c : Config) (n : Nat) (lvl : Bool) (d : Device) : Device :=
  let q := d.seq
  if q.rises < 8 then
    let cmd := putBit q.cmd q.rises lvl
    let e := { d with seq := { q with cmd := cmd, rises := q.rises + 1 } }
    if q.rises = 7 && c.attached && !cmdMarker cmd then havoc n e else e
  else if q.rises < 16 && cmdMarker q.cmd && !isRead q.cmd then
    let din := putBit q.din (q.rises - 8) lvl
    let e := { d with seq := { q with din := din, rises := q.rises + 1 } }
    if q.rises = 15 then devCommit c n (cmdSpace q.cmd) (cmdAddr q.cmd) din e else e
  else { d with seq := { q with rises := q.rises + 1 } }

/-- A falling CLK edge. After the eighth, the device of a read drives its byte (20_memory R56). -/
def devFall (c : Config) (n : Nat) (d : Device) : Device :=
  let q := d.seq
  let e := { d with seq := { q with falls := q.falls + 1, sinceFall := 0 } }
  if q.falls = 7 && cmdMarker q.cmd && isRead q.cmd then devDrive c n (cmdSpace q.cmd) (cmdAddr q.cmd) e else e

/-- The level on IO while the block does not drive it (10_state R13, 20_memory R56): bit `j` of the driven byte after the
(8+j)-th falling edge, once T_CDD has passed and before the sixteenth; every other level is free. Without the timing
premise each received bit is free (R58), and with no device attached too (40_transceiver R81). -/
def devLevel (c : Config) (n : Nat) (d : Device) : Bool :=
  match d.seq.dout with
  | some v =>
    if inContract c && decide (8 ≤ d.seq.falls) && decide (d.seq.falls < 16)
        && decide (c.tCDD ≤ d.seq.sinceFall * c.tSys)
    then bitOf v (d.seq.falls - 8)
    else Config.freeBit .io n
  | none => Config.freeBit .io n

/-- What a system-clock period does to the device: it may tick (20_memory R51), and in an open frame time passes since the
last CLK fall (R56). -/
def devPass (n : Nat) (d : Device) : Device :=
  { d with
    clk := tick n d.clk
    seq := if d.seq.inFrame then { d.seq with sinceFall := d.seq.sinceFall + 1 } else d.seq }

/-! ## Time -/

/-- One SYS_CLK edge passes. -/
def advance (s : State) : State :=
  { s with edges := s.edges + 1, draws := s.draws + 1, dev := devPass s.draws s.dev }

/-- `n` edges pass and the block does nothing. -/
def elapse : Nat → State → State
  | 0, s => s
  | n + 1, s => elapse n (advance s)

/-- `wait(n)`: the next actions take place `n` edges later, at the edge where the timer is 1 (40_transceiver R79,
10_state R16). -/
def waitFor (n : Nat) (s : State) : State :=
  elapse n { s with t := 1 }

/-! ## The line primitives -/

/-- The level on IO (10_state R13). Where both sides drive, the block's own level is given and nothing reads it
(70_reset R143). -/
def ioLevel (s : State) : Bool :=
  if s.ioOE then s.ioO else devLevel s.cfg s.draws s.dev

/-- `setDir(IO, OUT)` with true, `setDir(IO, IN)` with false (40_transceiver R76). -/
def setDir (out : Bool) (s : State) : State :=
  { s with ioOE := out }

/-- `drive(IO, b)` (40_transceiver R77): the register changes in either direction. -/
def driveIo (b : Bool) (s : State) : State :=
  { s with ioO := b }

/-- `drive(CLK, b)` (40_transceiver R77). The device, while RST = 1, sees the line's edge (20_memory R53). -/
def driveClk (b : Bool) (s : State) : State :=
  if s.rstO && b && !s.clkO then { s with clkO := b, dev := devRise s.cfg s.draws (ioLevel s) s.dev }
  else if s.rstO && !b && s.clkO then { s with clkO := b, dev := devFall s.cfg s.draws s.dev }
  else { s with clkO := b }

/-- `drive(RST, b)` (40_transceiver R77). A rise opens a frame, a fall ends it (20_memory R53, R57). -/
def driveRst (b : Bool) (s : State) : State :=
  if b && !s.rstO then { s with rstO := b, dev := devOpen s.dev }
  else if !b && s.rstO then { s with rstO := b, dev := devClose s.cfg s.draws s.dev }
  else { s with rstO := b }

/-- K after a read has left RXD: no row of 41_sequencer R91 reads or writes it before the next acceptance, and 10_state R17 and
R92 (e) bound it by 7. Its value is free (log 33). -/
def heldIndex (n : Nat) : BitVec 4 :=
  BitVec.ofNat 4 (Config.freeNat .heldIndex n % 8)

/-- `RXR[j] <- sample(IO)` (40_transceiver R78, R81). -/
def sampleInto (j : Nat) (s : State) : State :=
  { s with rxr := putBit s.rxr j (ioLevel s) }

/-! ## Acceptance and reset -/

/-- The actions of an acceptance edge (41_sequencer R86). -/
def accept (sp : Space) (a : Addr) (d : Dir) (w : Byte) (s : State) : State :=
  driveRst true (clearValid
    { s with cmdr := cmdGen sp a d, wdr := w, rxr := 0x00#8, k := 0#4, sel := .cmd, t := nCC s.cfg, ph := .setup })

/-- A frame is open that will not be completed if the lines drop now: a transaction is in progress (70_reset R140), or RST is
high in a block not reset since power-up (R138: "A reset while RST_O = 1 is covered by rule R140"). -/
def cutShort (s : State) : Bool :=
  if s.inited then s.ph.active else s.rstO

/-- The actions of an edge with RESET_IN = 1 (70_reset R138). RST falls first, so that a frame in progress ends. A frame cut
short is abandoned and the device's contents become free (R140). Otherwise nothing touches the device, at the first reset after
power-up as at any later one (R141, R142). -/
def applyReset (s : State) : State :=
  let f := driveRst false s
  { f with
    ph := .reset, t := 0, k := 0#4, sel := .cmd
    clkO := false, ioO := false, ioOE := true
    cmdr := 0x00#8, wdr := 0x00#8, rxr := 0x00#8
    rdata := 0x00#8, rvalid := false, err := false
    inited := true
    dev := { (if cutShort s then havoc s.draws f.dev else f.dev) with seq := .closed } }

/-- A phase from a 4-bit code (10_state R15). -/
def phaseOfCode (c : Nat) : Phase :=
  match c with
  | 0 => .reset
  | 1 => .recover
  | 2 => .idle
  | 3 => .setup
  | 4 => .txl
  | 5 => .txh
  | 6 => .rxd
  | 7 => .rxl
  | 8 => .rxh
  | 9 => .hold
  | n => .unassigned ⟨(n - 10) % 6, Nat.mod_lt _ (by decide)⟩

/-- The code of a phase (10_state R15). -/
def Phase.code : Phase → Nat
  | .reset => 0
  | .recover => 1
  | .idle => 2
  | .setup => 3
  | .txl => 4
  | .txh => 5
  | .rxd => 6
  | .rxl => 7
  | .rxh => 8
  | .hold => 9
  | .unassigned c => 10 + c.val

/-- Every block register, and DEVSEQ, holds an unspecified value: all are drawn (10_state R33, log 31). -/
def drawRegisters (s : State) : State :=
  let n := s.draws
  let r : Bool := Config.freeBit (.powerUp 1) n
  { s with
    clkO := Config.freeBit (.powerUp 0) n, rstO := r
    ioO := Config.freeBit (.powerUp 2) n, ioOE := Config.freeBit (.powerUp 3) n
    ph := phaseOfCode (Config.freeNat (.powerUp 4) n % 16), t := Config.freeNat (.powerUp 5) n
    k := BitVec.ofNat 4 (Config.freeNat (.powerUp 6) n)
    sel := if Config.freeBit (.powerUp 7) n then .data else .cmd
    cmdr := Config.freeByte (.powerUp 8) n, wdr := Config.freeByte (.powerUp 9) n
    rxr := Config.freeByte (.powerUp 10) n, rdata := Config.freeByte (.powerUp 11) n
    rvalid := Config.freeBit (.powerUp 12) n, err := Config.freeBit (.powerUp 13) n
    inited := false
    dev := { s.dev with
      seq := {
        inFrame := r
        rises := Config.freeNat (.powerUp 14) n
        falls := Config.freeNat (.powerUp 15) n
        cmd := Config.freeByte (.powerUp 16) n
        din := Config.freeByte (.powerUp 17) n
        dout := if Config.freeBit (.powerUp 18) n then some (Config.freeByte (.powerUp 19) n) else none
        sinceFall := Config.freeNat (.powerUp 20) n } } }

/-- An edge before the first reset: the registers stay unspecified (10_state R33). While RST is low the device takes no part
(20_memory R53) and keeps its contents; in a frame that unspecified lines have opened nothing is known of them (log 12). -/
def unspecified (s : State) : State :=
  drawRegisters { s with dev := if s.rstO then havoc s.draws s.dev else s.dev }

/-- The device's contents over a loss of main power: the RAM is kept if `kept`, and everything else is free (70_reset R141,
10_state R31). -/
def powerLoss (kept : Bool) (n : Nat) (d : Device) : Device :=
  if kept then { havoc n d with ram := d.ram } else havoc n d

/-- Main power was lost and has come up again. No register of the block survives (60_exceptions R137); the device keeps its RAM
if backup power was supplied meanwhile (70_reset R141) and no frame was cut short (log 37). -/
def powerUp (backup : Bool) (s : State) : State :=
  { drawRegisters { s with dev := powerLoss (backup && !cutShort s) s.draws s.dev } with draws := s.draws + 1 }

end Sys2Proof.Machine
end

