-- ==== Sys2Proof/Machine/Edge.lean ====
section
/-! DEFINITION. The cycle-level state machine: what the block does at one SYS_CLK rising edge (41_sequencer R91, 70_reset
R138, R139, 60_exceptions R127). -/

namespace Sys2Proof.Machine

/-- The input ports with nothing asserted. -/
def quiet : Ports where
  resetIn := false
  reqValid := false
  req := 0#16

/-- The input ports while the host presents a word. -/
def present (w : ReqWord) : Ports where
  resetIn := false
  reqValid := true
  req := w

/-- The input ports while the reset source asserts RESET_IN. -/
def resetPorts : Ports where
  resetIn := true
  reqValid := false
  req := 0#16

/-- `byte` of R91: CMDR while SEL = CMD, WDR while SEL = DATA. -/
def selectedByte (s : State) : Byte :=
  match s.sel with
  | .cmd => s.cmdr
  | .data => s.wdr

/-! ## The rows of the R91 table, by number -/

/-- Row 1, RESET: the recovery wait begins (70_reset R139). -/
def row1 (s : State) : State :=
  { s with t := nCWH s.cfg, ph := .recover }

/-- Row 2, RECOVER. -/
def row2 (s : State) : State :=
  { s with ph := .idle }

/-- Row 4, IDLE with a reserved word. -/
def row4 (s : State) : State :=
  refuse s

/-- Row 5, IDLE with a request: acceptance (R86). -/
def row5 (w : ReqWord) (s : State) : State :=
  accept (reqSpace w) (reqAddr w) (reqDir w) (reqData w) s

/-- Row 6, SETUP: the first bit of the command byte. -/
def row6 (s : State) : State :=
  { driveIo (bitOf s.cmdr 0) s with t := nCL s.cfg, ph := .txl }

/-- Row 7, TXL: CLK rises. -/
def row7 (s : State) : State :=
  { driveClk true s with t := nCH s.cfg, ph := .txh }

/-- Row 8, TXH with K < 7: CLK falls and the next bit goes out. -/
def row8 (s : State) : State :=
  { driveIo (bitOf (selectedByte s) (s.k.toNat + 1)) (driveClk false s) with
    k := s.k + 1#4, t := nCL s.cfg, ph := .txl }

/-- Row 9, TXH at the end of a write's command byte: the data byte begins. -/
def row9 (s : State) : State :=
  { driveIo (bitOf s.wdr 0) (driveClk false s) with k := 0#4, sel := .data, t := nCL s.cfg, ph := .txl }

/-- Row 10, TXH at the end of a read's command byte: the block lets go of IO. -/
def row10 (s : State) : State :=
  { setDir false (driveClk false s) with k := 0#4, sel := .data, t := nCDD s.cfg, ph := .rxd }

/-- Row 11, TXH at the end of a write's data byte. -/
def row11 (s : State) : State :=
  { driveClk false s with t := nCCH s.cfg, ph := .hold }

/-- Row 12, RXD with K <= 7: one sample. -/
def row12 (s : State) : State :=
  { sampleInto s.k.toNat s with t := nCL s.cfg, ph := .rxl }

/-- Row 13, RXD with K = 8: the block drives IO again. K = 8 ends with RXD (10_state R17). -/
def row13 (s : State) : State :=
  { setDir true s with k := heldIndex s.draws, t := nCCH s.cfg, ph := .hold }

/-- Row 14, RXL: CLK rises. -/
def row14 (s : State) : State :=
  { driveClk true s with t := nCH s.cfg, ph := .rxh }

/-- Row 15, RXH: CLK falls. -/
def row15 (s : State) : State :=
  { driveClk false s with k := s.k + 1#4, t := nCDD s.cfg, ph := .rxd }

/-- Row 16, HOLD: RST falls; a read delivers its byte. -/
def row16 (s : State) : State :=
  let f := driveRst false s
  { (if isRead s.cmdr then deliver f else f) with t := nCWH s.cfg, ph := .recover }

/-! ## One edge -/

/-- Which row leaves TXH (R91 rows 8 to 11). -/
def leaveTxh (s : State) : Host.Outcome State Fault Refusal :=
  if s.k.toNat < 7 then .next (row8 s)
  else if s.k.toNat = 7 then
    match s.sel with
    | .cmd => .next (if isRead s.cmdr then row10 s else row9 s)
    | .data => .next (row11 s)
  else .fault .noRow

/-- Which row leaves RXD (R91 rows 12 and 13). -/
def leaveRxd (s : State) : Host.Outcome State Fault Refusal :=
  if s.k.toNat ≤ 7 then .next (row12 s)
  else if s.k.toNat = 8 then .next (row13 s)
  else .fault .noRow

/-- A timed phase: while T > 1 the edge only counts down; at T = 1 the phase is left (R91, 10_state R16). -/
def timed (leave : State → Host.Outcome State Fault Refusal) (s : State) : Host.Outcome State Fault Refusal :=
  if 1 < s.t then .next { s with t := s.t - 1 }
  else if s.t = 1 then leave s
  else .fault .noRow

/-- The row of R91 that applies when RESET_IN = 0. -/
def rowAction (p : Ports) (s : State) : Host.Outcome State Fault Refusal :=
  match s.ph with
  | .reset => .next (row1 s)
  | .recover => timed (fun s => .next (row2 s)) s
  | .idle => .next (if p.reqValid then (if reqMarker p.req then row5 p.req s else row4 s) else s)
  | .setup => timed (fun s => .next (row6 s)) s
  | .txl => timed (fun s => .next (row7 s)) s
  | .txh => timed leaveTxh s
  | .rxd => timed leaveRxd s
  | .rxl => timed (fun s => .next (row14 s)) s
  | .rxh => timed (fun s => .next (row15 s)) s
  | .hold => timed (fun s => .next (row16 s)) s
  | .unassigned _ => .fault .noRow

/-- The edge passes, if the actions gave a next state. -/
def passing : Host.Outcome State Fault Refusal → Host.Outcome State Fault Refusal
  | .next s => .next (advance s)
  | .fault f => .fault f
  | .refused r => .refused r

/-- One SYS_CLK rising edge at the given input levels. RESET_IN overrides everything (60_exceptions R127). Before the
first reset a request is stuck, and without one every register stays unspecified (10_state R33, 70_reset R142). -/
def edge (p : Ports) (s : State) : Host.Outcome State Fault Refusal :=
  if p.resetIn then .next (advance (applyReset s))
  else if s.inited then passing (rowAction p s)
  else if p.reqValid then .fault .requestBeforeReset
  else .next (advance (unspecified s))

/-- A row of edges, one after another, stopping at the first that gives no next state. -/
def runEdges : List Ports → State → Host.Outcome State Fault Refusal
  | [], s => .next s
  | p :: ps, s =>
    match edge p s with
    | .next s' => runEdges ps s'
    | .fault f => .fault f
    | .refused r => .refused r

end Sys2Proof.Machine
end

