-- ==== Sys2Proof/Machine/Transceiver.lean ====
section
/-! DEFINITION. The transceiver: SEND_BYTE and RECV_BYTE as whole operations, from the pseudocode of 40_transceiver R80, R81
over the line primitives. -/

namespace Sys2Proof.Machine

/-- One bit sent (R80): the data changes, N_CL later CLK rises and the device takes it, N_CH later CLK falls. -/
def sendBit (b : Byte) (k : Nat) (s : State) : State :=
  let driven := waitFor (nCL s.cfg) { driveIo (bitOf b k) s with k := BitVec.ofNat 4 k, ph := .txl }
  driveClk false (waitFor (nCH s.cfg) { driveClk true driven with ph := .txh })

/-- `SEND_BYTE b`, least significant bit first (R80, 20_memory R41), up to and including the eighth falling edge. -/
def sendByte (b : Byte) (s : State) : State :=
  [0, 1, 2, 3, 4, 5, 6, 7].foldl (fun s k => sendBit b k s) s

/-- One bit received (R81): N_CDD after the fall IO is sampled, then one clock pulse. -/
def recvBit (j : Nat) (s : State) : State :=
  let waited := waitFor (nCDD s.cfg) { s with k := BitVec.ofNat 4 j, ph := .rxd }
  let sampled := waitFor (nCL s.cfg) { sampleInto j waited with ph := .rxl }
  driveClk false (waitFor (nCH s.cfg) { driveClk true sampled with ph := .rxh })

/-- `RECV_BYTE`, least significant bit first, with the propagation wait after the eighth pulse (R81). The byte is
accumulated in RXR. -/
def recvByte (s : State) : State :=
  let received := [0, 1, 2, 3, 4, 5, 6, 7].foldl (fun s j => recvBit j s) { s with rxr := 0x00#8 }
  waitFor (nCDD s.cfg) { received with k := 8#4, ph := .rxd }

/-- SEND_BYTE (R80). It cannot fail, stall or be cancelled (R83). It ends at the eighth falling edge, before the
sequencer's action of the same edge (log 23). -/
def execSendByte (b : Byte) (s : State) : Host.Outcome State Fault Refusal :=
  .next (sendByte b s)

/-- RECV_BYTE (R81); its XB field is ignored (30_encoding R73). -/
def execRecvByte (_x : Byte) (s : State) : Host.Outcome State Fault Refusal :=
  .next (recvByte s)

end Sys2Proof.Machine
end

