-- ==== Sys2Proof/Machine/Requests.lean ====
section
/-! DEFINITION. The host's requests: a register transaction as one operation, from the pseudocode of 41_sequencer R89 and R90
over the line primitives and the transceiver, and the refusal of a reserved word (60_exceptions R124). -/

namespace Sys2Proof.Machine

/-- RST falls, the reset-inactive time passes, the block is IDLE again (R89, R90, 20_memory R60). -/
def recoverIdle (s : State) : State :=
  advance { waitFor (nCWH s.cfg) { s with ph := .recover } with ph := .idle }

/-- A write transaction (R89), from its acceptance edge to the edge that enters IDLE. -/
def writeTransaction (sp : Space) (a : Addr) (v : Byte) (s : State) : State :=
  let accepted := waitFor (nCC s.cfg) (accept sp a .write v s)
  let commanded := sendByte accepted.cmdr accepted
  let sent := sendByte commanded.wdr { commanded with sel := .data }
  let held := waitFor (nCCH s.cfg) { sent with ph := .hold }
  recoverIdle (driveRst false held)

/-- A read transaction (R90), from its acceptance edge to the edge that enters IDLE. -/
def readTransaction (sp : Space) (a : Addr) (x : Byte) (s : State) : State :=
  let accepted := waitFor (nCC s.cfg) (accept sp a .read x s)
  let commanded := sendByte accepted.cmdr accepted
  let received := recvByte { setDir false commanded with sel := .data }
  let held := waitFor (nCCH s.cfg) { setDir true received with k := heldIndex received.draws, ph := .hold }
  recoverIdle (deliver (driveRst false held))

/-- The transaction of a request with M = 1. -/
def transaction (sp : Space) (a : Addr) (d : Dir) (w : Byte) (s : State) : State :=
  match d with
  | .write => writeTransaction sp a w s
  | .read => readTransaction sp a w s

/-- A request in a given state: performed whole in IDLE; waiting for one edge in any other phase (41_sequencer R87);
stuck before the first reset (70_reset R142). -/
def whenTaken (effect : State → State) (s : State) : Host.Outcome State Fault Refusal :=
  if s.inited then
    if ready s then .next (effect s) else edge quiet s
  else .fault .requestBeforeReset

/-- WRCLK a, v (R89). -/
def execWrclk (a : Addr) (v : Byte) (s : State) : Host.Outcome State Fault Refusal :=
  whenTaken (transaction .clk a .write v) s

/-- RDCLK a (R90); W is copied to WDR and never sent (30_encoding R70). -/
def execRdclk (a : Addr) (x : Byte) (s : State) : Host.Outcome State Fault Refusal :=
  whenTaken (transaction .clk a .read x) s

/-- WRRAM a, v (R89). -/
def execWrram (a : Addr) (v : Byte) (s : State) : Host.Outcome State Fault Refusal :=
  whenTaken (transaction .ram a .write v) s

/-- RDRAM a (R90). -/
def execRdram (a : Addr) (x : Byte) (s : State) : Host.Outcome State Fault Refusal :=
  whenTaken (transaction .ram a .read x) s

/-- A reserved word: one edge sets ERR and changes nothing else (60_exceptions R124). -/
def execReserved (_x : BitVec 15) (s : State) : Host.Outcome State Fault Refusal :=
  whenTaken (fun s => advance (refuse s)) s

end Sys2Proof.Machine
end

