-- ==== Sys2Proof/Machine/Calendar.lean ====
section
/-! DEFINITION. The named calendar registers (30_encoding R75): each is one request to a fixed clock/calendar address. -/

namespace Sys2Proof.Machine

/-- wrsec v = wrclk 0, v. -/
def execWrsec (v : Byte) (s : State) : Host.Outcome State Fault Refusal :=
  whenTaken (transaction .clk ClkReg.seconds.addr .write v) s

/-- rdsec = rdclk 0. -/
def execRdsec (x : Byte) (s : State) : Host.Outcome State Fault Refusal :=
  whenTaken (transaction .clk ClkReg.seconds.addr .read x) s

/-- wrmin v = wrclk 1, v. -/
def execWrmin (v : Byte) (s : State) : Host.Outcome State Fault Refusal :=
  whenTaken (transaction .clk ClkReg.minutes.addr .write v) s

/-- rdmin = rdclk 1. -/
def execRdmin (x : Byte) (s : State) : Host.Outcome State Fault Refusal :=
  whenTaken (transaction .clk ClkReg.minutes.addr .read x) s

/-- wrhour v = wrclk 2, v. -/
def execWrhour (v : Byte) (s : State) : Host.Outcome State Fault Refusal :=
  whenTaken (transaction .clk ClkReg.hours.addr .write v) s

/-- rdhour = rdclk 2. -/
def execRdhour (x : Byte) (s : State) : Host.Outcome State Fault Refusal :=
  whenTaken (transaction .clk ClkReg.hours.addr .read x) s

/-- wrdate v = wrclk 3, v. -/
def execWrdate (v : Byte) (s : State) : Host.Outcome State Fault Refusal :=
  whenTaken (transaction .clk ClkReg.date.addr .write v) s

/-- rddate = rdclk 3. -/
def execRddate (x : Byte) (s : State) : Host.Outcome State Fault Refusal :=
  whenTaken (transaction .clk ClkReg.date.addr .read x) s

/-- wrmon v = wrclk 4, v. -/
def execWrmon (v : Byte) (s : State) : Host.Outcome State Fault Refusal :=
  whenTaken (transaction .clk ClkReg.month.addr .write v) s

/-- rdmon = rdclk 4. -/
def execRdmon (x : Byte) (s : State) : Host.Outcome State Fault Refusal :=
  whenTaken (transaction .clk ClkReg.month.addr .read x) s

/-- wrday v = wrclk 5, v. -/
def execWrday (v : Byte) (s : State) : Host.Outcome State Fault Refusal :=
  whenTaken (transaction .clk ClkReg.day.addr .write v) s

/-- rdday = rdclk 5. -/
def execRdday (x : Byte) (s : State) : Host.Outcome State Fault Refusal :=
  whenTaken (transaction .clk ClkReg.day.addr .read x) s

/-- wryear v = wrclk 6, v. -/
def execWryear (v : Byte) (s : State) : Host.Outcome State Fault Refusal :=
  whenTaken (transaction .clk ClkReg.year.addr .write v) s

/-- rdyear = rdclk 6. -/
def execRdyear (x : Byte) (s : State) : Host.Outcome State Fault Refusal :=
  whenTaken (transaction .clk ClkReg.year.addr .read x) s

end Sys2Proof.Machine
end

