-- ==== Sys2Proof/Machine/Commands.lean ====
section
/-! DEFINITION. The command byte classes, as the device that has received such a byte performs them (30_encoding R64..R66,
20_memory R47, R48, R54..R56). -/

namespace Sys2Proof.Machine

/-- The device, if one is attached, changes and one drawing is used up; it takes part only while RST = 1 (20_memory R53). -/
def deviceActs (f : Nat → Device → Device) (s : State) : State :=
  if s.rstO && s.cfg.attached then { s with dev := f s.draws s.dev, draws := s.draws + 1 } else s

/-- A write command with the data byte the device has received: it stands after the sixteenth rising edge (R55). -/
def commandWrite (sp : Space) (a : Addr) (s : State) : State :=
  deviceActs (fun n d =>
    devCommit s.cfg n sp a d.seq.din
      { d with seq := { d.seq with cmd := commandByte sp a .write, rises := 16, falls := 15 } }) s

/-- A read command: the device stands after the eighth falling edge, driving the addressed byte (R56). -/
def commandRead (sp : Space) (a : Addr) (s : State) : State :=
  deviceActs (fun n d =>
    devDrive s.cfg n sp a
      { d with seq := { d.seq with cmd := commandByte sp a .read, rises := 8, falls := 8, sinceFall := 0 } }) s

/-- CMD_CLK_WRITE (R47). -/
def execCmdClkWrite (a : Addr) (s : State) : Host.Outcome State Fault Refusal :=
  .next (commandWrite .clk a s)

/-- CMD_CLK_READ (R48). -/
def execCmdClkRead (a : Addr) (s : State) : Host.Outcome State Fault Refusal :=
  .next (commandRead .clk a s)

/-- CMD_RAM_WRITE (R47). -/
def execCmdRamWrite (a : Addr) (s : State) : Host.Outcome State Fault Refusal :=
  .next (commandWrite .ram a s)

/-- CMD_RAM_READ (R48). -/
def execCmdRamRead (a : Addr) (s : State) : Host.Outcome State Fault Refusal :=
  .next (commandRead .ram a s)

/-- CMD_NEVER_SENT (30_encoding R66): the block sends no such byte, and what it would do to the device is given nowhere,
so everything the device holds is free afterwards (log 18). -/
def execCmdNeverSent (x : BitVec 7) (s : State) : Host.Outcome State Fault Refusal :=
  .next (deviceActs (fun n d =>
    havoc n { d with seq := { d.seq with cmd := 0#1 ++ x, rises := 8, falls := 7 } }) s)

end Sys2Proof.Machine
end

