-- ==== Sys2Proof/Machine/Dispatch.lean ====
section
/-! DEFINITION. One arm per instruction. -/

namespace Sys2Proof.Machine

def exec (i : Instr) (s : State) : Host.Outcome State Fault Refusal :=
  match i with
  | .wrclk a v => Sys2Proof.Machine.execWrclk a v s
  | .rdclk a x => Sys2Proof.Machine.execRdclk a x s
  | .wrram a v => Sys2Proof.Machine.execWrram a v s
  | .rdram a x => Sys2Proof.Machine.execRdram a x s
  | .reserved x => Sys2Proof.Machine.execReserved x s
  | .wrsec v => Sys2Proof.Machine.execWrsec v s
  | .rdsec x => Sys2Proof.Machine.execRdsec x s
  | .wrmin v => Sys2Proof.Machine.execWrmin v s
  | .rdmin x => Sys2Proof.Machine.execRdmin x s
  | .wrhour v => Sys2Proof.Machine.execWrhour v s
  | .rdhour x => Sys2Proof.Machine.execRdhour x s
  | .wrdate v => Sys2Proof.Machine.execWrdate v s
  | .rddate x => Sys2Proof.Machine.execRddate x s
  | .wrmon v => Sys2Proof.Machine.execWrmon v s
  | .rdmon x => Sys2Proof.Machine.execRdmon x s
  | .wrday v => Sys2Proof.Machine.execWrday v s
  | .rdday x => Sys2Proof.Machine.execRdday x s
  | .wryear v => Sys2Proof.Machine.execWryear v s
  | .rdyear x => Sys2Proof.Machine.execRdyear x s
  | .cmdClkWrite a => Sys2Proof.Machine.execCmdClkWrite a s
  | .cmdClkRead a => Sys2Proof.Machine.execCmdClkRead a s
  | .cmdRamWrite a => Sys2Proof.Machine.execCmdRamWrite a s
  | .cmdRamRead a => Sys2Proof.Machine.execCmdRamRead a s
  | .cmdNeverSent x => Sys2Proof.Machine.execCmdNeverSent x s
  | .sendByte b => Sys2Proof.Machine.execSendByte b s
  | .recvByte x => Sys2Proof.Machine.execRecvByte x s

end Sys2Proof.Machine
end

