-- ==== Sys2Proof/Machine/Codec.lean ====
section
/-! DEFINITION. The BCD codec of the host software, outside the block (48_client_layer R97..R112). -/

namespace Sys2Proof.Machine

/-- R100; bit 7 (CH) is no part of the value. -/
def decodeSeconds (b : Byte) : Nat := 10 * getBits b 4 6 + getBits b 0 3
/-- R101 -/
def decodeMinutes (b : Byte) : Nat := 10 * getBits b 4 6 + getBits b 0 3
/-- R102 -/
def decodeHours (b : Byte) : Nat := 10 * getBits b 4 5 + getBits b 0 3
/-- R103 -/
def decodeDate (b : Byte) : Nat := 10 * getBits b 4 5 + getBits b 0 3
/-- R104 -/
def decodeMonth (b : Byte) : Nat := 10 * getBits b 4 4 + getBits b 0 3
/-- R105; a stored 0 decodes to -1. -/
def decodeDay (b : Byte) : Int := (getBits b 0 2 : Int) - 1
/-- R106 -/
def decodeYear (b : Byte) : Nat := 2000 + 10 * getBits b 4 7 + getBits b 0 3

/-- R107: no validation, the packed result taken modulo 256. -/
def encodeBCD (v : Nat) : Byte := BitVec.ofNat 8 (((v / 10) <<< 4) ||| (v % 10))
/-- R108 -/
def encodeSeconds (s : Nat) (running : Bool) : Byte := encodeBCD s ||| (if running then 0x00#8 else 0x80#8)
/-- R109: plain binary, 1-based. -/
def encodeDay (d : Nat) : Byte := BitVec.ofNat 8 (d + 1)
/-- R110, for y >= 2000. -/
def encodeYear (y : Nat) : Byte := encodeBCD (y - 2000)

/-- The ranges of a Datetime (R97). -/
def Datetime.inRange (t : Datetime) : Bool :=
  decide (2000 ≤ t.year) && decide (t.year ≤ 2099) && decide (1 ≤ t.month) && decide (t.month ≤ 12)
    && decide (1 ≤ t.date) && decide (t.date ≤ 31) && decide (0 ≤ t.hours) && decide (t.hours ≤ 23)
    && decide (0 ≤ t.minutes) && decide (t.minutes ≤ 59) && decide (0 ≤ t.seconds) && decide (t.seconds ≤ 59)
    && decide (0 ≤ t.day) && decide (t.day ≤ 6)

/-- The seven bytes of a Datetime in the order they are written (R116). -/
def encodeDatetime (t : Datetime) (running : Bool) : List Byte :=
  [encodeSeconds t.seconds.toNat running, encodeBCD t.minutes.toNat, encodeBCD t.hours.toNat, encodeBCD t.date.toNat,
    encodeBCD t.month.toNat, encodeDay t.day.toNat, encodeYear t.year.toNat]

/-- A Datetime from the seven bytes in the order they are read (R115). -/
def decodeDatetime : List Byte → Option Datetime
  | [sec, min, hour, date, mon, day, year] =>
    some {
      year := decodeYear year, month := decodeMonth mon, date := decodeDate date, hours := decodeHours hour
      minutes := decodeMinutes min, seconds := decodeSeconds sec, day := decodeDay day }
  | _ => none

end Sys2Proof.Machine
end

