-- ==== Sys2Proof/Machine/Facade.lean ====
section
/-! DEFINITION. The driver façade, host software outside the block (48_client_layer R113..R122): each call unfolds into
request lines and steps of the host itself. -/

namespace Sys2Proof.Machine

/-- Why the façade rejects a call before any request is issued (R113). -/
inductive RangeError where
  | datetimeField
  | ramAddress
  deriving DecidableEq, Repr

/-- One read of a clock register whose byte the call keeps. -/
def readLine (r : ClkReg) : List Move :=
  [.request (requestWord .clk r.addr .read 0x00#8), .software .keepRdata]

/-- One write of a clock register. -/
def writeLine (r : ClkReg) (v : Byte) : Move :=
  .request (requestWord .clk r.addr .write v)

/-- The clock registers in the façade's field order (R115). -/
def fieldOrder : List ClkReg :=
  [.seconds, .minutes, .hours, .date, .month, .day, .year]

/-- The RAM address of an integer inside [0, 30] (R113). -/
def ramAddress (a : Int) : Option Addr :=
  if 0 ≤ a ∧ a ≤ 30 then some (BitVec.ofNat 5 a.toNat) else none

/-- The lines of a façade call, or its range error. -/
def facadeLines (running : Bool) : FacadeCall → Except RangeError (List Move)
  | .startUp => .ok [.reset, .request (requestWord .clk ClkReg.seconds.addr .read 0x00#8), .software .seedRunning]
  | .getDatetime => .ok (fieldOrder.flatMap readLine)
  | .setupDatetime t =>
    if t.inRange then .ok (List.zipWith writeLine fieldOrder (encodeDatetime t running)) else .error .datetimeField
  | .getRamByte a =>
    match ramAddress a with
    | some i => .ok [.request (requestWord .ram i .read 0x00#8), .software .keepRdata]
    | none => .error .ramAddress
  | .setRamByte a v =>
    match ramAddress a with
    | some i => .ok [.request (requestWord .ram i .write v)]
    | none => .error .ramAddress
  | .getClockHaltBit => .ok (readLine .seconds ++ [.software .seedRunning])
  | .setClockHaltBit h =>
    .ok [.request (requestWord .clk ClkReg.seconds.addr .read 0x00#8), .software (.writeHalt h),
      .software (.setRunning !h)]
  | .isRunning => .ok []

/-- A façade call begins: its lines come next, or it is rejected and issues none (R113). -/
def call (c : FacadeCall) (s : State) : State :=
  match facadeLines s.host.running c with
  | .ok ls => { s with host := { s.host with kept := [], rangeError := false }, agenda := ls ++ s.agenda }
  | .error _ => { s with host := { s.host with kept := [], rangeError := true } }

/-- The seconds byte with only bit 7 changed, to `h` (R120, conflict C4). -/
def haltByte (b : Byte) (h : Bool) : Byte :=
  (b &&& 0x7F#8) ||| (if h then 0x80#8 else 0x00#8)

/-- A step of the host software. -/
def software (op : HostOp) (s : State) : State :=
  match op with
  | .seedRunning => { s with host := { s.host with running := !(bitOf s.rdata 7) } }
  | .keepRdata => { s with host := { s.host with kept := s.host.kept ++ [s.rdata] } }
  | .writeHalt h => { s with agenda := writeLine .seconds (haltByte s.rdata h) :: s.agenda }
  | .setRunning r => { s with host := { s.host with running := r } }

/-- The result of `getDatetime`, once its seven bytes are kept (R115). -/
def datetimeResult (s : State) : Option Datetime :=
  decodeDatetime s.host.kept

/-- The result of `getRamByte`, once its byte is kept (R117). -/
def ramByteResult (s : State) : Option Byte :=
  s.host.kept.head?

/-- The result of `getClockHaltBit`, once its byte is kept (R119). -/
def haltBitResult (s : State) : Option Bool :=
  s.host.kept.head?.map (fun b => bitOf b 7)

/-- The result of `isRunning`: the cache, with no request (R121). -/
def isRunningResult (s : State) : Bool :=
  s.host.running

end Sys2Proof.Machine
end

