-- ==== Sys2Proof/Machine/Fetch.lean ====
section
/-! DEFINITION. Where the next instruction word comes from, and the moves that are no instruction. -/

namespace Sys2Proof.Machine

/-- The instruction the next step runs: of a word at an internal interface, or of the host's next request line. -/
def fetch (s : State) : Option Instr :=
  match s.probe with
  | some (.xop w) => some (decodeXop w)
  | some (.cmd b) => some (decodeCommand b)
  | none =>
    match s.agenda with
    | .request w :: _ => some (decodeRequest w)
    | [] | .edge _ :: _ | .reset :: _ | .waitReady :: _ | .software _ :: _ | .call _ :: _ | .powerUp _ :: _ => none

/-- The state the fetched instruction runs in: its word is used up. A request line that the block cannot take yet stays
where it is (41_sequencer R87, 30_encoding R74). -/
def taken (s : State) : State :=
  match s.probe with
  | some _ => { s with probe := none }
  | none => if canTake s then { s with agenda := s.agenda.tail } else s

/-- A move that fetches no instruction. With no move left, an edge with nothing asserted. (A request line is fetched, so
its case here is never used.) -/
def otherMove (s : State) : Host.Outcome State Fault Refusal :=
  match s.agenda with
  | [] => edge quiet s
  | .edge p :: ms => edge p { s with agenda := ms }
  | .request w :: ms => edge (present w) { s with agenda := ms }
  | .reset :: ms => edge resetPorts { s with agenda := .waitReady :: ms }
  | .waitReady :: ms => if ready s then .next { s with agenda := ms } else edge quiet s
  | .software op :: ms => .next (software op { s with agenda := ms })
  | .call c :: ms => .next (call c { s with agenda := ms })
  | .powerUp b :: ms => .next (powerUp b { s with agenda := ms })

/-- A word placed where the next step fetches it. A request word is the host's next line, and the block is IDLE to take it.
A command byte has reached the device in an open frame. A transceiver word stands at the transceiver. -/
def place (w : TableWord) (s : State) : State :=
  match w with
  | .req w => { s with ph := .idle, inited := true, probe := none, agenda := .request w :: s.agenda }
  | .cmd b => { s with rstO := true, dev := { s.dev with seq := { s.dev.seq with inFrame := true } }, probe := some (.cmd b) }
  | .xop w => { s with probe := some (.xop w) }

/-- The same from a number of bits and a value; what is no word of the table changes nothing. -/
def placeBits (nbits w : Nat) (s : State) : State :=
  match tableWord nbits w with
  | .ok t => place t s
  | .error _ => s

/-- A host program has ended (70_reset R155): every line is performed, the last request was accepted or refused, and the
block is in IDLE with REQ_VALID = 0. -/
def runEnded (s : State) : Bool :=
  s.agenda.isEmpty && s.probe.isNone && ready s

end Sys2Proof.Machine
end

