-- ==== Sys2Proof/Machine/Step.lean ====
section
/-! DEFINITION. One step of the machine. -/

namespace Sys2Proof.Machine

/-- One step: the fetched instruction, run whole, or a move that is no instruction. -/
def step (s : State) : Host.Outcome State Fault Refusal :=
  match fetch s with
  | some i => exec i (taken s)
  | none => otherMove s

/-- The state with an instruction's word where the next step fetches it. -/
def State.withFetchWord (s : State) (nbits w : Nat) : State :=
  placeBits nbits w s

end Sys2Proof.Machine
end

