-- ==== Sys2Proof/Machine/Trace.lean ====
section
/-! DEFINITION. The level on a pin (10_state R27); line traces: what a recorder on the lines sees (41_sequencer R93, R95,
60_exceptions R136), and the two tables of R93. -/

namespace Sys2Proof.Machine

/-- One event of the tables of 41_sequencer R93. -/
inductive LineEvent where
  | rstRise
  | rstFall
  | clkRise
  | clkFall
  /-- IO_OE <- 0 -/
  | ioRelease
  /-- IO_OE <- 1 -/
  | ioDrive
  /-- IO_O <- b, the start of a bit slot -/
  | bit (b : Bool)
  /-- a sample is taken into RXR[j] -/
  | sample (j : Nat)
  /-- RVALID rises, with this byte in RDATA -/
  | result (b : Byte)
  | readyRise
  | readyFall
  deriving DecidableEq, Repr

/-- An event and the number of the edge it takes place at. -/
structure TraceItem where
  edge : Nat
  event : LineEvent
  deriving DecidableEq, Repr

/-- The level on a physical pin: that of the line wired to it (10_state R27), if one is. -/
def pinLevel (s : State) (pin : Nat) : Option Bool :=
  if pin = s.cfg.pins.clock then some s.clkO
  else if pin = s.cfg.pins.data then some (ioLevel s)
  else if pin = s.cfg.pins.reset then some s.rstO
  else none

/-- A rise, a fall or neither. -/
def levelChange (rise fall : LineEvent) (before after : Bool) : List LineEvent :=
  if !before && after then [rise] else if before && !after then [fall] else []

/-- The events of one edge, in the order in which the rows of R91 write them. A bit slot starts where TXL is entered, a
sample is taken where RXL is entered. -/
def eventsBetween (s t : State) : List LineEvent :=
  levelChange .rstRise .rstFall s.rstO t.rstO
    ++ levelChange .clkRise .clkFall s.clkO t.clkO
    ++ levelChange .ioDrive .ioRelease s.ioOE t.ioOE
    ++ (if t.ph = .txl ∧ s.ph ≠ .txl then [.bit t.ioO] else [])
    ++ (if t.ph = .rxl ∧ s.ph ≠ .rxl then [.sample s.k.toNat] else [])
    ++ (if !s.rvalid && t.rvalid then [.result t.rdata] else [])
    ++ levelChange .readyRise .readyFall (ready s) (ready t)

/-- What a recorder sees over a row of edges. -/
def traceEdges : List Ports → State → List TraceItem
  | [], _ => []
  | p :: ps, s =>
    match edge p s with
    | .next t => (eventsBetween s t).map (fun e => ⟨s.edges, e⟩) ++ traceEdges ps t
    | .fault _ | .refused _ => []

/-- Bit slot `k` of a write: slots 0..7 the command byte, 8..15 the data byte (R93). -/
def writeSlot (cmd v : Byte) (k : Nat) : Bool :=
  if k < 8 then bitOf cmd k else bitOf v (k - 8)

/-- The write table of R93, for a transaction accepted at edge `e0`. -/
def writeTrace (c : Config) (e0 : Nat) (cmd v : Byte) : List TraceItem :=
  let a := bitCycles c
  let b0 := e0 + nCC c
  [⟨e0, .rstRise⟩, ⟨e0, .readyFall⟩, ⟨b0, .bit (writeSlot cmd v 0)⟩]
    ++ (List.range 16).flatMap (fun k =>
      [⟨b0 + k * a + nCL c, .clkRise⟩, ⟨b0 + (k + 1) * a, .clkFall⟩]
        ++ (if k < 15 then [⟨b0 + (k + 1) * a, .bit (writeSlot cmd v (k + 1))⟩] else []))
    ++ [⟨b0 + 16 * a + nCCH c, .rstFall⟩, ⟨b0 + 16 * a + nCCH c + nCWH c, .readyRise⟩]

/-- The read table of R93, for the received byte `r`. -/
def readTrace (c : Config) (e0 : Nat) (cmd r : Byte) : List TraceItem :=
  let a := bitCycles c
  let b0 := e0 + nCC c
  let q := b0 + 8 * a
  [⟨e0, .rstRise⟩, ⟨e0, .readyFall⟩, ⟨b0, .bit (bitOf cmd 0)⟩]
    ++ (List.range 8).flatMap (fun k =>
      [⟨b0 + k * a + nCL c, .clkRise⟩, ⟨b0 + (k + 1) * a, .clkFall⟩]
        ++ (if k < 7 then [⟨b0 + (k + 1) * a, .bit (bitOf cmd (k + 1))⟩] else [⟨q, .ioRelease⟩]))
    ++ (List.range 8).flatMap (fun j =>
      [⟨q + nCDD c + j * (nCDD c + a), .sample j⟩, ⟨q + nCDD c + j * (nCDD c + a) + nCL c, .clkRise⟩,
        ⟨q + (j + 1) * (nCDD c + a), .clkFall⟩])
    ++ [⟨q + 9 * nCDD c + 8 * a, .ioDrive⟩, ⟨q + 9 * nCDD c + 8 * a + nCCH c, .rstFall⟩,
      ⟨q + 9 * nCDD c + 8 * a + nCCH c, .result r⟩,
      ⟨q + 9 * nCDD c + 8 * a + nCCH c + nCWH c, .readyRise⟩]

end Sys2Proof.Machine
end

