-- ==== Sys2Proof/Safety.lean ====
section
/-! DEFINITION. The terms in which claims are stated: the whole-machine properties of 41_sequencer R92, the device keeping in
step with the block (10_state R30), the response registers, and the state between transactions. All hold of a block that has
been reset since power-up; before that every register is unspecified (10_state R33). -/

namespace Sys2Proof.Machine

/-- The phases in which CLK is high (10_state R15). -/
def Phase.clockHigh : Phase → Bool
  | .txh | .rxh => true
  | .reset | .recover | .idle | .setup | .txl | .rxd | .rxl | .hold | .unassigned _ => false

/-- The phases in which the block does not drive IO (10_state R15). -/
def Phase.receiving : Phase → Bool
  | .rxd | .rxl | .rxh => true
  | .reset | .recover | .idle | .setup | .txl | .txh | .hold | .unassigned _ => false

/-- The phases T counts in (10_state R16). -/
def Phase.isTimed : Phase → Bool
  | .recover | .setup | .txl | .txh | .rxd | .rxl | .rxh | .hold => true
  | .reset | .idle | .unassigned _ => false

/-- A code the block writes (10_state R15). -/
def Phase.assigned : Phase → Bool
  | .unassigned _ => false
  | .reset | .recover | .idle | .setup | .txl | .txh | .rxd | .rxl | .rxh | .hold => true

/-- 41_sequencer R92 (a), (b), (c): each line register has the value of its phase; and the phase is one of the ten. -/
def linesOk (s : State) : Bool :=
  (s.rstO == s.ph.active) && (s.clkO == s.ph.clockHigh) && (s.ioOE == !s.ph.receiving) && s.ph.assigned

/-- The timer in a timed phase counts between 1 and the largest count (10_state R16). -/
def timerOk (s : State) : Bool :=
  !s.ph.isTimed || (decide (1 ≤ s.t) && decide (s.t ≤ maxCount s.cfg))

/-- The bit index: at most 8 in RXD, at most 7 in every other phase (10_state R17, 41_sequencer R92 (e)). -/
def indexOk (s : State) : Bool :=
  match s.ph with
  | .setup => decide (s.k = 0#4)
  | .rxd => decide (s.k.toNat ≤ 8)
  | .txl | .txh | .rxl | .rxh | .reset | .recover | .idle | .hold | .unassigned _ => decide (s.k.toNat ≤ 7)

/-- The byte selector and the direction (10_state R18, R19, 41_sequencer R92 (d)): the command byte goes first; a data byte
is sent only in a write and received only in a read. A command in progress has bit 7 set (30_encoding R66). -/
def selOk (s : State) : Bool :=
  match s.ph with
  | .setup => decide (s.sel = .cmd) && cmdMarker s.cmdr
  | .txl | .txh => cmdMarker s.cmdr && (decide (s.sel = .cmd) || !isRead s.cmdr)
  | .rxd | .rxl | .rxh => cmdMarker s.cmdr && decide (s.sel = .data) && isRead s.cmdr
  | .hold => cmdMarker s.cmdr && decide (s.sel = .data)
  | .reset | .recover | .idle | .unassigned _ => true

/-- The bits `0..n-1` of what was received are those of what was sent. -/
def sentSoFar (got sent : Byte) (n : Nat) : Bool :=
  (List.range 8).all (fun j => decide (n ≤ j) || bitOf got j == bitOf sent j)

/-- How many bits the block has finished putting on the wire before the current one. -/
def slotBase (s : State) : Nat :=
  (match s.sel with
    | .cmd => 0
    | .data => 8) + s.k.toNat

/-- The device has counted `rises` and `falls` in the open frame, and holds the command and data bits sent so far. -/
def progress (s : State) (rises falls : Nat) : Bool :=
  s.dev.seq.inFrame && decide (s.dev.seq.rises = rises) && decide (s.dev.seq.falls = falls)
    && sentSoFar s.dev.seq.cmd s.cmdr rises
    && (isRead s.cmdr || sentSoFar s.dev.seq.din s.wdr (rises - 8))

/-- The device keeps in step with the block (10_state R30, 20_memory R53..R57): its edge counts are the block's place in the
transaction, the bits it holds are those the block has sent, and IO carries the current bit while one is sent. -/
def syncOk (s : State) : Bool :=
  match s.ph with
  | .reset | .recover | .idle => decide (s.dev.seq = .closed)
  | .setup => progress s 0 0
  | .txl => progress s (slotBase s) (slotBase s) && (s.ioO == bitOf (selectedByte s) s.k.toNat)
  | .txh => progress s (slotBase s + 1) (slotBase s) && (s.ioO == bitOf (selectedByte s) s.k.toNat)
  | .rxd | .rxl => progress s (slotBase s) (slotBase s)
  | .rxh => progress s (slotBase s + 1) (slotBase s)
  | .hold => progress s 16 16
  | .unassigned _ => false

/-- RVALID = 1 only between transactions, when the last accepted request was a read, and RDATA is then the byte received
(10_state R22, R23). -/
def responseOk (s : State) : Bool :=
  !s.rvalid || (!s.ph.active && isRead s.cmdr && s.rdata == s.rxr)

/-- The RAM is in canonical form and lists documented addresses only (20_memory R36, R38). -/
def ramOk (s : State) : Bool :=
  Memory.wf s.dev.ram && memBelow 31 s.dev.ram

/-- The block's registers are as the rows of 41_sequencer R91 leave them, once it has been reset. -/
def blockOk (s : State) : Bool :=
  !s.inited || (linesOk s && timerOk s && indexOk s && selOk s && responseOk s)

/-- The device is in step with the block, once it has been reset. -/
def deviceOk (s : State) : Bool :=
  !s.inited || syncOk s

/-- The invariant of the machine, in a state where no word stands at an internal interface. -/
def MachineInv (s : State) : Prop :=
  blockOk s = true ∧ deviceOk s = true ∧ s.probe = none

/-- Time has passed and no transaction has changed the device: RAM and UNDOC are the same, CH is the same, and a halted
clock is the same (20_memory R51). -/
structure SameStore (d e : Device) : Prop where
  ram : e.ram = d.ram
  undoc : e.undoc = d.undoc
  ch : halted e.clk = halted d.clk
  clk : halted d.clk = true → e.clk = d.clk

/-- The block has been reset and waits in IDLE with its lines at rest (10_state R15): a request is accepted at the next
edge that presents one (41_sequencer R86). -/
def AtRest (s : State) : Prop :=
  s.inited = true ∧ s.ph = .idle ∧ s.rstO = false ∧ s.clkO = false ∧ s.ioOE = true

/-- A device is attached and the timing is right: the premise of 00_scope R10 holds, and the clock period is not zero (R9). -/
def Timely (c : Config) : Prop :=
  inContract c = true ∧ 0 < c.tSys

/-- The state a write transaction leaves, with the device `d` (41_sequencer R89, R91, R92 (h), 70_reset R151): the registers
it names have these values, and every register it does not name is as it was. -/
def written (sp : Space) (a : Addr) (v : Byte) (d : Device) (s : State) : State :=
  { s with
    ph := .idle, t := 1, k := 7#4, sel := .data
    ioO := bitOf v 7
    cmdr := cmdGen sp a .write, wdr := v, rxr := 0x00#8, rvalid := false
    edges := s.edges + (writeCycles s.cfg + 1), draws := s.draws + (writeCycles s.cfg + 1)
    dev := d }

/-- The state a read transaction leaves, with the device `d` and the byte `r` received (41_sequencer R90, R91, R92 (h),
70_reset R151): the registers it names have these values, and every register it does not name is as it was. K is free within
the bound of 10_state R17 (log 33). -/
def readDone (sp : Space) (a : Addr) (x r : Byte) (d : Device) (s : State) : State :=
  { s with
    ph := .idle, t := 1, sel := .data
    k := heldIndex (s.draws + (nCC s.cfg + 16 * bitCycles s.cfg + 9 * nCDD s.cfg))
    ioO := true
    cmdr := cmdGen sp a .read, wdr := x, rxr := r, rdata := r, rvalid := true
    edges := s.edges + (readCycles s.cfg + 1), draws := s.draws + (readCycles s.cfg + 1)
    dev := d }

/-- The count a timed phase is entered with (10_state R16, 41_sequencer R91); 0 for an untimed one. -/
def entryCount (c : Config) : Phase → Nat
  | .recover => nCWH c
  | .setup => nCC c
  | .txl => nCL c
  | .txh => nCH c
  | .rxd => nCDD c
  | .rxl => nCL c
  | .rxh => nCH c
  | .hold => nCCH c
  | .reset | .idle | .unassigned _ => 0

/-- The phases the rows of 41_sequencer R91 lead to when a phase is left. -/
def Phase.successors : Phase → List Phase
  | .reset => [.recover]
  | .recover => [.idle]
  | .idle => [.setup]
  | .setup => [.txl]
  | .txl => [.txh]
  | .txh => [.txl, .rxd, .hold]
  | .rxd => [.rxl, .hold]
  | .rxl => [.rxh]
  | .rxh => [.rxd]
  | .hold => [.recover]
  | .unassigned _ => []

/-- The named write of a calendar register (30_encoding R75). -/
def ClkReg.writeInstr (r : ClkReg) (v : Byte) : Instr :=
  match r with
  | .seconds => .wrsec v
  | .minutes => .wrmin v
  | .hours => .wrhour v
  | .date => .wrdate v
  | .month => .wrmon v
  | .day => .wrday v
  | .year => .wryear v

/-- The named read of a calendar register (30_encoding R75). -/
def ClkReg.readInstr (r : ClkReg) (x : Byte) : Instr :=
  match r with
  | .seconds => .rdsec x
  | .minutes => .rdmin x
  | .hours => .rdhour x
  | .date => .rddate x
  | .month => .rdmon x
  | .day => .rdday x
  | .year => .rdyear x

/-- The write request of any address of either space (41_sequencer R89). -/
def writeInstr : Space → Addr → Byte → Instr
  | .clk, a, v => .wrclk a v
  | .ram, a, v => .wrram a v

/-- The read request of any address of either space (41_sequencer R90). -/
def readInstr : Space → Addr → Byte → Instr
  | .clk, a, x => .rdclk a x
  | .ram, a, x => .rdram a x

/-- The host requests: the instructions that are words on REQ (30_encoding R69, R75). -/
def isRequest : Instr → Bool
  | .wrclk _ _ | .rdclk _ _ | .wrram _ _ | .rdram _ _ | .reserved _ => true
  | .wrsec _ | .rdsec _ | .wrmin _ | .rdmin _ | .wrhour _ | .rdhour _ | .wrdate _ | .rddate _ => true
  | .wrmon _ | .rdmon _ | .wrday _ | .rdday _ | .wryear _ | .rdyear _ => true
  | .cmdClkWrite _ | .cmdClkRead _ | .cmdRamWrite _ | .cmdRamRead _ | .cmdNeverSent _ => false
  | .sendByte _ | .recvByte _ => false

/-- Input levels without a reset. -/
def noReset (ps : List Ports) : Bool :=
  ps.all (fun p => !p.resetIn)

end Sys2Proof.Machine
end

