-- ==== Sys2Proof/Certificates/Slice0/Obligations.lean ====
section
/-! DEFINITION. The statements for the provers, from the numbered rules of spec/. "Only time passes" is SameStore: RAM, UNDOC and
CH are unchanged, and a halted clock is unchanged; a running clock may have ticked (20_memory R51). -/

open Sys2Proof Sys2Proof.Machine

/-! ## Reset -/

/-- 70_reset R138 and the table of 10_state R32: at every edge with RESET_IN = 1 every block register takes its reset value,
whatever the phase and whatever stands on REQ_VALID and REQ; READY is 0; on release PH is RECOVER and T is N_CWH; and a reset
outside a transaction leaves the device to itself, at the first reset after power-up too. (A reset inside one is
`AbortedTransaction`.) -/
def Obligations.ResetEdge : Prop :=
  ∀ s : State, ∃ t : State,
    (∀ p : Ports, p.resetIn = true → edge p s = .next t)
    ∧ t.clkO = false ∧ t.rstO = false ∧ t.ioO = false ∧ t.ioOE = true
    ∧ t.ph = .reset ∧ t.t = 0 ∧ t.k = 0#4 ∧ t.sel = .cmd
    ∧ t.cmdr = 0x00#8 ∧ t.wdr = 0x00#8 ∧ t.rxr = 0x00#8
    ∧ t.rdata = 0x00#8 ∧ t.rvalid = false ∧ t.err = false ∧ ready t = false
    ∧ (s.rstO = false → (s.inited = true → s.ph.active = false) → SameStore s.dev t.dev)
    ∧ (∀ q : Ports, q.resetIn = false → ∃ u, edge q t = .next u ∧ u.ph = .recover ∧ u.t = nCWH s.cfg)

/-- The table of 10_state R32, of the machine's reset state. The device's contents and the parameters there are the model's
own choice (logs 5, 8, 9) and are not stated. -/
def Obligations.ResetStateRegisters : Prop :=
  State.reset.clkO = false ∧ State.reset.rstO = false ∧ State.reset.ioO = false ∧ State.reset.ioOE = true
  ∧ State.reset.ph = .reset ∧ State.reset.t = 0 ∧ State.reset.k = 0#4 ∧ State.reset.sel = .cmd
  ∧ State.reset.cmdr = 0x00#8 ∧ State.reset.wdr = 0x00#8 ∧ State.reset.rxr = 0x00#8
  ∧ State.reset.rdata = 0x00#8 ∧ State.reset.rvalid = false ∧ State.reset.err = false ∧ ready State.reset = false

/-- 70_reset R139, R152: with `p` the last edge of a reset, and `ps` the edges after it, none a reset and with any requests on
the ports: RST and CLK stay low and DEVSEQ stays idle; the first of `ps` enters RECOVER with T = N_CWH; READY rises exactly at
the edge N_CWH after the first of `ps`; a request is accepted at the edge after that one; and RST has then been low for long
enough. -/
def Obligations.ResetReleaseTime : Prop :=
  (∀ (p : Ports) (ps : List Ports) (s : State),
    p.resetIn = true → noReset ps = true → ps.length ≤ nCWH s.cfg + 1 →
      ∃ t, runEdges (p :: ps) s = .next t ∧ t.rstO = false ∧ t.clkO = false ∧ t.dev.seq = .closed
        ∧ (ps.length = 1 → t.ph = .recover ∧ t.t = nCWH s.cfg)
        ∧ (ready t = true ↔ ps.length = nCWH s.cfg + 1)
        ∧ (ps.length = nCWH s.cfg + 1 → ∀ w : ReqWord, reqMarker w = true →
            ∃ u, edge (present w) t = .next u ∧ u.ph = .setup ∧ u.rstO = true))
  ∧ (∀ c : Config, 0 < c.tSys → c.tCWH ≤ (nCWH c + 2) * c.tSys)

/-- 70_reset R140: a reset edge while a transaction is in progress ends it: the lines take their reset values together, the
response registers are cleared and the device's contents become free; outside a transaction it aborts nothing, and the
recovery wait starts again. `blockOk` is the part of the invariant that ties the lines to the phase. -/
def Obligations.AbortedTransaction : Prop :=
  ∀ (p : Ports) (s : State), p.resetIn = true → s.inited = true → blockOk s = true →
    ∃ t, edge p s = .next t
      ∧ t.rstO = false ∧ t.clkO = false ∧ t.ioOE = true ∧ t.dev.seq = .closed
      ∧ t.rdata = 0x00#8 ∧ t.rvalid = false
      ∧ (s.ph.active = true → s.rstO = true ∧ ∃ n d, SameStore (havoc n d) t.dev)
      ∧ (s.ph = .txh ∨ s.ph = .rxh → s.clkO = true)
      ∧ (s.ph = .rxd ∨ s.ph = .rxl ∨ s.ph = .rxh → s.ioOE = false)
      ∧ (s.ph.active = false → SameStore s.dev t.dev)
      ∧ (∀ q : Ports, q.resetIn = false → ∃ u, edge q t = .next u ∧ u.ph = .recover ∧ u.t = nCWH s.cfg)

/-- 70_reset R142, R141, 10_state R33, 60_exceptions R137: before RESET_IN has been asserted, every request is a stuck state; the
edge that asserts it ends that. After a loss of main power the block is such a block; the device keeps its RAM over the loss if
backup power is supplied, and over every edge from then on at which RST is low, the first reset included; without backup the RAM
is free. The name of the stuck state (log 12), and the exception for a frame that the loss cuts short or that is open before the
first reset (logs 12, 37), are the model's. -/
def Obligations.RequestBeforeReset : Prop :=
  (∀ (i : Instr) (s : State), isRequest i = true → s.inited = false → exec i s = .fault .requestBeforeReset)
  ∧ (∀ (p : Ports) (s : State), s.inited = false → p.resetIn = false → p.reqValid = true →
      edge p s = .fault .requestBeforeReset)
  ∧ (∀ (p : Ports) (s : State), p.resetIn = true → ∃ t, edge p s = .next t ∧ t.inited = true)
  ∧ (∀ (backup : Bool) (ms : List Move) (s : State), s.probe = none → s.agenda = .powerUp backup :: ms →
      ∃ t, step s = .next t ∧ t.inited = false ∧ t.agenda = ms
        ∧ (backup = true → cutShort s = false → t.dev.ram = s.dev.ram)
        ∧ (backup = false → ∃ n, t.dev.ram = (havoc n s.dev).ram))
  ∧ (∀ (p : Ports) (s t : State), s.inited = false → s.rstO = false → edge p s = .next t → t.dev.ram = s.dev.ram)

/-! ## The cycle-level state machine -/

/-- 41_sequencer R86: what an edge in IDLE does: acceptance, refusal, or nothing. (At every edge the device may tick: that is
`advance`.) -/
def Obligations.IdleEdge : Prop :=
  ∀ (p : Ports) (s : State), p.resetIn = false → s.inited = true → s.ph = .idle →
    (p.reqValid = true → p.req.getLsbD 15 = true →
      ∃ t, edge p s = .next t
        ∧ t.cmdr = cmdGen (spaceOfBit (p.req.getLsbD 14)) (p.req.extractLsb' 9 5) (dirOfBit (p.req.getLsbD 8))
        ∧ t.wdr = p.req.extractLsb' 0 8 ∧ t.rxr = 0x00#8 ∧ t.rvalid = false ∧ t.k = 0#4 ∧ t.sel = .cmd
        ∧ t.rstO = true ∧ t.t = nCC s.cfg ∧ t.ph = .setup ∧ ready t = false
        ∧ t.clkO = s.clkO ∧ t.ioO = s.ioO ∧ t.ioOE = s.ioOE ∧ t.rdata = s.rdata ∧ t.err = s.err)
    ∧ (p.reqValid = true → p.req.getLsbD 15 = false → edge p s = .next (advance { s with err := true }))
    ∧ (p.reqValid = false → edge p s = .next (advance s))

/-- 41_sequencer R87, 20_memory R62: outside IDLE the request inputs are ignored, so that a request presented early waits: as
a line of the host it takes one edge and stays (the waiting line is the model's form of it, log 25). -/
def Obligations.PortsIgnoredOutsideIdle : Prop :=
  (∀ (p q : Ports) (s : State), p.resetIn = false → q.resetIn = false → s.inited = true → s.ph ≠ .idle →
    edge p s = edge q s)
  ∧ (∀ (i : Instr) (s : State), isRequest i = true → s.inited = true → s.ph ≠ .idle → exec i s = edge quiet s)

/-- 10_state R19: CMDR holds the generated command byte from acceptance, bit 0 of it being the direction, and neither it nor
WDR changes for the rest of the transaction. -/
def Obligations.CommandHeld : Prop :=
  (∀ (w : ReqWord) (s : State), s.inited = true → s.ph = .idle → reqMarker w = true →
    ∃ t, edge (present w) s = .next t ∧ t.cmdr = cmdGen (reqSpace w) (reqAddr w) (reqDir w) ∧ t.wdr = reqData w
      ∧ (t.cmdr.getLsbD 0 = true ↔ reqDir w = .read))
  ∧ (∀ (p : Ports) (s t : State), p.resetIn = false → s.inited = true → s.ph.active = true → edge p s = .next t →
      t.cmdr = s.cmdr ∧ t.wdr = s.wdr)

/-- 10_state R16: a timed phase is entered with its count, counts down by one an edge, and is left at the edge where T = 1;
and the timer is wide enough for every count. -/
def Obligations.TimedPhases : Prop :=
  (∀ (p : Ports) (s t : State), p.resetIn = false → s.inited = true → edge p s = .next t → t.ph ≠ s.ph →
    t.ph.isTimed = true → t.t = entryCount s.cfg t.ph)
  ∧ (∀ (ps : List Ports) (s : State), noReset ps = true → s.inited = true → s.ph.isTimed = true → ps.length < s.t →
      ∃ t, runEdges ps s = .next t ∧ t.ph = s.ph ∧ t.t = s.t - ps.length)
  ∧ (∀ (p : Ports) (s t : State), p.resetIn = false → s.inited = true → s.ph.isTimed = true → s.t = 1 →
      edge p s = .next t → t.ph ≠ s.ph)
  ∧ (∀ (c : Config) (ph : Phase), entryCount c ph < 2 ^ timerWidth c)

/-- 41_sequencer R91, the whole table, row by row: the registers a row names take the values it gives, and every other
register is unchanged; where a row moves RST or CLK, the device's reaction is `d`. Row 13 names no K, and 10_state R17 and R92
(e) end K = 8 with RXD: that K is then any value up to 7 is the model's reading (log 33). -/
def Obligations.RowTable : Prop :=
  ∀ (p : Ports) (s : State), p.resetIn = false → s.inited = true →
    (s.ph.isTimed = true → 1 < s.t → edge p s = .next (advance { s with t := s.t - 1 }))
    ∧ (s.ph = .reset → edge p s = .next (advance { s with t := nCWH s.cfg, ph := .recover }))
    ∧ (s.ph = .recover → s.t = 1 → edge p s = .next (advance { s with ph := .idle }))
    ∧ (s.ph = .idle → p.reqValid = false → edge p s = .next (advance s))
    ∧ (s.ph = .idle → p.reqValid = true → reqMarker p.req = false → edge p s = .next (advance { s with err := true }))
    ∧ (s.ph = .idle → p.reqValid = true → reqMarker p.req = true → ∃ d,
        edge p s = .next (advance { s with
          cmdr := cmdGen (reqSpace p.req) (reqAddr p.req) (reqDir p.req), wdr := reqData p.req, rxr := 0x00#8
          rvalid := false, k := 0#4, sel := .cmd, rstO := true, t := nCC s.cfg, ph := .setup, dev := d }))
    ∧ (s.ph = .setup → s.t = 1 →
        edge p s = .next (advance { s with ioO := bitOf s.cmdr 0, t := nCL s.cfg, ph := .txl }))
    ∧ (s.ph = .txl → s.t = 1 → ∃ d,
        edge p s = .next (advance { s with clkO := true, t := nCH s.cfg, ph := .txh, dev := d }))
    ∧ (s.ph = .txh → s.t = 1 → s.k.toNat < 7 → ∃ d,
        edge p s = .next (advance { s with
          clkO := false, k := s.k + 1#4, t := nCL s.cfg, ph := .txl, dev := d
          ioO := bitOf (match s.sel with | .cmd => s.cmdr | .data => s.wdr) (s.k.toNat + 1) }))
    ∧ (s.ph = .txh → s.t = 1 → s.k.toNat = 7 → s.sel = .cmd → s.cmdr.getLsbD 0 = false → ∃ d,
        edge p s = .next (advance { s with
          clkO := false, k := 0#4, sel := .data, ioO := bitOf s.wdr 0, t := nCL s.cfg, ph := .txl, dev := d }))
    ∧ (s.ph = .txh → s.t = 1 → s.k.toNat = 7 → s.sel = .cmd → s.cmdr.getLsbD 0 = true → ∃ d,
        edge p s = .next (advance { s with
          clkO := false, k := 0#4, sel := .data, ioOE := false, t := nCDD s.cfg, ph := .rxd, dev := d }))
    ∧ (s.ph = .txh → s.t = 1 → s.k.toNat = 7 → s.sel = .data → ∃ d,
        edge p s = .next (advance { s with clkO := false, t := nCCH s.cfg, ph := .hold, dev := d }))
    ∧ (s.ph = .rxd → s.t = 1 → s.k.toNat ≤ 7 →
        edge p s = .next (advance { s with rxr := putBit s.rxr s.k.toNat (ioLevel s), t := nCL s.cfg, ph := .rxl }))
    ∧ (s.ph = .rxd → s.t = 1 → s.k.toNat = 8 → ∃ k : BitVec 4, k.toNat ≤ 7 ∧
        edge p s = .next (advance { s with ioOE := true, k := k, t := nCCH s.cfg, ph := .hold }))
    ∧ (s.ph = .rxl → s.t = 1 → ∃ d,
        edge p s = .next (advance { s with clkO := true, t := nCH s.cfg, ph := .rxh, dev := d }))
    ∧ (s.ph = .rxh → s.t = 1 → ∃ d,
        edge p s = .next (advance { s with clkO := false, k := s.k + 1#4, t := nCDD s.cfg, ph := .rxd, dev := d }))
    ∧ (s.ph = .hold → s.t = 1 → ∃ d,
        edge p s = .next (advance { s with
          rstO := false, t := nCWH s.cfg, ph := .recover, dev := d
          rdata := if s.cmdr.getLsbD 0 then s.rxr else s.rdata, rvalid := s.cmdr.getLsbD 0 || s.rvalid }))

/-- 41_sequencer R92 (f), (g), 70_reset R144: in a block whose lines follow its phase, CLK is low at every edge at which RST
changes, and IO changes level or direction only to a cycle in which CLK is low. -/
def Obligations.LinesChangeClockLow : Prop :=
  ∀ (p : Ports) (s t : State), p.resetIn = false → s.inited = true → blockOk s = true → edge p s = .next t →
    (t.rstO ≠ s.rstO → s.clkO = false ∧ t.clkO = false)
    ∧ (t.ioO ≠ s.ioO ∨ t.ioOE ≠ s.ioOE → t.clkO = false)

/-- 10_state R24: ERR is set by the refusal of a reserved word and by nothing else, and only reset clears it: at an edge, and
over every instruction. -/
def Obligations.ErrFlag : Prop :=
  (∀ (p : Ports) (s t : State), s.inited = true → edge p s = .next t →
    (t.err = true ↔ p.resetIn = false ∧
      (s.err = true ∨ (s.ph = .idle ∧ p.reqValid = true ∧ p.req.getLsbD 15 = false))))
  ∧ (∀ (i : Instr) (s t : State), s.inited = true → exec i s = .next t →
      (t.err = true ↔ s.err = true ∨ (s.ph = .idle ∧ ∃ x, i = .reserved x)))

/-- 10_state R22, R23: RDATA is written once per read, with RXR, at the edge where RST falls, and by reset; RVALID is set there
and cleared by every acceptance and by reset; and while it is 1 the last accepted request was a read and RDATA its byte. -/
def Obligations.ResponseRegisters : Prop :=
  (∀ (p : Ports) (s t : State), s.inited = true → edge p s = .next t →
    t.rdata = (if p.resetIn then 0x00#8
      else if s.ph = .hold ∧ s.t = 1 ∧ s.cmdr.getLsbD 0 = true then s.rxr else s.rdata)
    ∧ t.rvalid = (if p.resetIn then false
      else if s.ph = .hold ∧ s.t = 1 ∧ s.cmdr.getLsbD 0 = true then true
      else if s.ph = .idle ∧ p.reqValid = true ∧ p.req.getLsbD 15 = true then false else s.rvalid)
    ∧ (p.resetIn = false → s.ph = .hold → s.t = 1 → t.rstO = false))
  ∧ (∀ s t : State, MachineInv s → step s = .next t → t.inited = true → t.rvalid = true →
      t.cmdr.getLsbD 0 = true ∧ t.rdata = t.rxr)

/-- 10_state R15, the table: the code of each phase, and the levels its line registers have throughout it, in every state that
meets the invariant; so that a block in IDLE is at rest, the condition of the statements about requests. -/
def Obligations.PhaseTable : Prop :=
  (Phase.reset.code = 0 ∧ Phase.recover.code = 1 ∧ Phase.idle.code = 2 ∧ Phase.setup.code = 3 ∧ Phase.txl.code = 4
    ∧ Phase.txh.code = 5 ∧ Phase.rxd.code = 6 ∧ Phase.rxl.code = 7 ∧ Phase.rxh.code = 8 ∧ Phase.hold.code = 9)
  ∧ (∀ s : State, MachineInv s → s.inited = true →
      s.ph.code ≤ 9
      ∧ (s.rstO = true ↔ s.ph ∈ [.setup, .txl, .txh, .rxd, .rxl, .rxh, .hold])
      ∧ (s.clkO = true ↔ s.ph ∈ [.txh, .rxh])
      ∧ (s.ioOE = false ↔ s.ph ∈ [.rxd, .rxl, .rxh])
      ∧ (s.ph = .idle → AtRest s))

/-! ## Encodings -/

/-- 41_sequencer R85: command generation, as the rule's formula and as the upper byte of the request. -/
def Obligations.CommandByte : Prop :=
  (∀ (sp : Space) (a : Addr) (d : Dir),
    cmdGen sp a d = 0x80#8 ||| (sp.bit.setWidth 8 <<< 6) ||| (a.setWidth 8 <<< 1) ||| d.bit.setWidth 8
    ∧ (cmdGen sp a d).getLsbD 7 = true ∧ ((cmdGen sp a d).getLsbD 6 = true ↔ sp = .ram))
  ∧ (∀ w : ReqWord, w.getLsbD 15 = true → cmdGen (reqSpace w) (reqAddr w) (reqDir w) = w.extractLsb' 8 8)

/-- 30_encoding R67: the software's formulas, for an address of any size, give the command of that address modulo 32 in the
same space. -/
def Obligations.SoftwareCommandAliases : Prop :=
  ∀ (sp : Space) (addr : Nat) (d : Dir),
    softwareCommand sp addr d = cmdGen sp (BitVec.ofNat 5 (addr % 32)) d
    ∧ ((softwareCommand sp addr d).getLsbD 6 = true ↔ sp = .ram)

/-- 30_encoding R75: each named instruction does what the numbered request does, and is the word the table gives. -/
def Obligations.NamedRequests : Prop :=
  (∀ (r : ClkReg) (v x : Byte) (s : State),
    exec (r.writeInstr v) s = exec (.wrclk r.addr v) s ∧ exec (r.readInstr x) s = exec (.rdclk r.addr x) s)
  ∧ (∀ v : Byte,
    encode (.wrsec v) = .req (0x80#8 ++ v) ∧ encode (.wrmin v) = .req (0x82#8 ++ v)
    ∧ encode (.wrhour v) = .req (0x84#8 ++ v) ∧ encode (.wrdate v) = .req (0x86#8 ++ v)
    ∧ encode (.wrmon v) = .req (0x88#8 ++ v) ∧ encode (.wrday v) = .req (0x8A#8 ++ v)
    ∧ encode (.wryear v) = .req (0x8C#8 ++ v))
  ∧ encode (.rdsec 0x00#8) = .req 0x8100#16 ∧ encode (.rdmin 0x00#8) = .req 0x8300#16
  ∧ encode (.rdhour 0x00#8) = .req 0x8500#16 ∧ encode (.rddate 0x00#8) = .req 0x8700#16
  ∧ encode (.rdmon 0x00#8) = .req 0x8900#16 ∧ encode (.rdday 0x00#8) = .req 0x8B00#16
  ∧ encode (.rdyear 0x00#8) = .req 0x8D00#16

/-- Decode and encode agree: every well-formed instruction of the three encodings is read back from its word, with every
operand (30_encoding R64, R68, R70, R73, R75). -/
def Obligations.DecodeEncode : Prop :=
  ∀ i : Instr, i.wellFormed = true → decode (encode i) = i

/-- Every word of the three encodings is the word of the well-formed instruction it decodes to: no bit is dropped, and no two
instructions share a word (30_encoding R65, R69, R71, R72, R73). -/
def Obligations.EncodeDecode : Prop :=
  ∀ w : TableWord, (decode w).wellFormed = true ∧ encode (decode w) = w

/-- 30_encoding R65, R69: the match and mask of each class. Every byte with bit 7 = 1 is in exactly one command class, every
request word in exactly one request class, and the decoder reads it as an instruction of that class (the named instructions
of R75 among the clock classes). -/
def Obligations.WordClasses : Prop :=
  (∀ b : Byte, b.getLsbD 7 = true →
    (b &&& 0xC1#8 = 0x80#8 ∧ decodeCommand b = .cmdClkWrite (b.extractLsb' 1 5))
    ∨ (b &&& 0xC1#8 = 0x81#8 ∧ decodeCommand b = .cmdClkRead (b.extractLsb' 1 5))
    ∨ (b &&& 0xC1#8 = 0xC0#8 ∧ decodeCommand b = .cmdRamWrite (b.extractLsb' 1 5))
    ∨ (b &&& 0xC1#8 = 0xC1#8 ∧ decodeCommand b = .cmdRamRead (b.extractLsb' 1 5)))
  ∧ (∀ w : ReqWord,
    (w &&& 0x8000#16 = 0x0000#16 ∧ ∃ x, decodeRequest w = .reserved x)
    ∨ (w &&& 0xC100#16 = 0x8000#16 ∧ ∃ v, decodeRequest w = .wrclk (reqAddr w) v ∨
        ∃ r : ClkReg, reqAddr w = r.addr ∧ decodeRequest w = r.writeInstr v)
    ∨ (w &&& 0xC100#16 = 0x8100#16 ∧ ∃ x, decodeRequest w = .rdclk (reqAddr w) x ∨
        ∃ r : ClkReg, reqAddr w = r.addr ∧ decodeRequest w = r.readInstr x)
    ∨ (w &&& 0xC100#16 = 0xC000#16 ∧ decodeRequest w = .wrram (reqAddr w) (reqData w))
    ∨ (w &&& 0xC100#16 = 0xC100#16 ∧ decodeRequest w = .rdram (reqAddr w) (reqData w)))

/-- Words written out from 30_encoding R64, R68, R73, R75 and the vectors of 95_test_vectors 2.2. They decode to the class that
stands there, and 0x8080 and 0x8D00, of the classes WRCLK and RDCLK, to the named instruction of R75 that is the same word: that
the decoder answers with the named row is the model's choice (log 21). -/
def Obligations.SampleWords : Prop :=
  decodeRequest 0b0001001000110100#16 = .reserved 0x1234#15
  ∧ decodeRequest 0b1000111000000000#16 = .wrclk 7#5 0x00#8
  ∧ decodeRequest 0b1011111111111111#16 = .rdclk 31#5 0xFF#8
  ∧ decodeRequest 0b1100000001000010#16 = .wrram 0#5 0x42#8
  ∧ decodeRequest 0b1111110100000000#16 = .rdram 30#5 0x00#8
  ∧ decodeRequest 0b1000000010000000#16 = .wrsec 0x80#8
  ∧ decodeRequest 0b1000110100000000#16 = .rdyear 0x00#8
  ∧ decodeCommand 0b10001101#8 = .cmdClkRead 6#5
  ∧ decodeCommand 0b11111100#8 = .cmdRamWrite 30#5
  ∧ decodeCommand 0b01111111#8 = .cmdNeverSent 0x7F#7
  ∧ decodeXop 0b010000001#9 = .sendByte 0x81#8
  ∧ decodeXop 0b100000000#9 = .recvByte 0x00#8

/-- A step runs the decoded instruction: the word at an internal interface, or the host's next request line, which stays in
place while the block cannot take it; and a word put in place by `withFetchWord` is run next (30_encoding R74, 41_sequencer
R87; logs 2, 3, 4). -/
def Obligations.StepRunsDecoded : Prop :=
  (∀ (w : XopWord) (s : State), s.probe = some (.xop w) → step s = exec (decodeXop w) { s with probe := none })
  ∧ (∀ (b : Byte) (s : State), s.probe = some (.cmd b) → step s = exec (decodeCommand b) { s with probe := none })
  ∧ (∀ (w : ReqWord) (ms : List Move) (s : State), s.probe = none → s.agenda = .request w :: ms →
      step s = exec (decodeRequest w) (if s.inited = true ∧ s.ph = .idle then { s with agenda := ms } else s))
  ∧ (∀ (w : ReqWord) (s : State), step (s.withFetchWord 16 w.toNat)
      = exec (decodeRequest w) { s with ph := .idle, inited := true, probe := none })
  ∧ (∀ (b : Byte) (s : State), step (s.withFetchWord 8 b.toNat)
      = exec (decodeCommand b)
          { s with rstO := true, dev := { s.dev with seq := { s.dev.seq with inFrame := true } }, probe := none })
  ∧ (∀ (w : XopWord) (s : State), step (s.withFetchWord 9 w.toNat) = exec (decodeXop w) { s with probe := none })

/-! ## Requests -/

/-- 60_exceptions R124: a reserved word sets ERR and changes nothing else: no line, no register, no phase. One edge passes. -/
def Obligations.ReservedRefused : Prop :=
  ∀ (x : BitVec 15) (s : State), s.inited = true → s.ph = .idle →
    exec (.reserved x) s = .next (advance { s with err := true })
    ∧ edge (present (0#1 ++ x)) s = .next (advance { s with err := true })

/-- 20_memory R47, 41_sequencer R89: WRRAM to a documented address stores the byte there and changes no other RAM byte; the
clock registers and UNDOC see only time pass. The block ends as `written` says. -/
def Obligations.WriteRam : Prop :=
  ∀ (a : Addr) (v : Byte) (s : State), AtRest s → inContract s.cfg = true → ramOk s = true → a.toNat < 31 →
    ∃ d, exec (.wrram a v) s = .next (written .ram a v d s)
      ∧ memRead d.ram a.toNat = v ∧ (∀ b, b ≠ a.toNat → memRead d.ram b = memRead s.dev.ram b)
      ∧ d.undoc = s.dev.undoc ∧ halted d.clk = halted s.dev.clk ∧ (halted s.dev.clk = true → d.clk = s.dev.clk)
      ∧ d.seq = .closed

/-- 20_memory R47, R49, 41_sequencer R89: a write of a calendar register, under its number or under its name (wrsec, wrmin,
wrhour, wrdate, wrmon, wrday, wryear), stores valid content exactly and a free value otherwise, and changes no other location;
before and after that store only time passes. -/
def Obligations.WriteClock : Prop :=
  ∀ (r : ClkReg) (v : Byte) (s : State), AtRest s → inContract s.cfg = true →
    ∃ n e f d, exec (.wrclk r.addr v) s = .next (written .clk r.addr v d s)
      ∧ exec (r.writeInstr v) s = .next (written .clk r.addr v d s)
      ∧ SameStore s.dev e
      ∧ f.clk = clkSet e.clk r (if validContent r v then v else Config.freeByte .badContent n)
      ∧ f.ram = e.ram ∧ f.undoc = e.undoc
      ∧ SameStore f d ∧ d.seq = .closed

/-- 20_memory R50, 41_sequencer R89: a write of an undocumented address, CLK 7..31 or RAM 31, runs as any other, and leaves
the device's contents free. -/
def Obligations.WriteUndocumented : Prop :=
  ∀ (sp : Space) (a : Addr) (v : Byte) (s : State), AtRest s → inContract s.cfg = true →
    ((sp = .clk ∧ 7 ≤ a.toNat) ∨ (sp = .ram ∧ a.toNat = 31)) →
    ∃ n e d, exec (writeInstr sp a v) s = .next (written sp a v d s) ∧ SameStore (havoc n e) d ∧ d.seq = .closed

/-- 20_memory R48, 41_sequencer R90: RDRAM of a documented address delivers the byte stored there, and has no side effect on
the device. The block ends as `readDone` says; there K is free within R17's bound, by the model's reading of K after a read (log
33). -/
def Obligations.ReadRam : Prop :=
  ∀ (a : Addr) (x : Byte) (s : State), AtRest s → Timely s.cfg → a.toNat < 31 →
    ∃ d, exec (.rdram a x) s = .next (readDone .ram a x (memRead s.dev.ram a.toNat) d s)
      ∧ SameStore s.dev d ∧ d.seq = .closed

/-- 20_memory R48, 41_sequencer R90: a read of a calendar register, under its number or under its name (rdsec, rdmin, rdhour,
rddate, rdmon, rdday, rdyear), delivers what the register holds at some moment `e` of the transaction, and has no side effect:
a halted clock is read as it stood. That the byte is that of one moment is the model's reading (log 15), and so is K after a
read, free in `readDone` within R17's bound (log 33). -/
def Obligations.ReadClock : Prop :=
  ∀ (r : ClkReg) (x : Byte) (s : State), AtRest s → Timely s.cfg →
    ∃ e d, exec (.rdclk r.addr x) s = .next (readDone .clk r.addr x (clkGet e.clk r) d s)
      ∧ exec (r.readInstr x) s = .next (readDone .clk r.addr x (clkGet e.clk r) d s)
      ∧ SameStore s.dev e ∧ SameStore e d ∧ d.seq = .closed
      ∧ (halted s.dev.clk = true → clkGet e.clk r = clkGet s.dev.clk r)

/-- 20_memory R50, 41_sequencer R90: a read of an undocumented address delivers a free value and leaves the device's contents
free. K after a read, free in `readDone` within R17's bound, is the model's reading (log 33). -/
def Obligations.ReadUndocumented : Prop :=
  ∀ (sp : Space) (a : Addr) (x : Byte) (s : State), AtRest s → Timely s.cfg →
    ((sp = .clk ∧ 7 ≤ a.toNat) ∨ (sp = .ram ∧ a.toNat = 31)) →
    ∃ n e d, exec (readInstr sp a x) s = .next (readDone sp a x (Config.freeByte .undocRead n) d s)
      ∧ SameStore (havoc n e) d ∧ d.seq = .closed

/-- 20_memory R58: when the timing premise fails, every transaction still completes normally, each received bit is a free value
and the device's contents become free. 40_transceiver R81, 41_sequencer R90, R89, 60_exceptions R123: with no device attached
it completes in the same way, each received bit is a free value, nothing is reported, and no contents change (that the absent
device keeps a record at all is the model's form, log 35). K after a read, free in `readDone` within R17's bound, is the model's
reading (log 33). -/
def Obligations.TimingViolated : Prop :=
  ∀ (sp : Space) (a : Addr) (v : Byte) (s : State), AtRest s →
    (outOfTime s.cfg = true →
      (∃ n e d, exec (writeInstr sp a v) s = .next (written sp a v d s) ∧ SameStore (havoc n e) d ∧ d.seq = .closed)
      ∧ (∃ r n e d, exec (readInstr sp a v) s = .next (readDone sp a v r d s)
        ∧ (∀ j, j < 8 → ∃ m, bitOf r j = Config.freeBit .io m) ∧ SameStore (havoc n e) d ∧ d.seq = .closed))
    ∧ (s.cfg.attached = false →
      (∃ d, exec (writeInstr sp a v) s = .next (written sp a v d s) ∧ SameStore s.dev d ∧ d.seq = .closed)
      ∧ (∃ r d, exec (readInstr sp a v) s = .next (readDone sp a v r d s)
        ∧ (∀ j, j < 8 → ∃ m, bitOf r j = Config.freeBit .io m) ∧ SameStore s.dev d ∧ d.seq = .closed))

/-- 30_encoding R70, 10_state R20: the W field of a read is copied to WDR and has no other effect. -/
def Obligations.ReadIgnoresData : Prop :=
  ∀ (sp : Space) (a : Addr) (x y : Byte) (s t : State), AtRest s → exec (readInstr sp a x) s = .next t →
    t.wdr = x ∧ exec (readInstr sp a y) s = .next { t with wdr := y }

/-- 00_scope R6: the line level and the transaction level agree. A request word presented in IDLE, and then any edges without
a reset for as long as the transaction takes (70_reset R151), whatever stands on the request ports meanwhile, lead to exactly
the state the instruction's meaning gives. (K after a read is the same free value at both levels, log 33.) -/
def Obligations.LineLevelAgrees : Prop :=
  ∀ (w : ReqWord) (ps : List Ports) (s : State), AtRest s → noReset ps = true →
    ps.length = (if reqMarker w = false then 0 else if reqDir w = .read then readCycles s.cfg else writeCycles s.cfg) →
    runEdges (present w :: ps) s = exec (decodeRequest w) s

/-- 41_sequencer R93: the line events of a transaction are exactly those of the rule's two tables, at the edges they give. The
command byte is the upper byte of the request (R85). -/
def Obligations.LineTraces : Prop :=
  ∀ (w : ReqWord) (ps : List Ports) (s : State), AtRest s → reqMarker w = true → noReset ps = true →
    (reqDir w = .write → ps.length = writeCycles s.cfg →
      traceEdges (present w :: ps) s = writeTrace s.cfg s.edges (w.extractLsb' 8 8) (w.extractLsb' 0 8))
    ∧ (reqDir w = .read → ps.length = readCycles s.cfg →
      ∃ t, runEdges (present w :: ps) s = .next t
        ∧ traceEdges (present w :: ps) s = readTrace s.cfg s.edges (w.extractLsb' 8 8) t.rdata)

/-- 20_memory R46, R59: what a request writes the next one reads: a RAM byte always, a calendar register with valid content
while the clock is halted before and after; the RAM pair leaves a halted clock as it was. -/
def Obligations.ReadsBack : Prop :=
  (∀ (a : Addr) (v x : Byte) (s : State), AtRest s → Timely s.cfg → ramOk s = true → a.toNat < 31 →
    ∃ t u, exec (.wrram a v) s = .next t ∧ exec (.rdram a x) t = .next u ∧ u.rdata = v ∧ u.rvalid = true
      ∧ (halted s.dev.clk = true → u.dev.clk = s.dev.clk))
  ∧ (∀ (r : ClkReg) (v x : Byte) (s : State), AtRest s → Timely s.cfg → halted s.dev.clk = true →
      validContent r v = true → (r = .seconds → v.getLsbD 7 = true) →
      ∃ t u, exec (r.writeInstr v) s = .next t ∧ exec (r.readInstr x) t = .next u ∧ u.rdata = v ∧ u.rvalid = true
        ∧ u.dev.clk = clkSet s.dev.clk r v)

/-- 20_memory R55, R45: under the device contract the contents of the device change, but for its own timekeeping, at one edge of
a write only: the sixteenth rising CLK edge, where the byte sent is stored by `DevWrite`; and at one edge of a read only, and
only of an undocumented address: the eighth falling edge (log 15). With no device attached they change at no edge (41_sequencer
R89; log 35). -/
def Obligations.ContentsChangeOnce : Prop :=
  ∀ (p : Ports) (s t : State), MachineInv s → s.inited = true → p.resetIn = false → edge p s = .next t →
    (inContract s.cfg = true →
      if s.ph = .txl ∧ s.t = 1 ∧ s.sel = .data ∧ s.k = 7#4 then
        s.dev.seq.rises = 15 ∧ t.dev.seq.rises = 16
        ∧ SameStore (devWrite s.draws (cmdSpace s.cmdr) (cmdAddr s.cmdr) s.wdr s.dev) t.dev
      else if s.ph = .txh ∧ s.t = 1 ∧ s.sel = .cmd ∧ s.k = 7#4 ∧ isRead s.cmdr = true
          ∧ locate (cmdSpace s.cmdr) (cmdAddr s.cmdr) = .undocumented then
        s.dev.seq.falls = 7 ∧ t.dev.seq.falls = 8 ∧ ∃ n e, SameStore (havoc n e) t.dev
      else SameStore s.dev t.dev)
    ∧ (s.cfg.attached = false → SameStore s.dev t.dev)

/-! ## The transceiver -/

/-- 40_transceiver R80, 20_memory R54, R41: SEND_BYTE of a command byte into an open frame in which no bit has been sent, however
long ago it opened. The block ends with IO at bit 7 and CLK low after the eighth fall; the device has seen eight rises and eight
falls and holds the byte, least significant bit first. (The end state's phase and index are the model's, log 23.) -/
def Obligations.SendCommandByte : Prop :=
  ∀ (b : Byte) (s : State), s.rstO = true → s.clkO = false → s.ioOE = true →
    s.dev.seq.inFrame = true → s.dev.seq.rises = 0 → s.dev.seq.falls = 0 → s.dev.seq.dout = none → b.getLsbD 7 = true →
    ∃ d, exec (.sendByte b) s = .next { s with
        k := 7#4, ph := .txh, t := 1, ioO := bitOf b 7, dev := d
        edges := s.edges + 8 * bitCycles s.cfg, draws := s.draws + 8 * bitCycles s.cfg }
      ∧ d.seq.inFrame = true ∧ d.seq.rises = 8 ∧ d.seq.falls = 8 ∧ d.seq.cmd = b
      ∧ (b.getLsbD 0 = false → SameStore s.dev d ∧ d.seq.dout = none)

/-- 20_memory R55, 40_transceiver R80: SEND_BYTE of the data byte of a write: the device stores it once, by `DevWrite` at the
address the command names. (The end state's phase and index are the model's, log 23.) -/
def Obligations.SendDataByte : Prop :=
  ∀ (b v : Byte) (s : State), s.rstO = true → s.clkO = false → s.ioOE = true → inContract s.cfg = true →
    s.dev.seq.inFrame = true → s.dev.seq.rises = 8 → s.dev.seq.falls = 8 → s.dev.seq.cmd = b →
    b.getLsbD 7 = true → b.getLsbD 0 = false →
    ∃ n e d, exec (.sendByte v) s = .next { s with
        k := 7#4, ph := .txh, t := 1, ioO := bitOf v 7, dev := d
        edges := s.edges + 8 * bitCycles s.cfg, draws := s.draws + 8 * bitCycles s.cfg }
      ∧ SameStore s.dev e ∧ SameStore (devWrite n (cmdSpace b) (cmdAddr b) v e) d

/-- 40_transceiver R81, 20_memory R56, R58: RECV_BYTE from a device that drives the byte `w` delivers `w` in RXR, least significant
bit first, and has no side effect on the device. Where no device is attached, or the timing premise fails, each bit of RXR is a
free value; that the record of an absent device keeps its contents is the model's form (log 35). (The end state's phase and
index are the model's, log 23.) -/
def Obligations.ReceiveByte : Prop :=
  (∀ (x w : Byte) (s : State), s.rstO = true → s.clkO = false → s.ioOE = false → Timely s.cfg →
    s.dev.seq.inFrame = true → s.dev.seq.rises = 8 → s.dev.seq.falls = 8 →
    s.dev.seq.cmd.getLsbD 0 = true → s.dev.seq.dout = some w →
    ∃ d, exec (.recvByte x) s = .next { s with
        k := 8#4, ph := .rxd, t := 1, rxr := w, dev := d
        edges := s.edges + (9 * nCDD s.cfg + 8 * bitCycles s.cfg)
        draws := s.draws + (9 * nCDD s.cfg + 8 * bitCycles s.cfg) }
      ∧ SameStore s.dev d ∧ d.seq.rises = 16 ∧ d.seq.falls = 16)
  ∧ (∀ (x : Byte) (s : State), s.rstO = true → s.clkO = false → s.ioOE = false → inContract s.cfg = false →
    ∃ r d, exec (.recvByte x) s = .next { s with
        k := 8#4, ph := .rxd, t := 1, rxr := r, dev := d
        edges := s.edges + (9 * nCDD s.cfg + 8 * bitCycles s.cfg)
        draws := s.draws + (9 * nCDD s.cfg + 8 * bitCycles s.cfg) }
      ∧ (∀ j, j < 8 → ∃ m, bitOf r j = Config.freeBit .io m)
      ∧ (s.cfg.attached = false → SameStore s.dev d))

/-- 40_transceiver R83, R80, R81: neither transceiver operation can fail, stall or be cancelled; each takes exactly the cycle
count of its rule, and writes no flag and no response, command or write-data register. That they run from every state, outside
the preconditions of R80 and R81 too, is the model's choice (log 23). -/
def Obligations.TransceiverRuns : Prop :=
  (∀ (b : Byte) (s : State), ∃ t, exec (.sendByte b) s = .next t
    ∧ t.edges = s.edges + 8 * (nCL s.cfg + nCH s.cfg)
    ∧ t.clkO = false ∧ t.rstO = s.rstO ∧ t.ioOE = s.ioOE ∧ t.ioO = b.getLsbD 7
    ∧ t.rdata = s.rdata ∧ t.rvalid = s.rvalid ∧ t.err = s.err ∧ t.cmdr = s.cmdr ∧ t.wdr = s.wdr ∧ t.rxr = s.rxr
    ∧ t.cfg = s.cfg ∧ t.host = s.host ∧ t.agenda = s.agenda)
  ∧ (∀ (x : Byte) (s : State), ∃ t, exec (.recvByte x) s = .next t
    ∧ t.edges = s.edges + 9 * nCDD s.cfg + 8 * (nCL s.cfg + nCH s.cfg)
    ∧ t.clkO = false ∧ t.rstO = s.rstO ∧ t.ioOE = s.ioOE ∧ t.ioO = s.ioO
    ∧ t.rdata = s.rdata ∧ t.rvalid = s.rvalid ∧ t.err = s.err ∧ t.cmdr = s.cmdr ∧ t.wdr = s.wdr
    ∧ t.cfg = s.cfg ∧ t.host = s.host ∧ t.agenda = s.agenda)

/-! ## Command bytes at the device -/

/-- 20_memory R47, R55: a write command at the device stores the received data byte: in RAM at a documented address, in a
calendar register if it is valid content (else a free value); no other location and no block register changes. The form of
the operation, whole at the device, is the model's (log 24). -/
def Obligations.CommandWrites : Prop :=
  (∀ (a : Addr) (s : State), s.rstO = true → inContract s.cfg = true → ramOk s = true → a.toNat < 31 →
    ∃ d, exec (.cmdRamWrite a) s = .next { s with dev := d, draws := s.draws + 1 }
      ∧ memRead d.ram a.toNat = s.dev.seq.din ∧ (∀ b, b ≠ a.toNat → memRead d.ram b = memRead s.dev.ram b)
      ∧ d.clk = s.dev.clk ∧ d.undoc = s.dev.undoc)
  ∧ (∀ (r : ClkReg) (s : State), s.rstO = true → inContract s.cfg = true →
    ∃ n d, exec (.cmdClkWrite r.addr) s = .next { s with dev := d, draws := s.draws + 1 }
      ∧ d.clk = clkSet s.dev.clk r
          (if validContent r s.dev.seq.din then s.dev.seq.din else Config.freeByte .badContent n)
      ∧ d.ram = s.dev.ram ∧ d.undoc = s.dev.undoc)

/-- 20_memory R48, R56: a read command at the device makes it drive the addressed byte, and has no side effect on its contents
and no block register. The form of the operation is the model's (log 24). -/
def Obligations.CommandReads : Prop :=
  (∀ (a : Addr) (s : State), s.rstO = true → inContract s.cfg = true → a.toNat < 31 →
    ∃ d, exec (.cmdRamRead a) s = .next { s with dev := d, draws := s.draws + 1 }
      ∧ d.seq.dout = some (memRead s.dev.ram a.toNat)
      ∧ d.clk = s.dev.clk ∧ d.ram = s.dev.ram ∧ d.undoc = s.dev.undoc)
  ∧ (∀ (r : ClkReg) (s : State), s.rstO = true → inContract s.cfg = true →
    ∃ d, exec (.cmdClkRead r.addr) s = .next { s with dev := d, draws := s.draws + 1 }
      ∧ d.seq.dout = some (clkGet s.dev.clk r)
      ∧ d.clk = s.dev.clk ∧ d.ram = s.dev.ram ∧ d.undoc = s.dev.undoc)

/-- 20_memory R50, R58 and 30_encoding R66 at an attached device: a command of an undocumented address, any command without the
timing premise, and a command byte with bit 7 = 0 (whose effect no source gives: free, log 18) leave its contents free, and no
block register changes. The form of the operations, whole at the device with no edge passed, is the model's (log 24). -/
def Obligations.CommandsHavoc : Prop :=
  (∀ (a : Addr) (s : State), s.rstO = true → s.cfg.attached = true → (premise s.cfg = false ∨ 7 ≤ a.toNat) →
    (∃ n e d, exec (.cmdClkWrite a) s = .next { s with dev := d, draws := s.draws + 1 } ∧ SameStore (havoc n e) d)
    ∧ (∃ n e d, exec (.cmdClkRead a) s = .next { s with dev := d, draws := s.draws + 1 } ∧ SameStore (havoc n e) d))
  ∧ (∀ (a : Addr) (s : State), s.rstO = true → s.cfg.attached = true → (premise s.cfg = false ∨ a.toNat = 31) →
    (∃ n e d, exec (.cmdRamWrite a) s = .next { s with dev := d, draws := s.draws + 1 } ∧ SameStore (havoc n e) d)
    ∧ (∃ n e d, exec (.cmdRamRead a) s = .next { s with dev := d, draws := s.draws + 1 } ∧ SameStore (havoc n e) d))
  ∧ (∀ (x : BitVec 7) (s : State), s.rstO = true → s.cfg.attached = true →
    ∃ n e d, exec (.cmdNeverSent x) s = .next { s with dev := d, draws := s.draws + 1 } ∧ SameStore (havoc n e) d)

/-- 20_memory R53: while RST = 0 the device ignores CLK, IO and every command byte; a rise of RST starts it at its beginning,
a fall ends the transaction. With no device attached no command byte has an effect, and no line changes any contents (log
35). -/
def Obligations.DeviceNeedsFrame : Prop :=
  ∀ s : State,
    (s.rstO = false →
      (∀ b, (driveClk b s).dev = s.dev)
      ∧ (∀ b, (driveIo b s).dev = s.dev)
      ∧ (driveRst true s).dev.seq = { DevSeq.closed with inFrame := true }
      ∧ SameStore s.dev (driveRst true s).dev)
    ∧ (s.rstO = true → (driveRst false s).dev.seq = .closed)
    ∧ (s.rstO = false ∨ s.cfg.attached = false →
      (∀ a, exec (.cmdClkWrite a) s = .next s ∧ exec (.cmdClkRead a) s = .next s
        ∧ exec (.cmdRamWrite a) s = .next s ∧ exec (.cmdRamRead a) s = .next s)
      ∧ (∀ x, exec (.cmdNeverSent x) s = .next s))
    ∧ (s.cfg.attached = false →
      (∀ b, SameStore s.dev (driveClk b s).dev) ∧ (∀ b, SameStore s.dev (driveRst b s).dev))

/-! ## The device -/

/-- 20_memory R51: over one step the device's timekeeping changes neither RAM nor UNDOC nor CH; while halted it changes nothing;
while running every bit of the clock registers but CH is a free value. That a period offers one tick is the model's form (log 14). -/
def Obligations.Timekeeping : Prop :=
  ∀ s : State,
    (advance s).dev.ram = s.dev.ram ∧ (advance s).dev.undoc = s.dev.undoc
    ∧ halted (advance s).dev.clk = halted s.dev.clk
    ∧ (halted s.dev.clk = true → (advance s).dev.clk = s.dev.clk)
    ∧ (halted s.dev.clk = false → ∃ n,
        (∀ j, j < 7 → bitOf (advance s).dev.clk.seconds j = bitOf (Config.freeByte (.tick 0) n) j)
        ∧ (advance s).dev.clk.minutes = Config.freeByte (.tick 1) n
        ∧ (advance s).dev.clk.hours = Config.freeByte (.tick 2) n
        ∧ (advance s).dev.clk.date = Config.freeByte (.tick 3) n
        ∧ (advance s).dev.clk.month = Config.freeByte (.tick 4) n
        ∧ (advance s).dev.clk.day = Config.freeByte (.tick 5) n
        ∧ (advance s).dev.clk.year = Config.freeByte (.tick 6) n)

/-- 20_memory R49: a byte is valid content of a calendar register exactly when it is the codec's encoding of a value of that
field's range (48_client_layer R97), with either halt bit for the seconds. -/
def Obligations.ValidContent : Prop :=
  (∀ v : Byte, validContent .seconds v = true ↔ ∃ n ≤ 59, ∃ run : Bool, v = encodeSeconds n run)
  ∧ (∀ v : Byte, validContent .minutes v = true ↔ ∃ n ≤ 59, v = encodeBCD n)
  ∧ (∀ v : Byte, validContent .hours v = true ↔ ∃ n ≤ 23, v = encodeBCD n)
  ∧ (∀ v : Byte, validContent .date v = true ↔ ∃ n, 1 ≤ n ∧ n ≤ 31 ∧ v = encodeBCD n)
  ∧ (∀ v : Byte, validContent .month v = true ↔ ∃ n, 1 ≤ n ∧ n ≤ 12 ∧ v = encodeBCD n)
  ∧ (∀ v : Byte, validContent .day v = true ↔ ∃ n ≤ 6, v = encodeDay n)
  ∧ (∀ v : Byte, validContent .year v = true ↔ ∃ n, 2000 ≤ n ∧ n ≤ 2099 ∧ v = encodeYear n)

/-! ## Timing -/

/-- 00_scope R9: each count is the least whole number of cycles, at least one, that is not shorter than its delay; and
TIMER_W is the least width that holds the largest count. -/
def Obligations.CycleCounts : Prop :=
  (∀ tX tSys : Nat, 0 < tSys →
    1 ≤ cycles tX tSys ∧ tX ≤ cycles tX tSys * tSys ∧ (∀ n, 1 ≤ n → tX ≤ n * tSys → cycles tX tSys ≤ n))
  ∧ (∀ c : Config,
    nCL c = cycles c.tCL c.tSys ∧ nCH c = cycles c.tCH c.tSys ∧ nCDD c = cycles c.tCDD c.tSys
    ∧ nCC c = cycles c.tCC c.tSys ∧ nCCH c = cycles c.tCCH c.tSys ∧ nCWH c = cycles c.tCWH c.tSys
    ∧ maxCount c + 1 ≤ 2 ^ timerWidth c ∧ (∀ w, maxCount c + 1 ≤ 2 ^ w → timerWidth c ≤ w))

/-- 00_scope R10: the timing premise, and that it holds whenever each delay is at least the device's own minimum. -/
def Obligations.TimingPremise : Prop :=
  ∀ c : Config,
    (premise c = true ↔
      c.devMinCL ≤ nCL c * c.tSys ∧ c.devMinCH ≤ nCH c * c.tSys ∧ c.devMinCDD ≤ nCDD c * c.tSys
      ∧ c.devMinCC ≤ nCC c * c.tSys ∧ c.devMinCCH ≤ nCCH c * c.tSys ∧ c.devMinCWH ≤ nCWH c * c.tSys)
    ∧ (0 < c.tSys → c.devMinCL ≤ c.tCL → c.devMinCH ≤ c.tCH → c.devMinCDD ≤ c.tCDD → c.devMinCC ≤ c.tCC →
        c.devMinCCH ≤ c.tCCH → c.devMinCWH ≤ c.tCWH → premise c = true)

/-! ## The whole machine -/

/-- Every step keeps the invariant: the lines follow the phase, the timer and the indexes stay in range, the byte selector and
direction agree, RVALID and RDATA are a read's, and the device is in step with the block (41_sequencer R92, 10_state R16, R23,
R30). The range of K is R17's and R92 (e)'s; that row 13 leaves K a free value of that range is the model's reading (log 33). -/
def Obligations.InvariantKept : Prop :=
  ∀ s t : State, MachineInv s → step s = .next t → MachineInv t

/-- The reset state meets the invariant, and its RAM is canonical. What it says of the device, DEVSEQ closed and no RAM byte
listed, is the model's own choice of what the device holds there (logs 8, 9); 10_state R31 leaves that unknown. -/
def Obligations.InvariantAtReset : Prop :=
  MachineInv State.reset ∧ ramOk State.reset = true

/-- Every step keeps the RAM canonical and within its documented addresses, from every state and whatever is free. -/
def Obligations.RamCanonical : Prop :=
  ∀ s t : State, ramOk s = true → step s = .next t → ramOk t = true

/-- Nothing in the machine can stall (60_exceptions R123, 40_transceiver R83, 70_reset R155): once it has been reset, every step
gives a next state. -/
def Obligations.NeverStalls : Prop :=
  ∀ s : State, MachineInv s → s.inited = true → ∃ t, step s = .next t

/-- 10_state R27, 60_exceptions R132: the timing parameters and the wiring are fixed: no step changes them. That no step attaches
or removes a device is the model's choice (log 35). -/
def Obligations.ConfigFixed : Prop :=
  ∀ s t : State, step s = .next t → t.cfg = s.cfg

/-- 70_reset R155, R151: a host program of request lines ends: each line takes one step of the machine and the fixed number of
edges of its transaction, and the run ends in IDLE with every line performed. That a line is one step is the model's form (log
2). -/
def Obligations.RequestsEnd : Prop :=
  ∀ (ws : List ReqWord) (s : State), AtRest s → s.probe = none → s.agenda = ws.map Move.request →
    ∃ t, Host.Core.run Sys2Proof.core ws.length s = .next t ∧ runEnded t = true ∧ AtRest t
      ∧ t.edges = s.edges + (ws.map (fun w => if reqMarker w = false then 1
          else if reqDir w = .read then readCycles s.cfg + 1 else writeCycles s.cfg + 1)).sum

/-! ## The host software -/

/-- 48_client_layer R99 to R110: the codec's formulas, in the bit fields the rules name. -/
def Obligations.CodecFormulas : Prop :=
  (∀ b : Byte,
    decodeSeconds b = 10 * (b.extractLsb 6 4).toNat + (b.extractLsb 3 0).toNat
    ∧ decodeMinutes b = 10 * (b.extractLsb 6 4).toNat + (b.extractLsb 3 0).toNat
    ∧ decodeHours b = 10 * (b.extractLsb 5 4).toNat + (b.extractLsb 3 0).toNat
    ∧ decodeDate b = 10 * (b.extractLsb 5 4).toNat + (b.extractLsb 3 0).toNat
    ∧ decodeMonth b = 10 * (b.extractLsb 4 4).toNat + (b.extractLsb 3 0).toNat
    ∧ decodeDay b = ((b.extractLsb 2 0).toNat : Int) - 1
    ∧ decodeYear b = 2000 + 10 * (b.extractLsb 7 4).toNat + (b.extractLsb 3 0).toNat)
  ∧ (∀ n : Nat, (encodeBCD n).toNat = (16 * (n / 10) + n % 10) % 256)
  ∧ (∀ n : Nat, encodeSeconds n true = encodeBCD n ∧ encodeSeconds n false = encodeBCD n ||| 0x80#8)
  ∧ (∀ d : Nat, (encodeDay d).toNat = (d + 1) % 256)
  ∧ (∀ y : Nat, 2000 ≤ y → encodeYear y = encodeBCD (y - 2000))

/-- 48_client_layer R111: for every value in its field's range, decoding the encoding returns the value; and so for a whole
Datetime. -/
def Obligations.CodecRoundTrip : Prop :=
  (∀ (n : Nat) (run : Bool), n ≤ 59 → decodeSeconds (encodeSeconds n run) = n)
  ∧ (∀ n : Nat, n ≤ 59 → decodeMinutes (encodeBCD n) = n)
  ∧ (∀ n : Nat, n ≤ 23 → decodeHours (encodeBCD n) = n)
  ∧ (∀ n : Nat, 1 ≤ n → n ≤ 31 → decodeDate (encodeBCD n) = n)
  ∧ (∀ n : Nat, 1 ≤ n → n ≤ 12 → decodeMonth (encodeBCD n) = n)
  ∧ (∀ n : Nat, n ≤ 6 → decodeDay (encodeDay n) = n)
  ∧ (∀ n : Nat, 2000 ≤ n → n ≤ 2099 → decodeYear (encodeYear n) = n)
  ∧ (∀ (dt : Datetime) (run : Bool), dt.inRange = true → decodeDatetime (encodeDatetime dt run) = some dt)

/-- 48_client_layer R113: a call with a Datetime field out of range, or a RAM address outside [0, 30], is rejected before any
request is issued: the host's own record of it is all that changes. That the rejection is one step, at which no edge passes and
the bytes kept from an earlier call are dropped, is the model's form (logs 2, 26). -/
def Obligations.RangeChecked : Prop :=
  (∀ (dt : Datetime) (ms : List Move) (s : State), s.probe = none → s.agenda = .call (.setupDatetime dt) :: ms →
    ¬ (2000 ≤ dt.year ∧ dt.year ≤ 2099 ∧ 1 ≤ dt.month ∧ dt.month ≤ 12 ∧ 1 ≤ dt.date ∧ dt.date ≤ 31
      ∧ 0 ≤ dt.hours ∧ dt.hours ≤ 23 ∧ 0 ≤ dt.minutes ∧ dt.minutes ≤ 59 ∧ 0 ≤ dt.seconds ∧ dt.seconds ≤ 59
      ∧ 0 ≤ dt.day ∧ dt.day ≤ 6) →
    step s = .next { s with agenda := ms, host := { s.host with kept := [], rangeError := true } })
  ∧ (∀ (a : Int) (v : Byte) (c : FacadeCall) (ms : List Move) (s : State), s.probe = none → s.agenda = .call c :: ms →
    (c = .getRamByte a ∨ c = .setRamByte a v) → ¬ (0 ≤ a ∧ a ≤ 30) →
    step s = .next { s with agenda := ms, host := { s.host with kept := [], rangeError := true } })

/-- 48_client_layer R114 to R121: the requests of each façade call, as words, in their order. In `initialize()` the reset comes
before the read. In `setClockHaltBit` the read comes first, and the write that follows carries the seconds byte read, with only
bit 7 changed. -/
def Obligations.FacadeRequests : Prop :=
  ∀ run : Bool,
    let words := fun c : FacadeCall =>
      (facadeLines run c).toOption.map (fun ls => ls.filterMap (fun m => match m with | .request w => some w | _ => none))
    words .getDatetime = some [0x8100#16, 0x8300#16, 0x8500#16, 0x8700#16, 0x8900#16, 0x8B00#16, 0x8D00#16]
    ∧ (∀ dt : Datetime, dt.inRange = true → words (.setupDatetime dt) = some
        [0x80#8 ++ encodeSeconds dt.seconds.toNat run, 0x82#8 ++ encodeBCD dt.minutes.toNat,
          0x84#8 ++ encodeBCD dt.hours.toNat, 0x86#8 ++ encodeBCD dt.date.toNat, 0x88#8 ++ encodeBCD dt.month.toNat,
          0x8A#8 ++ encodeDay dt.day.toNat, 0x8C#8 ++ encodeYear dt.year.toNat])
    ∧ (∀ a : Nat, a ≤ 30 → words (.getRamByte a) = some [0xC100#16 ||| (BitVec.ofNat 16 a <<< 9)])
    ∧ (∀ (a : Nat) (v : Byte), a ≤ 30 →
        words (.setRamByte a v) = some [0xC000#16 ||| (BitVec.ofNat 16 a <<< 9) ||| v.setWidth 16])
    ∧ words .getClockHaltBit = some [0x8100#16]
    ∧ words .isRunning = some []
    ∧ facadeLines run .startUp = .ok [.reset, .request 0x8100#16, .software .seedRunning]
    ∧ (∀ h : Bool, facadeLines run (.setClockHaltBit h)
        = .ok [.request 0x8100#16, .software (.writeHalt h), .software (.setRunning !h)])
    ∧ (∀ (h : Bool) (s : State), software (.writeHalt h) s = { s with
        agenda := .request (0x80#8 ++ ((s.rdata &&& 0x7F#8) ||| (if h then 0x80#8 else 0x00#8))) :: s.agenda })
    ∧ (∀ s : State, software .seedRunning s = { s with host := { s.host with running := !(s.rdata.getLsbD 7) } })

/-- 48_client_layer R114, R98, 70_reset R142: `initialize()` from any state at all, a block never reset included, resets the
block, waits for READY, reads the seconds register and leaves the running-state cache equal to NOT CH. The number of steps is the
model's (logs 2, 26). -/
def Obligations.StartUp : Prop :=
  ∀ s : State, Timely s.cfg → s.probe = none → s.agenda = [.call .startUp] →
    ∃ t, Host.Core.run Sys2Proof.core (nCWH s.cfg + 6) s = .next t
      ∧ AtRest t ∧ runEnded t = true ∧ t.err = false ∧ t.host.running = !(halted t.dev.clk)

/-- 48_client_layer R120, R98, 90_conflicts C4: `setClockHaltBit(h)`, whatever the device holds, writes back the byte it has read
with only bit 7 changed and leaves the cache NOT `h`; CH is then `h` whenever the byte read is valid content. On a halted device
with valid seconds that is so, and when `h` halts no clock register changes (on a running one a tick may intervene, 70_reset
R145). The number of steps is the model's (logs 2, 26). -/
def Obligations.SetClockHaltBit : Prop :=
  ∀ (h : Bool) (s : State), AtRest s → Timely s.cfg → s.probe = none → s.agenda = [.call (.setClockHaltBit h)] →
    ∃ t, Host.Core.run Sys2Proof.core 5 s = .next t ∧ AtRest t ∧ runEnded t = true
      ∧ t.host.running = !h ∧ t.dev.ram = s.dev.ram
      ∧ t.wdr = (t.rdata &&& 0x7F#8) ||| (if h then 0x80#8 else 0x00#8)
      ∧ (validContent .seconds t.rdata = true → halted t.dev.clk = h)
      ∧ (halted s.dev.clk = true → validContent .seconds s.dev.clk.seconds = true →
          t.rdata = s.dev.clk.seconds ∧ halted t.dev.clk = h ∧ (h = true → t.dev.clk = s.dev.clk))

/-- 48_client_layer R116, R115, 95_test_vectors E5 and P1: with the clock halted and the cache saying so, `setupDatetime(dt)`
and then `getDatetime()` yield `dt` again. The number of steps is the model's (logs 2, 26). -/
def Obligations.DatetimeReadsBack : Prop :=
  ∀ (dt : Datetime) (s : State), AtRest s → Timely s.cfg → s.probe = none →
    s.agenda = [.call (.setupDatetime dt), .call .getDatetime] → dt.inRange = true →
    halted s.dev.clk = true → s.host.running = false →
    ∃ t, Host.Core.run Sys2Proof.core 23 s = .next t ∧ runEnded t = true
      ∧ datetimeResult t = some dt ∧ halted t.dev.clk = true
end

