-- ==== Sys2Proof/Laws/Memory.lean ====
section
/-! SUPPORT. The device's RAM: read after write, and every operation keeps the canonical form. -/

namespace Sys2Proof.Machine

theorem memWfAbove_mono {lo lo' : Nat} {m : Memory} (h : lo' ≤ lo) (w : memWfAbove lo m = true) :
    memWfAbove lo' m = true := by
  cases m with
  | nil => rfl
  | cons c m =>
    simp only [memWfAbove, Bool.and_eq_true, decide_eq_true_eq] at w ⊢
    exact ⟨⟨by omega, w.1.2⟩, w.2⟩

/-- Below the least listed address nothing is listed. -/
theorem memRead_below {lo : Nat} {m : Memory} (w : memWfAbove lo m = true) {a : Nat} (h : a < lo) :
    memRead m a = unlisted := by
  induction m generalizing lo with
  | nil => rfl
  | cons c m ih =>
    simp only [memWfAbove, Bool.and_eq_true, decide_eq_true_eq] at w
    rw [memRead, if_neg (by omega)]
    exact ih w.2 (by omega)

theorem memRead_memCons {lo : Nat} {m : Memory} (a : Nat) (v : Byte) (w : memWfAbove lo m = true) (h : a < lo) (b : Nat) :
    memRead (memCons a v m) b = if b = a then v else memRead m b := by
  unfold memCons
  by_cases hv : v = unlisted
  · rw [if_pos hv]
    by_cases hb : b = a
    · rw [if_pos hb, hv, hb, memRead_below w h]
    · rw [if_neg hb]
  · rw [if_neg hv, memRead]

/-- Read after write: the byte written at its address, every other byte as before. -/
theorem memRead_memWriteAbove {lo : Nat} {m : Memory} (w : memWfAbove lo m = true) (a : Nat) (v : Byte) (b : Nat) :
    memRead (memWrite m a v) b = if b = a then v else memRead m b := by
  induction m generalizing lo with
  | nil => exact memRead_memCons (lo := a + 1) a v rfl (by omega) b
  | cons c m ih =>
    obtain ⟨x, u⟩ := c
    have w' := w
    simp only [memWfAbove, Bool.and_eq_true, decide_eq_true_eq] at w'
    rw [memWrite]
    split
    · next h => exact memRead_memCons a v (lo := x) (by simp [memWfAbove, w']) h b
    · split
      · next h =>
        rw [memRead_memCons a v w'.2 (by omega), memRead, h]
        by_cases hb : b = x <;> simp [hb]
      · next h1 h2 =>
        rw [memRead, memRead, ih w'.2]
        by_cases hb : b = x
        · rw [if_pos hb, if_pos hb, if_neg (by omega)]
        · rw [if_neg hb, if_neg hb]

theorem memRead_memWrite {m : Memory} (w : Memory.wf m = true) (a : Nat) (v : Byte) (b : Nat) :
    memRead (memWrite m a v) b = if b = a then v else memRead m b :=
  memRead_memWriteAbove w a v b

theorem memCons_wf {lo : Nat} {m : Memory} (a : Nat) (v : Byte) (h : lo ≤ a) (w : memWfAbove (a + 1) m = true) :
    memWfAbove lo (memCons a v m) = true := by
  unfold memCons
  split
  · exact memWfAbove_mono (by omega) w
  · simp [memWfAbove, *]

theorem memWrite_wfAbove {lo : Nat} {m : Memory} (w : memWfAbove lo m = true) (a : Nat) (v : Byte) (h : lo ≤ a) :
    memWfAbove lo (memWrite m a v) = true := by
  induction m generalizing lo with
  | nil => exact memCons_wf a v h rfl
  | cons c m ih =>
    obtain ⟨x, u⟩ := c
    have w' := w
    simp only [memWfAbove, Bool.and_eq_true, decide_eq_true_eq] at w'
    rw [memWrite]
    split
    · next hx => exact memCons_wf a v h (by simp only [memWfAbove, Bool.and_eq_true, decide_eq_true_eq]; exact ⟨⟨by omega, w'.1.2⟩, w'.2⟩)
    · split
      · next hx => exact memCons_wf a v h (hx ▸ w'.2)
      · simp only [memWfAbove, Bool.and_eq_true, decide_eq_true_eq]
        exact ⟨w'.1, ih w'.2 (by omega)⟩

/-- A write keeps the canonical form. -/
theorem memWrite_wf {m : Memory} (w : Memory.wf m = true) (a : Nat) (v : Byte) : Memory.wf (memWrite m a v) = true :=
  memWrite_wfAbove w a v (Nat.zero_le a)

theorem memCons_below {n : Nat} {m : Memory} (a : Nat) (v : Byte) (h : a < n) (w : memBelow n m = true) :
    memBelow n (memCons a v m) = true := by
  unfold memCons
  split
  · exact w
  · simp [memBelow, *]

/-- A write below `n` lists nothing at or above `n`. -/
theorem memWrite_below {n : Nat} {m : Memory} (w : memBelow n m = true) (a : Nat) (v : Byte) (h : a < n) :
    memBelow n (memWrite m a v) = true := by
  induction m with
  | nil => exact memCons_below a v h rfl
  | cons c m ih =>
    obtain ⟨x, u⟩ := c
    have w' := w
    simp only [memBelow, Bool.and_eq_true, decide_eq_true_eq] at w'
    rw [memWrite]
    split
    · exact memCons_below a v h w
    · split
      · exact memCons_below a v h w'.2
      · simp only [memBelow, Bool.and_eq_true, decide_eq_true_eq]
        exact ⟨w'.1, ih w'.2⟩

theorem memOf_wf (f : Nat → Byte) (n : Nat) : Memory.wf (memOf f n) = true := by
  induction n with
  | zero => rfl
  | succ n ih => exact memWrite_wf ih n (f n)

theorem memBelow_mono {n k : Nat} {m : Memory} (h : n ≤ k) (w : memBelow n m = true) : memBelow k m = true := by
  induction m with
  | nil => rfl
  | cons c m ih =>
    simp only [memBelow, Bool.and_eq_true, decide_eq_true_eq] at w ⊢
    exact ⟨by omega, ih w.2⟩

theorem memOf_below (f : Nat → Byte) (n : Nat) : memBelow n (memOf f n) = true := by
  induction n with
  | zero => rfl
  | succ n ih => exact memWrite_below (memBelow_mono (by omega) ih) n (f n) (by omega)

/-- The built memory holds `f` below `n` and nothing above. -/
theorem memRead_memOf (f : Nat → Byte) (n a : Nat) : memRead (memOf f n) a = if a < n then f a else unlisted := by
  induction n with
  | zero => simp [memOf, memRead]
  | succ n ih =>
    rw [memOf, memRead_memWrite (memOf_wf f n), ih]
    by_cases h : a = n
    · rw [if_pos h, if_pos (by omega), h]
    · rw [if_neg h]
      by_cases h' : a < n
      · rw [if_pos h', if_pos (by omega)]
      · rw [if_neg h', if_neg (by omega)]

end Sys2Proof.Machine
end

