-- ==== Sys2Proof/Laws/State.lean ====
section
/-! SUPPORT. Beside the state: one lemma per field for each operation that updates it, so that no proof unfolds a record
update. -/

namespace Sys2Proof.Machine

/-! ## advance -/

@[simp] theorem advance_cfg (s : State) : (advance s).cfg = s.cfg := rfl
@[simp] theorem advance_clkO (s : State) : (advance s).clkO = s.clkO := rfl
@[simp] theorem advance_rstO (s : State) : (advance s).rstO = s.rstO := rfl
@[simp] theorem advance_ioO (s : State) : (advance s).ioO = s.ioO := rfl
@[simp] theorem advance_ioOE (s : State) : (advance s).ioOE = s.ioOE := rfl
@[simp] theorem advance_ph (s : State) : (advance s).ph = s.ph := rfl
@[simp] theorem advance_t (s : State) : (advance s).t = s.t := rfl
@[simp] theorem advance_k (s : State) : (advance s).k = s.k := rfl
@[simp] theorem advance_sel (s : State) : (advance s).sel = s.sel := rfl
@[simp] theorem advance_cmdr (s : State) : (advance s).cmdr = s.cmdr := rfl
@[simp] theorem advance_wdr (s : State) : (advance s).wdr = s.wdr := rfl
@[simp] theorem advance_rxr (s : State) : (advance s).rxr = s.rxr := rfl
@[simp] theorem advance_rdata (s : State) : (advance s).rdata = s.rdata := rfl
@[simp] theorem advance_rvalid (s : State) : (advance s).rvalid = s.rvalid := rfl
@[simp] theorem advance_err (s : State) : (advance s).err = s.err := rfl
@[simp] theorem advance_inited (s : State) : (advance s).inited = s.inited := rfl
@[simp] theorem advance_dev (s : State) : (advance s).dev = devPass s.draws s.dev := rfl
@[simp] theorem advance_host (s : State) : (advance s).host = s.host := rfl
@[simp] theorem advance_edges (s : State) : (advance s).edges = s.edges + 1 := rfl
@[simp] theorem advance_draws (s : State) : (advance s).draws = s.draws + 1 := rfl
@[simp] theorem advance_agenda (s : State) : (advance s).agenda = s.agenda := rfl
@[simp] theorem advance_probe (s : State) : (advance s).probe = s.probe := rfl

/-! ## setDir -/

@[simp] theorem setDir_cfg (b : Bool) (s : State) : (setDir b s).cfg = s.cfg := rfl
@[simp] theorem setDir_clkO (b : Bool) (s : State) : (setDir b s).clkO = s.clkO := rfl
@[simp] theorem setDir_rstO (b : Bool) (s : State) : (setDir b s).rstO = s.rstO := rfl
@[simp] theorem setDir_ioO (b : Bool) (s : State) : (setDir b s).ioO = s.ioO := rfl
@[simp] theorem setDir_ioOE (b : Bool) (s : State) : (setDir b s).ioOE = b := rfl
@[simp] theorem setDir_ph (b : Bool) (s : State) : (setDir b s).ph = s.ph := rfl
@[simp] theorem setDir_t (b : Bool) (s : State) : (setDir b s).t = s.t := rfl
@[simp] theorem setDir_k (b : Bool) (s : State) : (setDir b s).k = s.k := rfl
@[simp] theorem setDir_sel (b : Bool) (s : State) : (setDir b s).sel = s.sel := rfl
@[simp] theorem setDir_cmdr (b : Bool) (s : State) : (setDir b s).cmdr = s.cmdr := rfl
@[simp] theorem setDir_wdr (b : Bool) (s : State) : (setDir b s).wdr = s.wdr := rfl
@[simp] theorem setDir_rxr (b : Bool) (s : State) : (setDir b s).rxr = s.rxr := rfl
@[simp] theorem setDir_rdata (b : Bool) (s : State) : (setDir b s).rdata = s.rdata := rfl
@[simp] theorem setDir_rvalid (b : Bool) (s : State) : (setDir b s).rvalid = s.rvalid := rfl
@[simp] theorem setDir_err (b : Bool) (s : State) : (setDir b s).err = s.err := rfl
@[simp] theorem setDir_inited (b : Bool) (s : State) : (setDir b s).inited = s.inited := rfl
@[simp] theorem setDir_dev (b : Bool) (s : State) : (setDir b s).dev = s.dev := rfl
@[simp] theorem setDir_host (b : Bool) (s : State) : (setDir b s).host = s.host := rfl
@[simp] theorem setDir_edges (b : Bool) (s : State) : (setDir b s).edges = s.edges := rfl
@[simp] theorem setDir_draws (b : Bool) (s : State) : (setDir b s).draws = s.draws := rfl
@[simp] theorem setDir_agenda (b : Bool) (s : State) : (setDir b s).agenda = s.agenda := rfl
@[simp] theorem setDir_probe (b : Bool) (s : State) : (setDir b s).probe = s.probe := rfl

/-! ## driveIo -/

@[simp] theorem driveIo_cfg (b : Bool) (s : State) : (driveIo b s).cfg = s.cfg := rfl
@[simp] theorem driveIo_clkO (b : Bool) (s : State) : (driveIo b s).clkO = s.clkO := rfl
@[simp] theorem driveIo_rstO (b : Bool) (s : State) : (driveIo b s).rstO = s.rstO := rfl
@[simp] theorem driveIo_ioO (b : Bool) (s : State) : (driveIo b s).ioO = b := rfl
@[simp] theorem driveIo_ioOE (b : Bool) (s : State) : (driveIo b s).ioOE = s.ioOE := rfl
@[simp] theorem driveIo_ph (b : Bool) (s : State) : (driveIo b s).ph = s.ph := rfl
@[simp] theorem driveIo_t (b : Bool) (s : State) : (driveIo b s).t = s.t := rfl
@[simp] theorem driveIo_k (b : Bool) (s : State) : (driveIo b s).k = s.k := rfl
@[simp] theorem driveIo_sel (b : Bool) (s : State) : (driveIo b s).sel = s.sel := rfl
@[simp] theorem driveIo_cmdr (b : Bool) (s : State) : (driveIo b s).cmdr = s.cmdr := rfl
@[simp] theorem driveIo_wdr (b : Bool) (s : State) : (driveIo b s).wdr = s.wdr := rfl
@[simp] theorem driveIo_rxr (b : Bool) (s : State) : (driveIo b s).rxr = s.rxr := rfl
@[simp] theorem driveIo_rdata (b : Bool) (s : State) : (driveIo b s).rdata = s.rdata := rfl
@[simp] theorem driveIo_rvalid (b : Bool) (s : State) : (driveIo b s).rvalid = s.rvalid := rfl
@[simp] theorem driveIo_err (b : Bool) (s : State) : (driveIo b s).err = s.err := rfl
@[simp] theorem driveIo_inited (b : Bool) (s : State) : (driveIo b s).inited = s.inited := rfl
@[simp] theorem driveIo_dev (b : Bool) (s : State) : (driveIo b s).dev = s.dev := rfl
@[simp] theorem driveIo_host (b : Bool) (s : State) : (driveIo b s).host = s.host := rfl
@[simp] theorem driveIo_edges (b : Bool) (s : State) : (driveIo b s).edges = s.edges := rfl
@[simp] theorem driveIo_draws (b : Bool) (s : State) : (driveIo b s).draws = s.draws := rfl
@[simp] theorem driveIo_agenda (b : Bool) (s : State) : (driveIo b s).agenda = s.agenda := rfl
@[simp] theorem driveIo_probe (b : Bool) (s : State) : (driveIo b s).probe = s.probe := rfl

/-! ## sampleInto -/

@[simp] theorem sampleInto_cfg (j : Nat) (s : State) : (sampleInto j s).cfg = s.cfg := rfl
@[simp] theorem sampleInto_clkO (j : Nat) (s : State) : (sampleInto j s).clkO = s.clkO := rfl
@[simp] theorem sampleInto_rstO (j : Nat) (s : State) : (sampleInto j s).rstO = s.rstO := rfl
@[simp] theorem sampleInto_ioO (j : Nat) (s : State) : (sampleInto j s).ioO = s.ioO := rfl
@[simp] theorem sampleInto_ioOE (j : Nat) (s : State) : (sampleInto j s).ioOE = s.ioOE := rfl
@[simp] theorem sampleInto_ph (j : Nat) (s : State) : (sampleInto j s).ph = s.ph := rfl
@[simp] theorem sampleInto_t (j : Nat) (s : State) : (sampleInto j s).t = s.t := rfl
@[simp] theorem sampleInto_k (j : Nat) (s : State) : (sampleInto j s).k = s.k := rfl
@[simp] theorem sampleInto_sel (j : Nat) (s : State) : (sampleInto j s).sel = s.sel := rfl
@[simp] theorem sampleInto_cmdr (j : Nat) (s : State) : (sampleInto j s).cmdr = s.cmdr := rfl
@[simp] theorem sampleInto_wdr (j : Nat) (s : State) : (sampleInto j s).wdr = s.wdr := rfl
@[simp] theorem sampleInto_rxr (j : Nat) (s : State) : (sampleInto j s).rxr = putBit s.rxr j (ioLevel s) := rfl
@[simp] theorem sampleInto_rdata (j : Nat) (s : State) : (sampleInto j s).rdata = s.rdata := rfl
@[simp] theorem sampleInto_rvalid (j : Nat) (s : State) : (sampleInto j s).rvalid = s.rvalid := rfl
@[simp] theorem sampleInto_err (j : Nat) (s : State) : (sampleInto j s).err = s.err := rfl
@[simp] theorem sampleInto_inited (j : Nat) (s : State) : (sampleInto j s).inited = s.inited := rfl
@[simp] theorem sampleInto_dev (j : Nat) (s : State) : (sampleInto j s).dev = s.dev := rfl
@[simp] theorem sampleInto_host (j : Nat) (s : State) : (sampleInto j s).host = s.host := rfl
@[simp] theorem sampleInto_edges (j : Nat) (s : State) : (sampleInto j s).edges = s.edges := rfl
@[simp] theorem sampleInto_draws (j : Nat) (s : State) : (sampleInto j s).draws = s.draws := rfl
@[simp] theorem sampleInto_agenda (j : Nat) (s : State) : (sampleInto j s).agenda = s.agenda := rfl
@[simp] theorem sampleInto_probe (j : Nat) (s : State) : (sampleInto j s).probe = s.probe := rfl

/-! ## refuse -/

@[simp] theorem refuse_cfg (s : State) : (refuse s).cfg = s.cfg := rfl
@[simp] theorem refuse_clkO (s : State) : (refuse s).clkO = s.clkO := rfl
@[simp] theorem refuse_rstO (s : State) : (refuse s).rstO = s.rstO := rfl
@[simp] theorem refuse_ioO (s : State) : (refuse s).ioO = s.ioO := rfl
@[simp] theorem refuse_ioOE (s : State) : (refuse s).ioOE = s.ioOE := rfl
@[simp] theorem refuse_ph (s : State) : (refuse s).ph = s.ph := rfl
@[simp] theorem refuse_t (s : State) : (refuse s).t = s.t := rfl
@[simp] theorem refuse_k (s : State) : (refuse s).k = s.k := rfl
@[simp] theorem refuse_sel (s : State) : (refuse s).sel = s.sel := rfl
@[simp] theorem refuse_cmdr (s : State) : (refuse s).cmdr = s.cmdr := rfl
@[simp] theorem refuse_wdr (s : State) : (refuse s).wdr = s.wdr := rfl
@[simp] theorem refuse_rxr (s : State) : (refuse s).rxr = s.rxr := rfl
@[simp] theorem refuse_rdata (s : State) : (refuse s).rdata = s.rdata := rfl
@[simp] theorem refuse_rvalid (s : State) : (refuse s).rvalid = s.rvalid := rfl
@[simp] theorem refuse_err (s : State) : (refuse s).err = true := rfl
@[simp] theorem refuse_inited (s : State) : (refuse s).inited = s.inited := rfl
@[simp] theorem refuse_dev (s : State) : (refuse s).dev = s.dev := rfl
@[simp] theorem refuse_host (s : State) : (refuse s).host = s.host := rfl
@[simp] theorem refuse_edges (s : State) : (refuse s).edges = s.edges := rfl
@[simp] theorem refuse_draws (s : State) : (refuse s).draws = s.draws := rfl
@[simp] theorem refuse_agenda (s : State) : (refuse s).agenda = s.agenda := rfl
@[simp] theorem refuse_probe (s : State) : (refuse s).probe = s.probe := rfl

/-! ## clearValid -/

@[simp] theorem clearValid_cfg (s : State) : (clearValid s).cfg = s.cfg := rfl
@[simp] theorem clearValid_clkO (s : State) : (clearValid s).clkO = s.clkO := rfl
@[simp] theorem clearValid_rstO (s : State) : (clearValid s).rstO = s.rstO := rfl
@[simp] theorem clearValid_ioO (s : State) : (clearValid s).ioO = s.ioO := rfl
@[simp] theorem clearValid_ioOE (s : State) : (clearValid s).ioOE = s.ioOE := rfl
@[simp] theorem clearValid_ph (s : State) : (clearValid s).ph = s.ph := rfl
@[simp] theorem clearValid_t (s : State) : (clearValid s).t = s.t := rfl
@[simp] theorem clearValid_k (s : State) : (clearValid s).k = s.k := rfl
@[simp] theorem clearValid_sel (s : State) : (clearValid s).sel = s.sel := rfl
@[simp] theorem clearValid_cmdr (s : State) : (clearValid s).cmdr = s.cmdr := rfl
@[simp] theorem clearValid_wdr (s : State) : (clearValid s).wdr = s.wdr := rfl
@[simp] theorem clearValid_rxr (s : State) : (clearValid s).rxr = s.rxr := rfl
@[simp] theorem clearValid_rdata (s : State) : (clearValid s).rdata = s.rdata := rfl
@[simp] theorem clearValid_rvalid (s : State) : (clearValid s).rvalid = false := rfl
@[simp] theorem clearValid_err (s : State) : (clearValid s).err = s.err := rfl
@[simp] theorem clearValid_inited (s : State) : (clearValid s).inited = s.inited := rfl
@[simp] theorem clearValid_dev (s : State) : (clearValid s).dev = s.dev := rfl
@[simp] theorem clearValid_host (s : State) : (clearValid s).host = s.host := rfl
@[simp] theorem clearValid_edges (s : State) : (clearValid s).edges = s.edges := rfl
@[simp] theorem clearValid_draws (s : State) : (clearValid s).draws = s.draws := rfl
@[simp] theorem clearValid_agenda (s : State) : (clearValid s).agenda = s.agenda := rfl
@[simp] theorem clearValid_probe (s : State) : (clearValid s).probe = s.probe := rfl

/-! ## deliver -/

@[simp] theorem deliver_cfg (s : State) : (deliver s).cfg = s.cfg := rfl
@[simp] theorem deliver_clkO (s : State) : (deliver s).clkO = s.clkO := rfl
@[simp] theorem deliver_rstO (s : State) : (deliver s).rstO = s.rstO := rfl
@[simp] theorem deliver_ioO (s : State) : (deliver s).ioO = s.ioO := rfl
@[simp] theorem deliver_ioOE (s : State) : (deliver s).ioOE = s.ioOE := rfl
@[simp] theorem deliver_ph (s : State) : (deliver s).ph = s.ph := rfl
@[simp] theorem deliver_t (s : State) : (deliver s).t = s.t := rfl
@[simp] theorem deliver_k (s : State) : (deliver s).k = s.k := rfl
@[simp] theorem deliver_sel (s : State) : (deliver s).sel = s.sel := rfl
@[simp] theorem deliver_cmdr (s : State) : (deliver s).cmdr = s.cmdr := rfl
@[simp] theorem deliver_wdr (s : State) : (deliver s).wdr = s.wdr := rfl
@[simp] theorem deliver_rxr (s : State) : (deliver s).rxr = s.rxr := rfl
@[simp] theorem deliver_rdata (s : State) : (deliver s).rdata = s.rxr := rfl
@[simp] theorem deliver_rvalid (s : State) : (deliver s).rvalid = true := rfl
@[simp] theorem deliver_err (s : State) : (deliver s).err = s.err := rfl
@[simp] theorem deliver_inited (s : State) : (deliver s).inited = s.inited := rfl
@[simp] theorem deliver_dev (s : State) : (deliver s).dev = s.dev := rfl
@[simp] theorem deliver_host (s : State) : (deliver s).host = s.host := rfl
@[simp] theorem deliver_edges (s : State) : (deliver s).edges = s.edges := rfl
@[simp] theorem deliver_draws (s : State) : (deliver s).draws = s.draws := rfl
@[simp] theorem deliver_agenda (s : State) : (deliver s).agenda = s.agenda := rfl
@[simp] theorem deliver_probe (s : State) : (deliver s).probe = s.probe := rfl

/-! ## driveClk -/

@[simp] theorem driveClk_cfg (b : Bool) (s : State) : (driveClk b s).cfg = s.cfg := by
  unfold driveClk; split <;> [rfl; (split <;> rfl)]
@[simp] theorem driveClk_clkO (b : Bool) (s : State) : (driveClk b s).clkO = b := by
  unfold driveClk; split <;> [rfl; (split <;> rfl)]
@[simp] theorem driveClk_rstO (b : Bool) (s : State) : (driveClk b s).rstO = s.rstO := by
  unfold driveClk; split <;> [rfl; (split <;> rfl)]
@[simp] theorem driveClk_ioO (b : Bool) (s : State) : (driveClk b s).ioO = s.ioO := by
  unfold driveClk; split <;> [rfl; (split <;> rfl)]
@[simp] theorem driveClk_ioOE (b : Bool) (s : State) : (driveClk b s).ioOE = s.ioOE := by
  unfold driveClk; split <;> [rfl; (split <;> rfl)]
@[simp] theorem driveClk_ph (b : Bool) (s : State) : (driveClk b s).ph = s.ph := by
  unfold driveClk; split <;> [rfl; (split <;> rfl)]
@[simp] theorem driveClk_t (b : Bool) (s : State) : (driveClk b s).t = s.t := by
  unfold driveClk; split <;> [rfl; (split <;> rfl)]
@[simp] theorem driveClk_k (b : Bool) (s : State) : (driveClk b s).k = s.k := by
  unfold driveClk; split <;> [rfl; (split <;> rfl)]
@[simp] theorem driveClk_sel (b : Bool) (s : State) : (driveClk b s).sel = s.sel := by
  unfold driveClk; split <;> [rfl; (split <;> rfl)]
@[simp] theorem driveClk_cmdr (b : Bool) (s : State) : (driveClk b s).cmdr = s.cmdr := by
  unfold driveClk; split <;> [rfl; (split <;> rfl)]
@[simp] theorem driveClk_wdr (b : Bool) (s : State) : (driveClk b s).wdr = s.wdr := by
  unfold driveClk; split <;> [rfl; (split <;> rfl)]
@[simp] theorem driveClk_rxr (b : Bool) (s : State) : (driveClk b s).rxr = s.rxr := by
  unfold driveClk; split <;> [rfl; (split <;> rfl)]
@[simp] theorem driveClk_rdata (b : Bool) (s : State) : (driveClk b s).rdata = s.rdata := by
  unfold driveClk; split <;> [rfl; (split <;> rfl)]
@[simp] theorem driveClk_rvalid (b : Bool) (s : State) : (driveClk b s).rvalid = s.rvalid := by
  unfold driveClk; split <;> [rfl; (split <;> rfl)]
@[simp] theorem driveClk_err (b : Bool) (s : State) : (driveClk b s).err = s.err := by
  unfold driveClk; split <;> [rfl; (split <;> rfl)]
@[simp] theorem driveClk_inited (b : Bool) (s : State) : (driveClk b s).inited = s.inited := by
  unfold driveClk; split <;> [rfl; (split <;> rfl)]
@[simp] theorem driveClk_host (b : Bool) (s : State) : (driveClk b s).host = s.host := by
  unfold driveClk; split <;> [rfl; (split <;> rfl)]
@[simp] theorem driveClk_edges (b : Bool) (s : State) : (driveClk b s).edges = s.edges := by
  unfold driveClk; split <;> [rfl; (split <;> rfl)]
@[simp] theorem driveClk_draws (b : Bool) (s : State) : (driveClk b s).draws = s.draws := by
  unfold driveClk; split <;> [rfl; (split <;> rfl)]
@[simp] theorem driveClk_agenda (b : Bool) (s : State) : (driveClk b s).agenda = s.agenda := by
  unfold driveClk; split <;> [rfl; (split <;> rfl)]
@[simp] theorem driveClk_probe (b : Bool) (s : State) : (driveClk b s).probe = s.probe := by
  unfold driveClk; split <;> [rfl; (split <;> rfl)]

/-! ## driveRst -/

@[simp] theorem driveRst_cfg (b : Bool) (s : State) : (driveRst b s).cfg = s.cfg := by
  unfold driveRst; split <;> [rfl; (split <;> rfl)]
@[simp] theorem driveRst_clkO (b : Bool) (s : State) : (driveRst b s).clkO = s.clkO := by
  unfold driveRst; split <;> [rfl; (split <;> rfl)]
@[simp] theorem driveRst_rstO (b : Bool) (s : State) : (driveRst b s).rstO = b := by
  unfold driveRst; split <;> [rfl; (split <;> rfl)]
@[simp] theorem driveRst_ioO (b : Bool) (s : State) : (driveRst b s).ioO = s.ioO := by
  unfold driveRst; split <;> [rfl; (split <;> rfl)]
@[simp] theorem driveRst_ioOE (b : Bool) (s : State) : (driveRst b s).ioOE = s.ioOE := by
  unfold driveRst; split <;> [rfl; (split <;> rfl)]
@[simp] theorem driveRst_ph (b : Bool) (s : State) : (driveRst b s).ph = s.ph := by
  unfold driveRst; split <;> [rfl; (split <;> rfl)]
@[simp] theorem driveRst_t (b : Bool) (s : State) : (driveRst b s).t = s.t := by
  unfold driveRst; split <;> [rfl; (split <;> rfl)]
@[simp] theorem driveRst_k (b : Bool) (s : State) : (driveRst b s).k = s.k := by
  unfold driveRst; split <;> [rfl; (split <;> rfl)]
@[simp] theorem driveRst_sel (b : Bool) (s : State) : (driveRst b s).sel = s.sel := by
  unfold driveRst; split <;> [rfl; (split <;> rfl)]
@[simp] theorem driveRst_cmdr (b : Bool) (s : State) : (driveRst b s).cmdr = s.cmdr := by
  unfold driveRst; split <;> [rfl; (split <;> rfl)]
@[simp] theorem driveRst_wdr (b : Bool) (s : State) : (driveRst b s).wdr = s.wdr := by
  unfold driveRst; split <;> [rfl; (split <;> rfl)]
@[simp] theorem driveRst_rxr (b : Bool) (s : State) : (driveRst b s).rxr = s.rxr := by
  unfold driveRst; split <;> [rfl; (split <;> rfl)]
@[simp] theorem driveRst_rdata (b : Bool) (s : State) : (driveRst b s).rdata = s.rdata := by
  unfold driveRst; split <;> [rfl; (split <;> rfl)]
@[simp] theorem driveRst_rvalid (b : Bool) (s : State) : (driveRst b s).rvalid = s.rvalid := by
  unfold driveRst; split <;> [rfl; (split <;> rfl)]
@[simp] theorem driveRst_err (b : Bool) (s : State) : (driveRst b s).err = s.err := by
  unfold driveRst; split <;> [rfl; (split <;> rfl)]
@[simp] theorem driveRst_inited (b : Bool) (s : State) : (driveRst b s).inited = s.inited := by
  unfold driveRst; split <;> [rfl; (split <;> rfl)]
@[simp] theorem driveRst_host (b : Bool) (s : State) : (driveRst b s).host = s.host := by
  unfold driveRst; split <;> [rfl; (split <;> rfl)]
@[simp] theorem driveRst_edges (b : Bool) (s : State) : (driveRst b s).edges = s.edges := by
  unfold driveRst; split <;> [rfl; (split <;> rfl)]
@[simp] theorem driveRst_draws (b : Bool) (s : State) : (driveRst b s).draws = s.draws := by
  unfold driveRst; split <;> [rfl; (split <;> rfl)]
@[simp] theorem driveRst_agenda (b : Bool) (s : State) : (driveRst b s).agenda = s.agenda := by
  unfold driveRst; split <;> [rfl; (split <;> rfl)]
@[simp] theorem driveRst_probe (b : Bool) (s : State) : (driveRst b s).probe = s.probe := by
  unfold driveRst; split <;> [rfl; (split <;> rfl)]

/-! ## The passing of time -/

@[simp] theorem elapse_cfg (n : Nat) (s : State) : (elapse n s).cfg = s.cfg := by
  induction n generalizing s with
  | zero => rfl
  | succ n ih => exact ih (advance s)
@[simp] theorem elapse_clkO (n : Nat) (s : State) : (elapse n s).clkO = s.clkO := by
  induction n generalizing s with
  | zero => rfl
  | succ n ih => exact ih (advance s)
@[simp] theorem elapse_rstO (n : Nat) (s : State) : (elapse n s).rstO = s.rstO := by
  induction n generalizing s with
  | zero => rfl
  | succ n ih => exact ih (advance s)
@[simp] theorem elapse_ioO (n : Nat) (s : State) : (elapse n s).ioO = s.ioO := by
  induction n generalizing s with
  | zero => rfl
  | succ n ih => exact ih (advance s)
@[simp] theorem elapse_ioOE (n : Nat) (s : State) : (elapse n s).ioOE = s.ioOE := by
  induction n generalizing s with
  | zero => rfl
  | succ n ih => exact ih (advance s)
@[simp] theorem elapse_ph (n : Nat) (s : State) : (elapse n s).ph = s.ph := by
  induction n generalizing s with
  | zero => rfl
  | succ n ih => exact ih (advance s)
@[simp] theorem elapse_t (n : Nat) (s : State) : (elapse n s).t = s.t := by
  induction n generalizing s with
  | zero => rfl
  | succ n ih => exact ih (advance s)
@[simp] theorem elapse_k (n : Nat) (s : State) : (elapse n s).k = s.k := by
  induction n generalizing s with
  | zero => rfl
  | succ n ih => exact ih (advance s)
@[simp] theorem elapse_sel (n : Nat) (s : State) : (elapse n s).sel = s.sel := by
  induction n generalizing s with
  | zero => rfl
  | succ n ih => exact ih (advance s)
@[simp] theorem elapse_cmdr (n : Nat) (s : State) : (elapse n s).cmdr = s.cmdr := by
  induction n generalizing s with
  | zero => rfl
  | succ n ih => exact ih (advance s)
@[simp] theorem elapse_wdr (n : Nat) (s : State) : (elapse n s).wdr = s.wdr := by
  induction n generalizing s with
  | zero => rfl
  | succ n ih => exact ih (advance s)
@[simp] theorem elapse_rxr (n : Nat) (s : State) : (elapse n s).rxr = s.rxr := by
  induction n generalizing s with
  | zero => rfl
  | succ n ih => exact ih (advance s)
@[simp] theorem elapse_rdata (n : Nat) (s : State) : (elapse n s).rdata = s.rdata := by
  induction n generalizing s with
  | zero => rfl
  | succ n ih => exact ih (advance s)
@[simp] theorem elapse_rvalid (n : Nat) (s : State) : (elapse n s).rvalid = s.rvalid := by
  induction n generalizing s with
  | zero => rfl
  | succ n ih => exact ih (advance s)
@[simp] theorem elapse_err (n : Nat) (s : State) : (elapse n s).err = s.err := by
  induction n generalizing s with
  | zero => rfl
  | succ n ih => exact ih (advance s)
@[simp] theorem elapse_inited (n : Nat) (s : State) : (elapse n s).inited = s.inited := by
  induction n generalizing s with
  | zero => rfl
  | succ n ih => exact ih (advance s)
@[simp] theorem elapse_host (n : Nat) (s : State) : (elapse n s).host = s.host := by
  induction n generalizing s with
  | zero => rfl
  | succ n ih => exact ih (advance s)
@[simp] theorem elapse_agenda (n : Nat) (s : State) : (elapse n s).agenda = s.agenda := by
  induction n generalizing s with
  | zero => rfl
  | succ n ih => exact ih (advance s)
@[simp] theorem elapse_probe (n : Nat) (s : State) : (elapse n s).probe = s.probe := by
  induction n generalizing s with
  | zero => rfl
  | succ n ih => exact ih (advance s)

@[simp] theorem elapse_edges (n : Nat) (s : State) : (elapse n s).edges = s.edges + n := by
  induction n generalizing s with
  | zero => rfl
  | succ n ih => rw [elapse, ih, advance_edges]; omega

@[simp] theorem elapse_draws (n : Nat) (s : State) : (elapse n s).draws = s.draws + n := by
  induction n generalizing s with
  | zero => rfl
  | succ n ih => rw [elapse, ih, advance_draws]; omega

@[simp] theorem waitFor_cfg (n : Nat) (s : State) : (waitFor n s).cfg = s.cfg := elapse_cfg n _
@[simp] theorem waitFor_clkO (n : Nat) (s : State) : (waitFor n s).clkO = s.clkO := elapse_clkO n _
@[simp] theorem waitFor_rstO (n : Nat) (s : State) : (waitFor n s).rstO = s.rstO := elapse_rstO n _
@[simp] theorem waitFor_ioO (n : Nat) (s : State) : (waitFor n s).ioO = s.ioO := elapse_ioO n _
@[simp] theorem waitFor_ioOE (n : Nat) (s : State) : (waitFor n s).ioOE = s.ioOE := elapse_ioOE n _
@[simp] theorem waitFor_ph (n : Nat) (s : State) : (waitFor n s).ph = s.ph := elapse_ph n _
@[simp] theorem waitFor_t (n : Nat) (s : State) : (waitFor n s).t = 1 := elapse_t n _
@[simp] theorem waitFor_k (n : Nat) (s : State) : (waitFor n s).k = s.k := elapse_k n _
@[simp] theorem waitFor_sel (n : Nat) (s : State) : (waitFor n s).sel = s.sel := elapse_sel n _
@[simp] theorem waitFor_cmdr (n : Nat) (s : State) : (waitFor n s).cmdr = s.cmdr := elapse_cmdr n _
@[simp] theorem waitFor_wdr (n : Nat) (s : State) : (waitFor n s).wdr = s.wdr := elapse_wdr n _
@[simp] theorem waitFor_rxr (n : Nat) (s : State) : (waitFor n s).rxr = s.rxr := elapse_rxr n _
@[simp] theorem waitFor_rdata (n : Nat) (s : State) : (waitFor n s).rdata = s.rdata := elapse_rdata n _
@[simp] theorem waitFor_rvalid (n : Nat) (s : State) : (waitFor n s).rvalid = s.rvalid := elapse_rvalid n _
@[simp] theorem waitFor_err (n : Nat) (s : State) : (waitFor n s).err = s.err := elapse_err n _
@[simp] theorem waitFor_inited (n : Nat) (s : State) : (waitFor n s).inited = s.inited := elapse_inited n _
@[simp] theorem waitFor_host (n : Nat) (s : State) : (waitFor n s).host = s.host := elapse_host n _
@[simp] theorem waitFor_agenda (n : Nat) (s : State) : (waitFor n s).agenda = s.agenda := elapse_agenda n _
@[simp] theorem waitFor_probe (n : Nat) (s : State) : (waitFor n s).probe = s.probe := elapse_probe n _

@[simp] theorem waitFor_edges (n : Nat) (s : State) : (waitFor n s).edges = s.edges + n := elapse_edges n _

@[simp] theorem waitFor_draws (n : Nat) (s : State) : (waitFor n s).draws = s.draws + n := elapse_draws n _

/-! ## Acceptance -/

@[simp] theorem accept_cfg (sp : Space) (a : Addr) (d : Dir) (w : Byte) (s : State) :
    (accept sp a d w s).cfg = s.cfg := by simp [accept]
@[simp] theorem accept_clkO (sp : Space) (a : Addr) (d : Dir) (w : Byte) (s : State) :
    (accept sp a d w s).clkO = s.clkO := by simp [accept]
@[simp] theorem accept_rstO (sp : Space) (a : Addr) (d : Dir) (w : Byte) (s : State) :
    (accept sp a d w s).rstO = true := by simp [accept]
@[simp] theorem accept_ioO (sp : Space) (a : Addr) (d : Dir) (w : Byte) (s : State) :
    (accept sp a d w s).ioO = s.ioO := by simp [accept]
@[simp] theorem accept_ioOE (sp : Space) (a : Addr) (d : Dir) (w : Byte) (s : State) :
    (accept sp a d w s).ioOE = s.ioOE := by simp [accept]
@[simp] theorem accept_ph (sp : Space) (a : Addr) (d : Dir) (w : Byte) (s : State) :
    (accept sp a d w s).ph = .setup := by simp [accept]
@[simp] theorem accept_t (sp : Space) (a : Addr) (d : Dir) (w : Byte) (s : State) :
    (accept sp a d w s).t = nCC s.cfg := by simp [accept]
@[simp] theorem accept_k (sp : Space) (a : Addr) (d : Dir) (w : Byte) (s : State) :
    (accept sp a d w s).k = 0#4 := by simp [accept]
@[simp] theorem accept_sel (sp : Space) (a : Addr) (d : Dir) (w : Byte) (s : State) :
    (accept sp a d w s).sel = .cmd := by simp [accept]
@[simp] theorem accept_cmdr (sp : Space) (a : Addr) (d : Dir) (w : Byte) (s : State) :
    (accept sp a d w s).cmdr = cmdGen sp a d := by simp [accept]
@[simp] theorem accept_wdr (sp : Space) (a : Addr) (d : Dir) (w : Byte) (s : State) :
    (accept sp a d w s).wdr = w := by simp [accept]
@[simp] theorem accept_rxr (sp : Space) (a : Addr) (d : Dir) (w : Byte) (s : State) :
    (accept sp a d w s).rxr = 0x00#8 := by simp [accept]
@[simp] theorem accept_rdata (sp : Space) (a : Addr) (d : Dir) (w : Byte) (s : State) :
    (accept sp a d w s).rdata = s.rdata := by simp [accept]
@[simp] theorem accept_rvalid (sp : Space) (a : Addr) (d : Dir) (w : Byte) (s : State) :
    (accept sp a d w s).rvalid = false := by simp [accept]
@[simp] theorem accept_err (sp : Space) (a : Addr) (d : Dir) (w : Byte) (s : State) :
    (accept sp a d w s).err = s.err := by simp [accept]
@[simp] theorem accept_inited (sp : Space) (a : Addr) (d : Dir) (w : Byte) (s : State) :
    (accept sp a d w s).inited = s.inited := by simp [accept]
@[simp] theorem accept_host (sp : Space) (a : Addr) (d : Dir) (w : Byte) (s : State) :
    (accept sp a d w s).host = s.host := by simp [accept]
@[simp] theorem accept_edges (sp : Space) (a : Addr) (d : Dir) (w : Byte) (s : State) :
    (accept sp a d w s).edges = s.edges := by simp [accept]
@[simp] theorem accept_draws (sp : Space) (a : Addr) (d : Dir) (w : Byte) (s : State) :
    (accept sp a d w s).draws = s.draws := by simp [accept]
@[simp] theorem accept_agenda (sp : Space) (a : Addr) (d : Dir) (w : Byte) (s : State) :
    (accept sp a d w s).agenda = s.agenda := by simp [accept]
@[simp] theorem accept_probe (sp : Space) (a : Addr) (d : Dir) (w : Byte) (s : State) :
    (accept sp a d w s).probe = s.probe := by simp [accept]

/-- A state with the same block, host and counters is known by its device alone: two states that agree on every field are
equal. -/
theorem State.ext_fields {s t : State}
    (h1 : s.cfg = t.cfg) (h2 : s.clkO = t.clkO) (h3 : s.rstO = t.rstO) (h4 : s.ioO = t.ioO) (h5 : s.ioOE = t.ioOE)
    (h6 : s.ph = t.ph) (h7 : s.t = t.t) (h8 : s.k = t.k) (h9 : s.sel = t.sel) (h10 : s.cmdr = t.cmdr) (h11 : s.wdr = t.wdr)
    (h12 : s.rxr = t.rxr) (h13 : s.rdata = t.rdata) (h14 : s.rvalid = t.rvalid) (h15 : s.err = t.err)
    (h16 : s.inited = t.inited) (h17 : s.dev = t.dev) (h18 : s.host = t.host) (h19 : s.edges = t.edges)
    (h20 : s.draws = t.draws) (h21 : s.agenda = t.agenda) (h22 : s.probe = t.probe) : s = t := by
  cases s; cases t; simp_all

end Sys2Proof.Machine
end

