-- ==== Sys2Proof/Laws/Device.lean ====
section
/-! SUPPORT. The device: what the passing of time leaves alone, and what a bit on the wire does to its progress. -/

namespace Sys2Proof.Machine

/-! ## Bits -/

theorem bitOf_putBit (b : Byte) (i j : Nat) (v : Bool) (hi : i < 8) (hj : j < 8) :
    bitOf (putBit b i v) j = if j = i then v else bitOf b j := by
  unfold bitOf putBit
  cases v <;> simp [BitVec.getLsbD_and, BitVec.getLsbD_or, BitVec.getLsbD_shiftLeft] <;>
    interval_cases i <;> interval_cases j <;> simp [BitVec.getLsbD, Nat.testBit]

/-- The byte whose bits `0..k-1` have been taken from `b`, least significant first (20_memory R41). -/
def assemble (b : Byte) : Nat → Byte
  | 0 => 0x00#8
  | k + 1 => putBit (assemble b k) k (bitOf b k)

/-- Eight bits give the byte back. -/
theorem assemble_eight (b : Byte) : assemble b 8 = b := by
  revert b; decide +kernel

theorem assemble_cmdMarker (b : Byte) : cmdMarker (assemble b 8) = cmdMarker b := by
  rw [assemble_eight]

/-! ## The bits received so far -/

theorem sentSoFar_iff {got sent : Byte} {n : Nat} :
    sentSoFar got sent n = true ↔ ∀ j, j < 8 → j < n → bitOf got j = bitOf sent j := by
  simp only [sentSoFar, List.all_eq_true, List.mem_range, Bool.or_eq_true, decide_eq_true_eq, beq_iff_eq]
  constructor
  · intro h j h8 hn; rcases h j h8 with h | h
    · omega
    · exact h
  · intro h j h8
    by_cases hn : n ≤ j
    · exact .inl hn
    · exact .inr (h j h8 (by omega))

theorem sentSoFar_zero (got sent : Byte) : sentSoFar got sent 0 = true :=
  sentSoFar_iff.mpr (fun _ _ h => absurd h (Nat.not_lt_zero _))

theorem sentSoFar_putBit {got sent : Byte} {n : Nat} (hn : n < 8) (h : sentSoFar got sent n = true) :
    sentSoFar (putBit got n (bitOf sent n)) sent (n + 1) = true := by
  rw [sentSoFar_iff] at h ⊢
  intro j h8 hj
  rw [bitOf_putBit _ _ _ _ hn h8]
  split
  · next e => rw [e]
  · exact h j h8 (by omega)

theorem sentSoFar_eight {got sent : Byte} {n : Nat} (hn : 8 ≤ n) (h : sentSoFar got sent n = true) : got = sent := by
  rw [sentSoFar_iff] at h
  apply BitVec.eq_of_getLsbD_eq
  intro i hi
  exact h i hi (by omega)

theorem sentSoFar_mono {got sent : Byte} {n m : Nat} (hn : n ≤ m) (h : sentSoFar got sent m = true) :
    sentSoFar got sent n = true := by
  rw [sentSoFar_iff] at h ⊢
  exact fun j h8 hj => h j h8 (by omega)

/-! ## The index after a read -/

theorem heldIndex_le (n : Nat) : (heldIndex n).toNat ≤ 7 := by
  simp only [heldIndex, BitVec.toNat_ofNat]; omega

/-! ## What the device holds -/

theorem SameStore.refl (d : Device) : SameStore d d := ⟨rfl, rfl, rfl, fun _ => rfl⟩

theorem SameStore.trans {d e f : Device} (h : SameStore d e) (g : SameStore e f) : SameStore d f :=
  ⟨g.ram.trans h.ram, g.undoc.trans h.undoc, g.ch.trans h.ch,
    fun hd => (g.clk (h.ch.trans hd)).trans (h.clk hd)⟩

/-- A change of DEVSEQ alone changes no contents. -/
theorem SameStore.of_seq (d : Device) (q : DevSeq) : SameStore d { d with seq := q } :=
  ⟨rfl, rfl, rfl, fun _ => rfl⟩

theorem halted_tick (n : Nat) (c : ClkRegs) : halted (tick n c) = halted c := by
  unfold tick
  by_cases h : halted c = true
  · rw [if_pos h]
  · rw [if_neg h, Bool.eq_false_of_not_eq_true h]
    exact bitOf_putBit (drawnClk .tick n).seconds 7 7 false (by omega) (by omega)

theorem tick_halted {n : Nat} {c : ClkRegs} (h : halted c = true) : tick n c = c := by
  rw [tick, if_pos h]

/-- A system-clock period changes no contents but, while running, the clock registers other than CH. -/
theorem devPass_sameStore (n : Nat) (d : Device) : SameStore d (devPass n d) :=
  ⟨rfl, rfl, halted_tick n d.clk, fun h => tick_halted h⟩

/-- `n` system-clock periods at the device, the first at drawing `k`. -/
def devElapse : Nat → Nat → Device → Device
  | 0, _, d => d
  | n + 1, k, d => devElapse n (k + 1) (devPass k d)

theorem devElapse_sameStore (n k : Nat) (d : Device) : SameStore d (devElapse n k d) := by
  induction n generalizing k d with
  | zero => exact .refl d
  | succ n ih => exact (devPass_sameStore k d).trans (ih (k + 1) (devPass k d))

/-- In an open frame the time since the last fall grows, and nothing else of DEVSEQ changes. -/
theorem devElapse_seq_open (n k : Nat) (d : Device) (h : d.seq.inFrame = true) :
    (devElapse n k d).seq = { d.seq with sinceFall := d.seq.sinceFall + n } := by
  induction n generalizing k d with
  | zero => rfl
  | succ n ih =>
    have e : (devPass k d).seq = { d.seq with sinceFall := d.seq.sinceFall + 1 } := by simp [devPass, h]
    rw [devElapse, ih (k + 1) (devPass k d) (by rw [e]; exact h), e]
    simp [Nat.add_comm, Nat.add_left_comm]

/-- With no frame open, DEVSEQ stands still. -/
theorem devElapse_seq_closed (n k : Nat) (d : Device) (h : d.seq.inFrame = false) :
    (devElapse n k d).seq = d.seq := by
  induction n generalizing k d with
  | zero => rfl
  | succ n ih =>
    have e : (devPass k d).seq = d.seq := by simp [devPass, h]
    rw [devElapse, ih (k + 1) (devPass k d) (by rw [e]; exact h), e]

theorem elapse_dev (n : Nat) (s : State) : (elapse n s).dev = devElapse n s.draws s.dev := by
  induction n generalizing s with
  | zero => rfl
  | succ n ih => rw [elapse, ih]; rfl

@[simp] theorem waitFor_dev (n : Nat) (s : State) : (waitFor n s).dev = devElapse n s.draws s.dev :=
  elapse_dev n _

/-! ## The lines, seen from the device -/

theorem driveClk_rise_dev {s : State} (hr : s.rstO = true) (hc : s.clkO = false) :
    (driveClk true s).dev = devRise s.cfg s.draws (ioLevel s) s.dev := by
  simp [driveClk, hr, hc]

theorem driveClk_fall_dev {s : State} (hr : s.rstO = true) (hc : s.clkO = true) :
    (driveClk false s).dev = devFall s.cfg s.draws s.dev := by
  simp [driveClk, hr, hc]

/-- Outside a frame the device does not see CLK (20_memory R53). -/
theorem driveClk_outside_dev {s : State} (b : Bool) (hr : s.rstO = false) : (driveClk b s).dev = s.dev := by
  simp [driveClk, hr]

/-- A level CLK already has is no edge. -/
theorem driveClk_same_dev {s : State} (b : Bool) (hc : s.clkO = b) : (driveClk b s).dev = s.dev := by
  cases b <;> simp [driveClk, hc]

theorem driveRst_rise_dev {s : State} (hr : s.rstO = false) : (driveRst true s).dev = devOpen s.dev := by
  simp [driveRst, hr]

theorem driveRst_fall_dev {s : State} (hr : s.rstO = true) :
    (driveRst false s).dev = devClose s.cfg s.draws s.dev := by
  simp [driveRst, hr]

theorem driveRst_same_dev {s : State} (b : Bool) (hr : s.rstO = b) : (driveRst b s).dev = s.dev := by
  cases b <;> simp [driveRst, hr]

theorem accept_dev {s : State} (sp : Space) (a : Addr) (d : Dir) (w : Byte) (hr : s.rstO = false) :
    (accept sp a d w s).dev = devOpen s.dev := by
  unfold accept
  rw [driveRst_rise_dev (by simpa using hr)]
  rfl

/-! ## Reset and power -/

@[simp] theorem drawRegisters_clk (s : State) : (drawRegisters s).dev.clk = s.dev.clk := rfl
@[simp] theorem drawRegisters_ram (s : State) : (drawRegisters s).dev.ram = s.dev.ram := rfl
@[simp] theorem drawRegisters_undoc (s : State) : (drawRegisters s).dev.undoc = s.dev.undoc := rfl
@[simp] theorem drawRegisters_inited (s : State) : (drawRegisters s).inited = false := rfl

theorem cutShort_inited {s : State} (h : s.inited = true) : cutShort s = s.ph.active := by simp [cutShort, h]

theorem cutShort_unreset {s : State} (h : s.inited = false) : cutShort s = s.rstO := by simp [cutShort, h]

/-- A reset that cuts no frame short leaves the device its contents (70_reset R141). -/
theorem applyReset_keeps {s : State} (hr : s.rstO = false) (h : cutShort s = false) :
    SameStore s.dev (applyReset s).dev := by
  simp only [applyReset, h, driveRst_same_dev false hr]
  exact .of_seq _ _

/-- Before the first reset the device keeps its contents while RST is low. -/
theorem unspecified_keeps {s : State} (hr : s.rstO = false) : SameStore s.dev (unspecified s).dev := by
  simp only [unspecified, hr]
  exact ⟨rfl, rfl, rfl, fun _ => rfl⟩

/-- With backup power and no frame cut short, the RAM survives a loss of main power (70_reset R141). -/
theorem powerUp_ram {s : State} (h : cutShort s = false) : (powerUp true s).dev.ram = s.dev.ram := by
  simp [powerUp, powerLoss, h]

/-- Without backup power it does not (10_state R31). -/
theorem powerUp_ram_lost (s : State) : (powerUp false s).dev.ram = (havoc s.draws s.dev).ram := by
  simp [powerUp, powerLoss]

@[simp] theorem powerUp_inited (b : Bool) (s : State) : (powerUp b s).inited = false := rfl
@[simp] theorem powerUp_agenda (b : Bool) (s : State) : (powerUp b s).agenda = s.agenda := rfl
@[simp] theorem powerUp_cfg (b : Bool) (s : State) : (powerUp b s).cfg = s.cfg := rfl
@[simp] theorem powerUp_host (b : Bool) (s : State) : (powerUp b s).host = s.host := rfl

/-! ## A bit of the command byte -/

theorem devRise_command {c : Config} {n : Nat} {lvl : Bool} {d : Device} (h : d.seq.rises < 7) :
    devRise c n lvl d
      = { d with seq := { d.seq with cmd := putBit d.seq.cmd d.seq.rises lvl, rises := d.seq.rises + 1 } } := by
  have h8 : d.seq.rises < 8 := by omega
  have h7 : ¬ d.seq.rises = 7 := by omega
  simp [devRise, h8, h7]

theorem devRise_command_last {c : Config} {n : Nat} {lvl : Bool} {d : Device} (h : d.seq.rises = 7)
    (hm : cmdMarker (putBit d.seq.cmd 7 lvl) = true) :
    devRise c n lvl d = { d with seq := { d.seq with cmd := putBit d.seq.cmd 7 lvl, rises := 8 } } := by
  simp [devRise, h, hm]

theorem devFall_plain {c : Config} {n : Nat} {d : Device}
    (h : d.seq.falls = 7 → cmdMarker d.seq.cmd = true → isRead d.seq.cmd = true → False) :
    devFall c n d = { d with seq := { d.seq with falls := d.seq.falls + 1, sinceFall := 0 } } := by
  by_cases h7 : d.seq.falls = 7
  · cases hm : cmdMarker d.seq.cmd
    · simp [devFall, hm]
    · cases hr : isRead d.seq.cmd
      · simp [devFall, hr]
      · exact (h h7 hm hr).elim
  · simp [devFall, h7]

theorem devFall_read {c : Config} {n : Nat} {d : Device} (h : d.seq.falls = 7) (hm : cmdMarker d.seq.cmd = true)
    (hr : isRead d.seq.cmd = true) :
    devFall c n d = devDrive c n (cmdSpace d.seq.cmd) (cmdAddr d.seq.cmd)
      { d with seq := { d.seq with falls := 8, sinceFall := 0 } } := by
  simp [devFall, h, hm, hr]

/-! ## A bit of the data byte -/

theorem devRise_data {c : Config} {n : Nat} {lvl : Bool} {d : Device} (h : 8 ≤ d.seq.rises) (h' : d.seq.rises < 15)
    (hm : cmdMarker d.seq.cmd = true) (hr : isRead d.seq.cmd = false) :
    devRise c n lvl d
      = { d with seq := { d.seq with din := putBit d.seq.din (d.seq.rises - 8) lvl, rises := d.seq.rises + 1 } } := by
  have h8 : ¬ d.seq.rises < 8 := by omega
  have h16 : d.seq.rises < 16 := by omega
  have h15 : ¬ d.seq.rises = 15 := by omega
  simp [devRise, h8, h16, h15, hm, hr]

theorem devRise_data_last {c : Config} {n : Nat} {lvl : Bool} {d : Device} (h : d.seq.rises = 15)
    (hm : cmdMarker d.seq.cmd = true) (hr : isRead d.seq.cmd = false) :
    devRise c n lvl d = devCommit c n (cmdSpace d.seq.cmd) (cmdAddr d.seq.cmd) (putBit d.seq.din 7 lvl)
      { d with seq := { d.seq with din := putBit d.seq.din 7 lvl, rises := 16 } } := by
  simp [devRise, h, hm, hr]

theorem devRise_read {c : Config} {n : Nat} {lvl : Bool} {d : Device} (h : 8 ≤ d.seq.rises)
    (hr : isRead d.seq.cmd = true) :
    devRise c n lvl d = { d with seq := { d.seq with rises := d.seq.rises + 1 } } := by
  have h8 : ¬ d.seq.rises < 8 := by omega
  simp [devRise, h8, hr]

/-! ## Contents: what the contract functions leave of the device's progress -/

@[simp] theorem havoc_seq (n : Nat) (d : Device) : (havoc n d).seq = d.seq := rfl

@[simp] theorem devWrite_seq (n : Nat) (sp : Space) (a : Addr) (v : Byte) (d : Device) :
    (devWrite n sp a v d).seq = d.seq := by
  unfold devWrite; split
  · rfl
  · split <;> rfl
  · rfl

@[simp] theorem devCommit_seq (c : Config) (n : Nat) (sp : Space) (a : Addr) (v : Byte) (d : Device) :
    (devCommit c n sp a v d).seq = d.seq := by
  unfold devCommit; split
  · simp
  · split <;> simp

/-- The two ways in which a device can be in reach exclude each other. -/
theorem outOfTime_of_inContract {c : Config} (h : inContract c = true) : outOfTime c = false := by
  simp only [inContract, Bool.and_eq_true] at h
  simp [outOfTime, h.2]

theorem inContract_of_outOfTime {c : Config} (h : outOfTime c = true) : inContract c = false := by
  simp only [outOfTime, Bool.and_eq_true, Bool.not_eq_true'] at h
  simp [inContract, h.2]

/-- With no device attached neither holds. -/
theorem absent_of_attached {c : Config} (h : c.attached = false) : inContract c = false ∧ outOfTime c = false := by
  simp [inContract, outOfTime, h]

@[simp] theorem devReadAfter_seq (n : Nat) (sp : Space) (a : Addr) (d : Device) :
    (devReadAfter n sp a d).seq = d.seq := by
  unfold devReadAfter; split <;> rfl

@[simp] theorem devClose_seq (c : Config) (n : Nat) (d : Device) : (devClose c n d).seq = .closed := rfl

theorem devClose_keeps {c : Config} {n : Nat} {d : Device} (h : outOfTime c = false) :
    devClose c n d = { d with seq := .closed } := by
  simp [devClose, h]

/-- Where the contract does not hold, a level the device should drive is free (20_memory R58, 40_transceiver R81). -/
theorem devLevel_free {c : Config} (h : inContract c = false) (n : Nat) (d : Device) :
    devLevel c n d = Config.freeBit .io n := by
  unfold devLevel; split <;> simp [h]

/-! ## With no device attached -/

theorem devRise_absent {c : Config} (h : c.attached = false) (n : Nat) (lvl : Bool) (d : Device) :
    SameStore d (devRise c n lvl d) := by
  unfold devRise devCommit
  simp only [h, (absent_of_attached h).1, (absent_of_attached h).2, Bool.and_false, Bool.false_and]
  split
  · exact .of_seq _ _
  · split
    · split <;> exact .of_seq _ _
    · exact .of_seq _ _

theorem devFall_absent {c : Config} (h : c.attached = false) (n : Nat) (d : Device) : SameStore d (devFall c n d) := by
  unfold devFall devDrive
  simp only [(absent_of_attached h).1, (absent_of_attached h).2]
  split <;> exact .of_seq _ _

/-! ## Canonical form -/

/-- The device's RAM is canonical and lists documented addresses only. -/
def storeOk (d : Device) : Bool :=
  Memory.wf d.ram && memBelow 31 d.ram

theorem storeOk_seq (d : Device) (q : DevSeq) : storeOk { d with seq := q } = storeOk d := rfl

theorem havoc_storeOk (n : Nat) (d : Device) : storeOk (havoc n d) = true := by
  simp [storeOk, havoc, memOf_wf, memOf_below]

theorem locate_ram_lt {sp : Space} {a : Addr} {i : Nat} (h : locate sp a = .ram i) : i < 31 := by
  unfold locate at h
  cases sp with
  | ram =>
    simp only at h
    split at h
    · next hl => cases h; exact hl
    · cases h
  | clk => simp only at h; split at h <;> cases h

theorem devWrite_storeOk {n : Nat} {sp : Space} {a : Addr} {v : Byte} {d : Device} (h : storeOk d = true) :
    storeOk (devWrite n sp a v d) = true := by
  unfold devWrite
  split
  · next i hl =>
    simp only [storeOk, Bool.and_eq_true] at h ⊢
    exact ⟨memWrite_wf h.1 _ _, memWrite_below h.2 _ _ (locate_ram_lt hl)⟩
  · split <;> exact h
  · exact havoc_storeOk n d

theorem devReadAfter_storeOk {n : Nat} {sp : Space} {a : Addr} {d : Device} (h : storeOk d = true) :
    storeOk (devReadAfter n sp a d) = true := by
  unfold devReadAfter; split
  · exact h
  · exact h
  · exact havoc_storeOk n d

theorem devCommit_storeOk {c : Config} {n : Nat} {sp : Space} {a : Addr} {v : Byte} {d : Device} (h : storeOk d = true) :
    storeOk (devCommit c n sp a v d) = true := by
  unfold devCommit; split
  · exact devWrite_storeOk h
  · split
    · exact havoc_storeOk n d
    · exact h

theorem devDrive_storeOk {c : Config} {n : Nat} {sp : Space} {a : Addr} {d : Device} (h : storeOk d = true) :
    storeOk (devDrive c n sp a d) = true := by
  unfold devDrive; split
  · exact (storeOk_seq _ _).trans (devReadAfter_storeOk (n := n) (sp := sp) (a := a) h)
  · split
    · exact (storeOk_seq _ _).trans (havoc_storeOk n d)
    · exact h

theorem devRise_storeOk {c : Config} {n : Nat} {lvl : Bool} {d : Device} (h : storeOk d = true) :
    storeOk (devRise c n lvl d) = true := by
  unfold devRise
  simp only
  split
  · split
    · exact havoc_storeOk _ _
    · exact h
  · split
    · split
      · exact devCommit_storeOk h
      · exact h
    · exact h

theorem devFall_storeOk {c : Config} {n : Nat} {d : Device} (h : storeOk d = true) :
    storeOk (devFall c n d) = true := by
  unfold devFall
  simp only
  split
  · exact devDrive_storeOk h
  · exact h

theorem devPass_storeOk {n : Nat} {d : Device} (h : storeOk d = true) : storeOk (devPass n d) = true := h

theorem devElapse_storeOk {n k : Nat} {d : Device} (h : storeOk d = true) : storeOk (devElapse n k d) = true := by
  simpa [storeOk, (devElapse_sameStore n k d).ram] using h

theorem devClose_storeOk {c : Config} {n : Nat} {d : Device} (h : storeOk d = true) :
    storeOk (devClose c n d) = true := by
  unfold devClose
  simp only
  rw [storeOk_seq]
  split
  · exact havoc_storeOk n d
  · exact h

end Sys2Proof.Machine
end

