-- ==== Sys2Proof/Laws/Timing.lean ====
section
/-! SUPPORT. Cycle counts: never zero, never below the delay they realise (00_scope R9), and the timer can hold them. -/

namespace Sys2Proof.Machine

theorem cycles_pos (tX tSys : Nat) : 1 ≤ cycles tX tSys := by
  unfold cycles; omega

/-- Rounding up, never down: a count covers its delay. -/
theorem cycles_covers (tX : Nat) {tSys : Nat} (h : 0 < tSys) : tX ≤ cycles tX tSys * tSys := by
  have h1 : (tX + tSys - 1) / tSys ≤ cycles tX tSys := by unfold cycles; omega
  have h2 := Nat.div_add_mod (tX + tSys - 1) tSys
  have h3 := Nat.mod_lt (tX + tSys - 1) h
  have h4 : (tX + tSys - 1) / tSys * tSys ≤ cycles tX tSys * tSys := Nat.mul_le_mul_right _ h1
  rw [Nat.mul_comm tSys] at h2
  omega

theorem nCL_pos (c : Config) : 1 ≤ nCL c := cycles_pos _ _
theorem nCH_pos (c : Config) : 1 ≤ nCH c := cycles_pos _ _
theorem nCDD_pos (c : Config) : 1 ≤ nCDD c := cycles_pos _ _
theorem nCC_pos (c : Config) : 1 ≤ nCC c := cycles_pos _ _
theorem nCCH_pos (c : Config) : 1 ≤ nCCH c := cycles_pos _ _
theorem nCWH_pos (c : Config) : 1 ≤ nCWH c := cycles_pos _ _

theorem nCL_le (c : Config) : nCL c ≤ maxCount c := by unfold maxCount; omega
theorem nCH_le (c : Config) : nCH c ≤ maxCount c := by unfold maxCount; omega
theorem nCDD_le (c : Config) : nCDD c ≤ maxCount c := by unfold maxCount; omega
theorem nCC_le (c : Config) : nCC c ≤ maxCount c := by unfold maxCount; omega
theorem nCCH_le (c : Config) : nCCH c ≤ maxCount c := by unfold maxCount; omega
theorem nCWH_le (c : Config) : nCWH c ≤ maxCount c := by unfold maxCount; omega

/-- A timer of `timerWidth` bits holds every count (00_scope R9). -/
theorem maxCount_lt (c : Config) : maxCount c < 2 ^ timerWidth c :=
  Nat.lt_log2_self

end Sys2Proof.Machine
end

