-- ==== Sys2Proof/Laws/Transceiver.lean ====
section
/-! SUPPORT. What the two transceiver operations can do: their effect on the block in one equation, and on the device in a
frame. -/

namespace Sys2Proof.Machine

/-! ## The device over one bit, one byte -/

/-- The device while the block sends one bit of level `lvl`, from drawing `n`. -/
def devSendBit (c : Config) (n : Nat) (lvl : Bool) (d : Device) : Device :=
  devFall c (n + nCL c + nCH c)
    (devElapse (nCH c) (n + nCL c) (devRise c (n + nCL c) lvl (devElapse (nCL c) n d)))

/-- The device while the block sends bits `0..k-1` of `b`. -/
def devSendBits (c : Config) (n : Nat) (b : Byte) (d : Device) : Nat → Device
  | 0 => d
  | k + 1 => devSendBit c (n + k * bitCycles c) (bitOf b k) (devSendBits c n b d k)

/-- The device while the block receives one bit, from drawing `n`: it is what a device that sees a rise of any level does,
because in a read it takes no level. -/
def devRecvBit (c : Config) (n : Nat) (d : Device) : Device :=
  devFall c (n + nCDD c + nCL c + nCH c)
    (devElapse (nCH c) (n + nCDD c + nCL c)
      (devRise c (n + nCDD c + nCL c)
        (devLevel c (n + nCDD c + nCL c) (devElapse (nCL c) (n + nCDD c) (devElapse (nCDD c) n d)))
        (devElapse (nCL c) (n + nCDD c) (devElapse (nCDD c) n d))))

/-- The device while the block receives bits `0..k-1`. -/
def devRecvBits (c : Config) (n : Nat) (d : Device) : Nat → Device
  | 0 => d
  | k + 1 => devRecvBit c (n + k * (nCDD c + bitCycles c)) (devRecvBits c n d k)

/-- What RXR holds after samples `0..k-1`, from `r`. -/
def samples (c : Config) (n : Nat) (d : Device) (r : Byte) : Nat → Byte
  | 0 => r
  | k + 1 =>
    putBit (samples c n d r k) k
      (devLevel c (n + k * (nCDD c + bitCycles c) + nCDD c)
        (devElapse (nCDD c) (n + k * (nCDD c + bitCycles c)) (devRecvBits c n d k)))

/-! ## The block over one bit, one byte -/

theorem sendBit_eq {b : Byte} {k : Nat} {s : State} (hr : s.rstO = true) (hc : s.clkO = false) (ho : s.ioOE = true) :
    sendBit b k s = { s with
      k := BitVec.ofNat 4 k, ph := .txh, t := 1, ioO := bitOf b k
      edges := s.edges + bitCycles s.cfg, draws := s.draws + bitCycles s.cfg
      dev := devSendBit s.cfg s.draws (bitOf b k) s.dev } := by
  apply State.ext_fields <;> simp [sendBit, bitCycles, Nat.add_assoc, hc]
  rw [driveClk_fall_dev (by simp [hr]) (by simp)]
  simp [devSendBit, driveClk_rise_dev, hr, ho, ioLevel, Nat.add_assoc]

/-- The state after bits `0..k` of `b` have been sent in a frame. -/
def afterSend (b : Byte) (k : Nat) (s : State) : State :=
  { s with
    k := BitVec.ofNat 4 k, ph := .txh, t := 1, ioO := bitOf b k
    edges := s.edges + (k + 1) * bitCycles s.cfg, draws := s.draws + (k + 1) * bitCycles s.cfg
    dev := devSendBits s.cfg s.draws b s.dev (k + 1) }

theorem sendBits_eq {b : Byte} {s : State} (hr : s.rstO = true) (hc : s.clkO = false) (ho : s.ioOE = true) (k : Nat) :
    (List.range (k + 1)).foldl (fun s k => sendBit b k s) s = afterSend b k s := by
  induction k with
  | zero => simpa [List.range_succ, devSendBits, afterSend] using sendBit_eq hr hc ho
  | succ k ih =>
    rw [List.range_succ, List.foldl_append, ih, List.foldl_cons, List.foldl_nil, sendBit_eq (s := afterSend b k s) hr hc ho]
    apply State.ext_fields <;> simp [afterSend, devSendBits] <;> ring

/-- SEND_BYTE in a frame, whole, as the state after bit 7. -/
theorem sendByte_afterSend {b : Byte} {s : State} (hr : s.rstO = true) (hc : s.clkO = false) (ho : s.ioOE = true) :
    sendByte b s = afterSend b 7 s :=
  sendBits_eq hr hc ho 7

/-- SEND_BYTE in a frame, whole (40_transceiver R80). -/
theorem sendByte_eq {b : Byte} {s : State} (hr : s.rstO = true) (hc : s.clkO = false) (ho : s.ioOE = true) :
    sendByte b s = { s with
      k := 7#4, ph := .txh, t := 1, ioO := bitOf b 7
      edges := s.edges + 8 * bitCycles s.cfg, draws := s.draws + 8 * bitCycles s.cfg
      dev := devSendBits s.cfg s.draws b s.dev 8 } :=
  sendBits_eq hr hc ho 7

theorem recvBit_eq {j : Nat} {s : State} (hr : s.rstO = true) (hc : s.clkO = false) (ho : s.ioOE = false) :
    recvBit j s = { s with
      k := BitVec.ofNat 4 j, ph := .rxh, t := 1
      rxr := putBit s.rxr j (devLevel s.cfg (s.draws + nCDD s.cfg) (devElapse (nCDD s.cfg) s.draws s.dev))
      edges := s.edges + (nCDD s.cfg + bitCycles s.cfg), draws := s.draws + (nCDD s.cfg + bitCycles s.cfg)
      dev := devRecvBit s.cfg s.draws s.dev } := by
  apply State.ext_fields <;> simp [recvBit, bitCycles, Nat.add_assoc, hc, ho, ioLevel]
  rw [driveClk_fall_dev (by simp [hr]) (by simp)]
  simp [devRecvBit, driveClk_rise_dev, hr, ioLevel, Nat.add_assoc]

/-- The state after bits `0..k` have been received in a frame. -/
def afterRecv (k : Nat) (s : State) : State :=
  { s with
    k := BitVec.ofNat 4 k, ph := .rxh, t := 1
    rxr := samples s.cfg s.draws s.dev s.rxr (k + 1)
    edges := s.edges + (k + 1) * (nCDD s.cfg + bitCycles s.cfg)
    draws := s.draws + (k + 1) * (nCDD s.cfg + bitCycles s.cfg)
    dev := devRecvBits s.cfg s.draws s.dev (k + 1) }

theorem recvBits_eq {s : State} (hr : s.rstO = true) (hc : s.clkO = false) (ho : s.ioOE = false) (k : Nat) :
    (List.range (k + 1)).foldl (fun s j => recvBit j s) s = afterRecv k s := by
  induction k with
  | zero => simpa [List.range_succ, devRecvBits, samples, afterRecv] using recvBit_eq hr hc ho
  | succ k ih =>
    rw [List.range_succ, List.foldl_append, ih, List.foldl_cons, List.foldl_nil, recvBit_eq (s := afterRecv k s) hr hc ho]
    apply State.ext_fields <;> simp [afterRecv, devRecvBits, samples] <;> ring

/-- The state after RECV_BYTE in a frame. -/
def received (s : State) : State :=
  { s with
    k := 8#4, ph := .rxd, t := 1
    rxr := samples s.cfg s.draws s.dev 0x00#8 8
    edges := s.edges + (9 * nCDD s.cfg + 8 * bitCycles s.cfg)
    draws := s.draws + (9 * nCDD s.cfg + 8 * bitCycles s.cfg)
    dev := devElapse (nCDD s.cfg) (s.draws + 8 * (nCDD s.cfg + bitCycles s.cfg))
      (devRecvBits s.cfg s.draws s.dev 8) }

/-- RECV_BYTE in a frame, whole (40_transceiver R81). -/
theorem recvByte_eq {s : State} (hr : s.rstO = true) (hc : s.clkO = false) (ho : s.ioOE = false) :
    recvByte s = received s := by
  have e := recvBits_eq (s := { s with rxr := 0x00#8 }) hr hc ho 7
  change (List.foldl (fun s j => recvBit j s) { s with rxr := 0x00#8 } [0, 1, 2, 3, 4, 5, 6, 7]) = _ at e
  rw [recvByte]
  simp only [e]
  apply State.ext_fields <;> simp [afterRecv, received] <;> ring

/-! ## The command byte reaches the device -/

/-- The device in a frame holds bits `0..k-1` of the command byte `b` and nothing else has happened to it. -/
structure Commanded (b : Byte) (k : Nat) (d0 d : Device) : Prop where
  inFrame : d.seq.inFrame = true
  rises : d.seq.rises = k
  falls : d.seq.falls = k
  cmd : sentSoFar d.seq.cmd b k = true
  dout : d.seq.dout = none
  store : SameStore d0 d

theorem commanded_open (b : Byte) (d : Device) : Commanded b 0 d (devOpen d) :=
  ⟨rfl, rfl, rfl, sentSoFar_zero _ _, rfl, .of_seq d _⟩

theorem Commanded.elapse {b : Byte} {k : Nat} {d0 d : Device} (h : Commanded b k d0 d) (n m : Nat) :
    Commanded b k d0 (devElapse n m d) := by
  have e := devElapse_seq_open n m d h.inFrame
  exact ⟨by rw [e]; exact h.inFrame, by rw [e]; exact h.rises, by rw [e]; exact h.falls, by rw [e]; exact h.cmd,
    by rw [e]; exact h.dout, h.store.trans (devElapse_sameStore n m d)⟩

theorem Commanded.bit {b : Byte} {k : Nat} {d0 d : Device} (h : Commanded b k d0 d) (hk : k < 7) (c : Config) (n : Nat) :
    Commanded b (k + 1) d0 (devSendBit c n (bitOf b k) d) := by
  have h1 := h.elapse (nCL c) n
  have r : (devElapse (nCL c) n d).seq.rises < 7 := by rw [h1.rises]; exact hk
  unfold devSendBit
  rw [devRise_command r]
  generalize he : devElapse (nCL c) n d = e at h1 r
  have h2 : SameStore d0 { e with seq := { e.seq with cmd := putBit e.seq.cmd e.seq.rises (bitOf b k), rises := e.seq.rises + 1 } } :=
    h1.store.trans (.of_seq _ _)
  have s2 := devElapse_seq_open (nCH c) (n + nCL c)
    { e with seq := { e.seq with cmd := putBit e.seq.cmd e.seq.rises (bitOf b k), rises := e.seq.rises + 1 } } h1.inFrame
  have s3 := h2.trans (devElapse_sameStore (nCH c) (n + nCL c) _)
  generalize devElapse (nCH c) (n + nCL c) _ = f at s2 s3
  rw [devFall_plain (by rw [s2]; intro hf; simp [h1.falls] at hf; omega)]
  exact ⟨by simp [s2, h1.inFrame], by simp [s2, h1.rises], by simp [s2, h1.falls],
    by simpa [s2, h1.rises] using sentSoFar_putBit (by omega) h1.cmd, by simp [s2, h1.dout], s3.trans (.of_seq _ _)⟩

theorem Commanded.bits {b : Byte} {d0 d : Device} (h : Commanded b 0 d0 d) (c : Config) (n k : Nat) (hk : k ≤ 7) :
    Commanded b k d0 (devSendBits c n b d k) := by
  induction k with
  | zero => exact h
  | succ k ih => exact (ih (by omega)).bit (by omega) c _

/-- The device just before the eighth falling edge: it holds the whole command byte. -/
structure Received (b : Byte) (d0 d : Device) : Prop where
  inFrame : d.seq.inFrame = true
  rises : d.seq.rises = 8
  falls : d.seq.falls = 7
  cmd : d.seq.cmd = b
  dout : d.seq.dout = none
  store : SameStore d0 d

theorem Commanded.lastBit {b : Byte} {d0 d : Device} (h : Commanded b 7 d0 d) (hm : cmdMarker b = true) (c : Config)
    (n : Nat) : ∃ e, Received b d0 e ∧ devSendBit c n (bitOf b 7) d = devFall c (n + nCL c + nCH c) e := by
  have h1 := h.elapse (nCL c) n
  unfold devSendBit
  generalize devElapse (nCL c) n d = e at h1
  have ha : putBit e.seq.cmd 7 (bitOf b 7) = b :=
    sentSoFar_eight (Nat.le_refl 8) (sentSoFar_putBit (by omega) h1.cmd)
  rw [devRise_command_last h1.rises (by rw [ha]; exact hm), ha]
  refine ⟨_, ?_, rfl⟩
  have s2 := devElapse_seq_open (nCH c) (n + nCL c) { e with seq := { e.seq with cmd := b, rises := 8 } } h1.inFrame
  have s3 := (h1.store.trans (.of_seq e { e.seq with cmd := b, rises := 8 })).trans (devElapse_sameStore (nCH c) (n + nCL c) _)
  exact ⟨by rw [s2]; exact h1.inFrame, by rw [s2], by rw [s2]; exact h1.falls, by rw [s2],
    by rw [s2]; exact h1.dout, s3⟩

/-! ## The data byte of a write -/

/-- The device holds the command byte `b` and bits `0..k-1` of the data byte `v`. -/
structure Taking (b v : Byte) (k : Nat) (d0 d : Device) : Prop where
  inFrame : d.seq.inFrame = true
  rises : d.seq.rises = 8 + k
  falls : d.seq.falls = 8 + k
  cmd : d.seq.cmd = b
  din : sentSoFar d.seq.din v k = true
  store : SameStore d0 d

theorem Taking.elapse {b v : Byte} {k : Nat} {d0 d : Device} (h : Taking b v k d0 d) (n m : Nat) :
    Taking b v k d0 (devElapse n m d) := by
  have e := devElapse_seq_open n m d h.inFrame
  exact ⟨by rw [e]; exact h.inFrame, by rw [e]; exact h.rises, by rw [e]; exact h.falls, by rw [e]; exact h.cmd,
    by rw [e]; exact h.din, h.store.trans (devElapse_sameStore n m d)⟩

/-- A write's command byte, whole. -/
theorem Commanded.write {b : Byte} {d0 d : Device} (h : Commanded b 0 d0 d) (hm : cmdMarker b = true)
    (hr : isRead b = false) (v : Byte) (c : Config) (n : Nat) : Taking b v 0 d0 (devSendBits c n b d 8) := by
  obtain ⟨e, he, hd⟩ := (h.bits c n 7 (by omega)).lastBit hm c (n + 7 * bitCycles c)
  rw [devSendBits, hd, devFall_plain (by rw [he.cmd, hr]; simp)]
  exact ⟨he.inFrame, he.rises, by simp [he.falls], he.cmd, sentSoFar_zero _ _, he.store.trans (.of_seq _ _)⟩

theorem Taking.bit {b v : Byte} {k : Nat} {d0 d : Device} (h : Taking b v k d0 d) (hk : k < 7) (hm : cmdMarker b = true)
    (hr : isRead b = false) (c : Config) (n : Nat) : Taking b v (k + 1) d0 (devSendBit c n (bitOf v k) d) := by
  have h1 := h.elapse (nCL c) n
  unfold devSendBit
  generalize devElapse (nCL c) n d = e at h1
  rw [devRise_data (by rw [h1.rises]; omega) (by rw [h1.rises]; omega) (by rw [h1.cmd]; exact hm) (by rw [h1.cmd]; exact hr)]
  have h2 := h1.store.trans (.of_seq e { e.seq with din := putBit e.seq.din (e.seq.rises - 8) (bitOf v k), rises := e.seq.rises + 1 })
  have s2 := devElapse_seq_open (nCH c) (n + nCL c)
    { e with seq := { e.seq with din := putBit e.seq.din (e.seq.rises - 8) (bitOf v k), rises := e.seq.rises + 1 } } h1.inFrame
  have s3 := h2.trans (devElapse_sameStore (nCH c) (n + nCL c) _)
  generalize devElapse (nCH c) (n + nCL c) _ = f at s2 s3
  rw [devFall_plain (by rw [s2]; simp [h1.cmd, hr])]
  exact ⟨by simp [s2, h1.inFrame], by simp [s2, h1.rises, Nat.add_assoc], by simp [s2, h1.falls, Nat.add_assoc],
    by simp [s2, h1.cmd], by simpa [s2, h1.rises] using sentSoFar_putBit (by omega) h1.din, s3.trans (.of_seq _ _)⟩

theorem Taking.bits {b v : Byte} {d0 d : Device} (h : Taking b v 0 d0 d) (hm : cmdMarker b = true)
    (hr : isRead b = false) (c : Config) (n k : Nat) (hk : k ≤ 7) : Taking b v k d0 (devSendBits c n v d k) := by
  induction k with
  | zero => exact h
  | succ k ih => exact (ih (by omega)).bit (by omega) hm hr c _

/-- A write's data byte, whole: with the contents the device held just before the sixteenth rising edge it commits the byte
there (20_memory R55), and afterwards only time passes. -/
theorem Taking.commit {b v : Byte} {d0 d : Device} (h : Taking b v 0 d0 d) (hm : cmdMarker b = true)
    (hr : isRead b = false) (c : Config) (n : Nat) :
    ∃ e, SameStore d0 e
      ∧ SameStore (devCommit c (n + 7 * bitCycles c + nCL c) (cmdSpace b) (cmdAddr b) v e) (devSendBits c n v d 8)
      ∧ (devSendBits c n v d 8).seq.inFrame = true := by
  have h7 := h.bits hm hr c n 7 (by omega)
  rw [devSendBits, devSendBit]
  have h1 := h7.elapse (nCL c) (n + 7 * bitCycles c)
  generalize devElapse (nCL c) (n + 7 * bitCycles c) (devSendBits c n v d 7) = e at h1
  have ha : putBit e.seq.din 7 (bitOf v 7) = v :=
    sentSoFar_eight (Nat.le_refl 8) (sentSoFar_putBit (by omega) h1.din)
  rw [devRise_data_last h1.rises (by rw [h1.cmd]; exact hm) (by rw [h1.cmd]; exact hr), ha, h1.cmd]
  refine ⟨_, h1.store.trans (.of_seq e { e.seq with din := v, rises := 16 }), ?_, ?_⟩
  · have s1 := devElapse_sameStore (nCH c) (n + 7 * bitCycles c + nCL c)
      (devCommit c (n + 7 * bitCycles c + nCL c) (cmdSpace b) (cmdAddr b) v { e with seq := { e.seq with din := v, rises := 16 } })
    have s2 := devElapse_seq_open (nCH c) (n + 7 * bitCycles c + nCL c)
      (devCommit c (n + 7 * bitCycles c + nCL c) (cmdSpace b) (cmdAddr b) v { e with seq := { e.seq with din := v, rises := 16 } })
      (by rw [devCommit_seq]; exact h1.inFrame)
    rw [devFall_plain (by rw [s2, devCommit_seq]; simp [h1.cmd, hr])]
    exact s1.trans (.of_seq _ _)
  · have s2 := devElapse_seq_open (nCH c) (n + 7 * bitCycles c + nCL c)
      (devCommit c (n + 7 * bitCycles c + nCL c) (cmdSpace b) (cmdAddr b) v { e with seq := { e.seq with din := v, rises := 16 } })
      (by rw [devCommit_seq]; exact h1.inFrame)
    rw [devFall_plain (by rw [s2, devCommit_seq]; simp [h1.cmd, hr])]
    show (devElapse _ _ _).seq.inFrame = true
    rw [s2, devCommit_seq]
    exact h1.inFrame

/-! ## The data byte of a read -/

/-- The device drives the byte `w` and has seen `j` read pulses. -/
structure Driving (b w : Byte) (j : Nat) (d0 d : Device) : Prop where
  inFrame : d.seq.inFrame = true
  rises : d.seq.rises = 8 + j
  falls : d.seq.falls = 8 + j
  cmd : d.seq.cmd = b
  dout : d.seq.dout = some w
  store : SameStore d0 d

/-- A read's command byte, whole: with the contents the device held just before the eighth falling edge it starts to drive
the addressed byte there (20_memory R56). -/
theorem Commanded.read {b : Byte} {d0 d : Device} (h : Commanded b 0 d0 d) (hm : cmdMarker b = true)
    (hr : isRead b = true) (hp : inContract c = true) (n : Nat) :
    ∃ e, SameStore d0 e
      ∧ Driving b (devReadByte (n + 8 * bitCycles c) (cmdSpace b) (cmdAddr b) e) 0
        (devReadAfter (n + 8 * bitCycles c) (cmdSpace b) (cmdAddr b) e) (devSendBits c n b d 8) := by
  obtain ⟨e, he, hd⟩ := (h.bits c n 7 (by omega)).lastBit hm c (n + 7 * bitCycles c)
  have hn : n + 7 * bitCycles c + nCL c + nCH c = n + 8 * bitCycles c := by unfold bitCycles; ring
  rw [devSendBits, hd, devFall_read he.falls (by rw [he.cmd]; exact hm) (by rw [he.cmd]; exact hr), hn, he.cmd, devDrive,
    if_pos hp]
  refine ⟨_, he.store.trans (.of_seq e { e.seq with falls := 8, sinceFall := 0 }), ?_⟩
  exact ⟨by simp [he.inFrame], by simp [he.rises], by simp, by simp [he.cmd], by simp, .of_seq _ _⟩

theorem Driving.bit {b w : Byte} {j : Nat} {d0 d : Device} (h : Driving b w j d0 d) (hr : isRead b = true)
    (c : Config) (n : Nat) : Driving b w (j + 1) d0 (devRecvBit c n d) := by
  unfold devRecvBit
  have q1 := devElapse_seq_open (nCDD c) n d h.inFrame
  have c1 := h.store.trans (devElapse_sameStore (nCDD c) n d)
  generalize devElapse (nCDD c) n d = e at q1 c1
  have q2 := devElapse_seq_open (nCL c) (n + nCDD c) e (by rw [q1]; exact h.inFrame)
  have c2 := c1.trans (devElapse_sameStore (nCL c) (n + nCDD c) e)
  generalize devElapse (nCL c) (n + nCDD c) e = f at q2 c2
  rw [devRise_read (by rw [q2, q1]; simp [h.rises]) (by rw [q2, q1]; simp [h.cmd, hr])]
  have q3 := devElapse_seq_open (nCH c) (n + nCDD c + nCL c) { f with seq := { f.seq with rises := f.seq.rises + 1 } }
    (by rw [q2, q1]; exact h.inFrame)
  have c3 := (c2.trans (.of_seq f { f.seq with rises := f.seq.rises + 1 })).trans (devElapse_sameStore (nCH c) (n + nCDD c + nCL c) _)
  generalize devElapse (nCH c) (n + nCDD c + nCL c) _ = g at q3 c3
  rw [devFall_plain (by rw [q3, q2, q1]; intro hf; simp [h.falls] at hf; omega)]
  exact ⟨by simp [q3, q2, q1, h.inFrame], by simp [q3, q2, q1, h.rises, Nat.add_assoc],
    by simp [q3, q2, q1, h.falls, Nat.add_assoc], by simp [q3, q2, q1, h.cmd], by simp [q3, q2, q1, h.dout],
    c3.trans (.of_seq _ _)⟩

theorem Driving.bits {b w : Byte} {d0 d : Device} (h : Driving b w 0 d0 d) (hr : isRead b = true) (c : Config)
    (n j : Nat) : Driving b w j d0 (devRecvBits c n d j) := by
  induction j with
  | zero => exact h
  | succ j ih => exact ih.bit hr c _

/-- One sample: N_CDD cycles after the fall the level on IO is the driven bit (20_memory R56). -/
theorem Driving.level {b w : Byte} {j : Nat} {d0 d : Device} (h : Driving b w j d0 d) (hj : j < 8) {c : Config}
    (hp : inContract c = true) (ht : c.tCDD ≤ nCDD c * c.tSys) (n m : Nat) :
    devLevel c m (devElapse (nCDD c) n d) = bitOf w j := by
  have q := devElapse_seq_open (nCDD c) n d h.inFrame
  have hs : c.tCDD ≤ (d.seq.sinceFall + nCDD c) * c.tSys :=
    ht.trans (Nat.mul_le_mul_right _ (Nat.le_add_left _ _))
  simp [devLevel, q, h.dout, h.falls, hp, hs]
  omega

/-- The eight samples of a read give the driven byte. -/
theorem Driving.samples_eq {b w : Byte} {d0 d : Device} (h : Driving b w 0 d0 d) (hr : isRead b = true) {c : Config}
    (hp : inContract c = true) (ht : c.tCDD ≤ nCDD c * c.tSys) (n k : Nat) (hk : k ≤ 8) :
    samples c n d 0x00#8 k = assemble w k := by
  induction k with
  | zero => rfl
  | succ k ih =>
    rw [samples, ih (by omega), assemble, (h.bits hr c n k).level (by omega) hp ht]

/-! ## No device to answer -/

/-- Where the contract does not hold each sample is a free value (20_memory R58, 40_transceiver R81). -/
theorem samples_free {c : Config} (h : inContract c = false) (n : Nat) (d : Device) (r : Byte) (k : Nat) (hk : k ≤ 8)
    (j : Nat) (hj : j < k) : ∃ m, bitOf (samples c n d r k) j = Config.freeBit .io m := by
  induction k with
  | zero => omega
  | succ k ih =>
    rw [samples, bitOf_putBit _ _ _ _ (by omega) (by omega), devLevel_free h]
    split
    · exact ⟨_, rfl⟩
    · exact ih (by omega) (by omega)

/-- With no device attached sending changes no contents. -/
theorem devSendBits_absent {c : Config} (h : c.attached = false) (n : Nat) (b : Byte) (d : Device) (k : Nat) :
    SameStore d (devSendBits c n b d k) := by
  induction k with
  | zero => exact .refl d
  | succ k ih =>
    rw [devSendBits, devSendBit]
    exact (((ih.trans (devElapse_sameStore _ _ _)).trans (devRise_absent h _ _ _)).trans
      (devElapse_sameStore _ _ _)).trans (devFall_absent h _ _)

/-- With no device attached receiving changes no contents. -/
theorem devRecvBits_absent {c : Config} (h : c.attached = false) (n : Nat) (d : Device) (k : Nat) :
    SameStore d (devRecvBits c n d k) := by
  induction k with
  | zero => exact .refl d
  | succ k ih =>
    rw [devRecvBits, devRecvBit]
    exact ((((ih.trans (devElapse_sameStore _ _ _)).trans (devElapse_sameStore _ _ _)).trans
      (devRise_absent h _ _ _)).trans (devElapse_sameStore _ _ _)).trans (devFall_absent h _ _)

end Sys2Proof.Machine
end

