-- ==== Sys2Proof/Laws/Transaction.lean ====
section
/-! SUPPORT. What a whole transaction can do: the block in one equation, and the device through the one moment at which the
transaction touches its contents. -/

namespace Sys2Proof.Machine

/-! ## Command bytes -/

theorem cmdMarker_cmdGen (sp : Space) (a : Addr) (d : Dir) : cmdMarker (cmdGen sp a d) = true := by
  revert a; cases sp <;> cases d <;> decide

theorem isRead_cmdGen (sp : Space) (a : Addr) (d : Dir) : isRead (cmdGen sp a d) = (d == .read) := by
  revert a; cases sp <;> cases d <;> decide

theorem cmdSpace_cmdGen (sp : Space) (a : Addr) (d : Dir) : cmdSpace (cmdGen sp a d) = sp := by
  revert a; cases sp <;> cases d <;> decide

theorem cmdAddr_cmdGen (sp : Space) (a : Addr) (d : Dir) : cmdAddr (cmdGen sp a d) = a := by
  revert a; cases sp <;> cases d <;> decide

theorem bitOf_cmdGen_seven (sp : Space) (a : Addr) (d : Dir) : bitOf (cmdGen sp a d) 7 = true :=
  cmdMarker_cmdGen sp a d

/-! ## The end of a transaction -/

/-- The device from the end of the last byte to the end of the recovery wait, and one edge more. -/
def devFinish (c : Config) (n : Nat) (d : Device) : Device :=
  devPass (n + nCCH c + nCWH c)
    (devElapse (nCWH c) (n + nCCH c) (devClose c (n + nCCH c) (devElapse (nCCH c) n d)))

theorem devFinish_seq (c : Config) (n : Nat) (d : Device) : (devFinish c n d).seq = .closed := by
  have h := devElapse_seq_closed (nCWH c) (n + nCCH c) (devClose c (n + nCCH c) (devElapse (nCCH c) n d)) rfl
  simp [devFinish, devPass, h, DevSeq.closed]

/-- Unless the timing premise fails, only time passes. -/
theorem devFinish_keeps {c : Config} (hp : outOfTime c = false) (n : Nat) (d : Device) :
    SameStore d (devFinish c n d) := by
  have h1 := devElapse_sameStore (nCCH c) n d
  have h2 : SameStore (devElapse (nCCH c) n d) (devClose c (n + nCCH c) (devElapse (nCCH c) n d)) := by
    rw [devClose_keeps hp]; exact .of_seq _ _
  exact ((h1.trans h2).trans (devElapse_sameStore _ _ _)).trans (devPass_sameStore _ _)

/-- Where it fails the contents are free once RST has fallen (20_memory R58). -/
theorem devFinish_untimely {c : Config} (hp : outOfTime c = true) (n : Nat) (d : Device) :
    ∃ e, SameStore (havoc (n + nCCH c) e) (devFinish c n d) := by
  refine ⟨devElapse (nCCH c) n d, ?_⟩
  have h2 : SameStore (havoc (n + nCCH c) (devElapse (nCCH c) n d)) (devClose c (n + nCCH c) (devElapse (nCCH c) n d)) := by
    simp only [devClose, hp]; exact .of_seq _ _
  exact (h2.trans (devElapse_sameStore _ _ _)).trans (devPass_sameStore _ _)

theorem devFinish_storeOk {c : Config} {n : Nat} {d : Device} (h : storeOk d = true) : storeOk (devFinish c n d) = true :=
  devPass_storeOk (devElapse_storeOk (devClose_storeOk (devElapse_storeOk h)))

/-! ## A write -/

/-- The device before the data byte of a transaction: the frame is open and the command byte has been sent. -/
def devCommanded (c : Config) (n : Nat) (b : Byte) (d : Device) : Device :=
  devSendBits c (n + nCC c) b (devElapse (nCC c) n (devOpen d)) 8

/-- The device after a write transaction. -/
def devWritten (c : Config) (n : Nat) (b v : Byte) (d : Device) : Device :=
  devFinish c (n + nCC c + 16 * bitCycles c)
    (devSendBits c (n + nCC c + 8 * bitCycles c) v (devCommanded c n b d) 8)

/-- The block once its request is accepted and the setup wait is over. -/
def begun (sp : Space) (a : Addr) (d : Dir) (w : Byte) (s : State) : State :=
  waitFor (nCC s.cfg) (accept sp a d w s)

theorem begun_lines {sp : Space} {a : Addr} {d : Dir} {w : Byte} {s : State} (h : AtRest s) :
    (begun sp a d w s).rstO = true ∧ (begun sp a d w s).clkO = false ∧ (begun sp a d w s).ioOE = true := by
  obtain ⟨-, -, -, hc, ho⟩ := h
  simp [begun, hc, ho]

theorem writeTransaction_eq {sp : Space} {a : Addr} {v : Byte} {s : State} (h : AtRest s) :
    writeTransaction sp a v s = written sp a v (devWritten s.cfg s.draws (cmdGen sp a .write) v s.dev) s := by
  obtain ⟨h1, h2, h3⟩ := begun_lines (sp := sp) (a := a) (d := .write) (w := v) h
  have e1 := sendByte_afterSend (b := (begun sp a .write v s).cmdr) h1 h2 h3
  have e2 := sendByte_afterSend (b := (afterSend (begun sp a .write v s).cmdr 7 (begun sp a .write v s)).wdr)
    (s := { afterSend (begun sp a .write v s).cmdr 7 (begun sp a .write v s) with sel := .data }) h1 h2 h3
  have e : writeTransaction sp a v s = recoverIdle (driveRst false (waitFor (nCCH s.cfg)
      { afterSend (afterSend (begun sp a .write v s).cmdr 7 (begun sp a .write v s)).wdr 7
          { afterSend (begun sp a .write v s).cmdr 7 (begun sp a .write v s) with sel := .data } with ph := .hold })) := by
    rw [← e2, ← e1]; simp [writeTransaction, begun]
  rw [e]
  obtain ⟨hi, hp, hr, hc, ho⟩ := h
  apply State.ext_fields <;>
    simp [recoverIdle, written, afterSend, begun, hc, ho, hi, writeCycles, Nat.add_assoc]
  case h17 =>
    rw [driveRst_fall_dev (by simp)]
    simp [devWritten, devFinish, devCommanded, accept_dev _ _ _ _ hr]
    refine congrArg₂ devPass (by omega) (congrArg₂ (devElapse _) (by omega) (congrArg₂ (devClose _) (by omega)
      (congrArg₂ (devElapse _) (by omega) ?_)))
    simp only [Nat.add_assoc]
  all_goals omega

/-- Performing a write in IDLE: under the contract the device commits the byte once (20_memory R47, R55), to contents
that have only aged since the request, and afterwards only time passes. -/
theorem devWritten_timely {c : Config} (hp : inContract c = true) (n : Nat) (sp : Space) (a : Addr) (v : Byte) (d : Device) :
    ∃ e, SameStore d e
      ∧ SameStore (devWrite (n + nCC c + 15 * bitCycles c + nCL c) sp a v e) (devWritten c n (cmdGen sp a .write) v d) := by
  have h0 : Commanded (cmdGen sp a .write) 0 d (devElapse (nCC c) n (devOpen d)) := (commanded_open _ d).elapse _ _
  have hm := cmdMarker_cmdGen sp a .write
  have hr : isRead (cmdGen sp a .write) = false := by rw [isRead_cmdGen]; rfl
  have h1 := h0.write hm hr v c (n + nCC c)
  obtain ⟨e, he, hw, -⟩ := h1.commit hm hr c (n + nCC c + 8 * bitCycles c)
  refine ⟨e, he, ?_⟩
  have hn : n + nCC c + 8 * bitCycles c + 7 * bitCycles c + nCL c = n + nCC c + 15 * bitCycles c + nCL c := by ring
  rw [hn, devCommit, if_pos hp, cmdSpace_cmdGen, cmdAddr_cmdGen] at hw
  exact hw.trans (devFinish_keeps (outOfTime_of_inContract hp) _ _)

/-- Where the timing premise fails the contents are free afterwards (20_memory R58). -/
theorem devWritten_untimely {c : Config} (hp : outOfTime c = true) (n : Nat) (b v : Byte) (d : Device) :
    ∃ m e, SameStore (havoc m e) (devWritten c n b v d) :=
  let ⟨e, he⟩ := devFinish_untimely hp (n + nCC c + 16 * bitCycles c)
    (devSendBits c (n + nCC c + 8 * bitCycles c) v (devCommanded c n b d) 8)
  ⟨_, e, he⟩

/-! ## A read -/

/-- The device after a read transaction. -/
def devReadDone (c : Config) (n : Nat) (b : Byte) (d : Device) : Device :=
  devFinish c (n + nCC c + 16 * bitCycles c + 9 * nCDD c)
    (devElapse (nCDD c) (n + nCC c + 16 * bitCycles c + 8 * nCDD c)
      (devRecvBits c (n + nCC c + 8 * bitCycles c) (devCommanded c n b d) 8))

/-- The byte a read transaction receives. -/
def readByte (c : Config) (n : Nat) (b : Byte) (d : Device) : Byte :=
  samples c (n + nCC c + 8 * bitCycles c) (devCommanded c n b d) 0x00#8 8

theorem readTransaction_eq {sp : Space} {a : Addr} {x : Byte} {s : State} (h : AtRest s) :
    readTransaction sp a x s = readDone sp a x (readByte s.cfg s.draws (cmdGen sp a .read) s.dev)
      (devReadDone s.cfg s.draws (cmdGen sp a .read) s.dev) s := by
  obtain ⟨h1, h2, h3⟩ := begun_lines (sp := sp) (a := a) (d := .read) (w := x) h
  have e1 := sendByte_afterSend (b := (begun sp a .read x s).cmdr) h1 h2 h3
  have e2 := recvByte_eq
    (s := { setDir false (afterSend (begun sp a .read x s).cmdr 7 (begun sp a .read x s)) with sel := .data }) h1 h2 rfl
  have e : readTransaction sp a x s = recoverIdle (deliver (driveRst false (waitFor (nCCH s.cfg)
      { setDir true (received
          { setDir false (afterSend (begun sp a .read x s).cmdr 7 (begun sp a .read x s)) with sel := .data })
        with
          k := heldIndex (received
            { setDir false (afterSend (begun sp a .read x s).cmdr 7 (begun sp a .read x s)) with sel := .data }).draws
          ph := .hold }))) := by
    rw [← e2, ← e1]; simp [readTransaction, begun]
  rw [e]
  have hb := bitOf_cmdGen_seven sp a .read
  obtain ⟨hi, hp, hr, hc, ho⟩ := h
  apply State.ext_fields <;>
    simp [recoverIdle, readDone, afterSend, received, begun, hc, ho, hi, hb, readCycles, Nat.add_assoc]
  case h12 => simp [readByte, devCommanded, accept_dev _ _ _ _ hr, Nat.add_assoc]
  case h13 => simp [readByte, devCommanded, accept_dev _ _ _ _ hr, Nat.add_assoc]
  case h17 =>
    rw [driveRst_fall_dev (by simp)]
    simp [devReadDone, devFinish, devCommanded, accept_dev _ _ _ _ hr]
    refine congrArg₂ devPass (by omega) (congrArg₂ (devElapse _) (by omega) (congrArg₂ (devClose _) (by omega)
      (congrArg₂ (devElapse _) (by omega) (congrArg₂ (devElapse _) (by omega) ?_))))
    simp only [Nat.add_assoc]
  all_goals first | omega | exact congrArg heldIndex (by omega)

theorem commanded_read {c : Config} (hp : inContract c = true) (n : Nat) (sp : Space) (a : Addr) (d : Device) :
    ∃ e, SameStore d e
      ∧ Driving (cmdGen sp a .read) (devReadByte (n + nCC c + 8 * bitCycles c) sp a e) 0
        (devReadAfter (n + nCC c + 8 * bitCycles c) sp a e) (devCommanded c n (cmdGen sp a .read) d) := by
  have h0 : Commanded (cmdGen sp a .read) 0 d (devElapse (nCC c) n (devOpen d)) := (commanded_open _ d).elapse _ _
  have hr : isRead (cmdGen sp a .read) = true := by rw [isRead_cmdGen]; rfl
  have h := h0.read (cmdMarker_cmdGen sp a .read) hr hp (n + nCC c)
  rwa [cmdSpace_cmdGen, cmdAddr_cmdGen] at h

/-- Performing a read in IDLE: when the timing is right the byte received is `DevRead` of contents that have only aged since
the request (20_memory R48), and but for `DevRead` itself (R50) only time passes. -/
theorem devReadDone_timely {c : Config} (h : Timely c) (n : Nat) (sp : Space) (a : Addr) (d : Device) :
    ∃ e, SameStore d e
      ∧ readByte c n (cmdGen sp a .read) d = devReadByte (n + nCC c + 8 * bitCycles c) sp a e
      ∧ SameStore (devReadAfter (n + nCC c + 8 * bitCycles c) sp a e) (devReadDone c n (cmdGen sp a .read) d) := by
  have hr : isRead (cmdGen sp a .read) = true := by rw [isRead_cmdGen]; rfl
  obtain ⟨e, he, hd⟩ := commanded_read h.1 n sp a d
  have ht : c.tCDD ≤ nCDD c * c.tSys := cycles_covers c.tCDD h.2
  refine ⟨e, he, ?_, ?_⟩
  · rw [readByte, hd.samples_eq hr h.1 ht _ 8 (by omega), assemble_eight]
  · exact ((hd.bits hr c _ 8).store.trans (devElapse_sameStore _ _ _)).trans (devFinish_keeps (outOfTime_of_inContract h.1) _ _)

theorem devReadDone_untimely {c : Config} (hp : outOfTime c = true) (n : Nat) (b : Byte) (d : Device) :
    ∃ m e, SameStore (havoc m e) (devReadDone c n b d) :=
  let ⟨e, he⟩ := devFinish_untimely hp (n + nCC c + 16 * bitCycles c + 9 * nCDD c) _
  ⟨_, e, he⟩

/-- Where the contract does not hold each received bit is a free value (20_memory R58, 41_sequencer R90). -/
theorem readByte_free {c : Config} (h : inContract c = false) (n : Nat) (b : Byte) (d : Device) (j : Nat) (hj : j < 8) :
    ∃ m, bitOf (readByte c n b d) j = Config.freeBit .io m :=
  samples_free h _ _ _ 8 (Nat.le_refl 8) j hj

/-! ## With no device attached -/

theorem devCommanded_absent {c : Config} (h : c.attached = false) (n : Nat) (b : Byte) (d : Device) :
    SameStore d (devCommanded c n b d) := by
  have h0 : SameStore d (devOpen d) := .of_seq d _
  exact (h0.trans (devElapse_sameStore (nCC c) n (devOpen d))).trans (devSendBits_absent h (n + nCC c) b _ 8)

/-- A write changes no contents (41_sequencer R89). -/
theorem devWritten_absent {c : Config} (h : c.attached = false) (n : Nat) (b v : Byte) (d : Device) :
    SameStore d (devWritten c n b v d) :=
  ((devCommanded_absent h n b d).trans (devSendBits_absent h (n + nCC c + 8 * bitCycles c) v _ 8)).trans
    (devFinish_keeps (absent_of_attached h).2 (n + nCC c + 16 * bitCycles c) _)

/-- A read changes no contents. -/
theorem devReadDone_absent {c : Config} (h : c.attached = false) (n : Nat) (b : Byte) (d : Device) :
    SameStore d (devReadDone c n b d) :=
  (((devCommanded_absent h n b d).trans (devRecvBits_absent h (n + nCC c + 8 * bitCycles c) _ 8)).trans
    (devElapse_sameStore (nCDD c) (n + nCC c + 16 * bitCycles c + 8 * nCDD c) _)).trans
      (devFinish_keeps (absent_of_attached h).2 (n + nCC c + 16 * bitCycles c + 9 * nCDD c) _)

/-! ## Both -/

@[simp] theorem devWritten_seq (c : Config) (n : Nat) (b v : Byte) (d : Device) : (devWritten c n b v d).seq = .closed :=
  devFinish_seq _ _ _

@[simp] theorem devReadDone_seq (c : Config) (n : Nat) (b : Byte) (d : Device) : (devReadDone c n b d).seq = .closed :=
  devFinish_seq _ _ _

theorem devSendBits_storeOk {c : Config} {n : Nat} {b : Byte} {d : Device} (h : storeOk d = true) (k : Nat) :
    storeOk (devSendBits c n b d k) = true := by
  induction k with
  | zero => exact h
  | succ k ih => exact devFall_storeOk (devElapse_storeOk (devRise_storeOk (devElapse_storeOk ih)))

theorem devRecvBits_storeOk {c : Config} {n : Nat} {d : Device} (h : storeOk d = true) (k : Nat) :
    storeOk (devRecvBits c n d k) = true := by
  induction k with
  | zero => exact h
  | succ k ih => exact devFall_storeOk (devElapse_storeOk (devRise_storeOk (devElapse_storeOk (devElapse_storeOk ih))))

theorem devCommanded_storeOk {c : Config} {n : Nat} {b : Byte} {d : Device} (h : storeOk d = true) :
    storeOk (devCommanded c n b d) = true := by
  have h0 : storeOk (devOpen d) = true := (storeOk_seq d _).trans h
  unfold devCommanded
  exact devSendBits_storeOk (devElapse_storeOk h0) 8

/-- Every write transaction keeps the RAM canonical. -/
theorem devWritten_storeOk {c : Config} {n : Nat} {b v : Byte} {d : Device} (h : storeOk d = true) :
    storeOk (devWritten c n b v d) = true := by
  unfold devWritten
  exact devFinish_storeOk (devSendBits_storeOk (devCommanded_storeOk h) 8)

/-- Every read transaction keeps the RAM canonical. -/
theorem devReadDone_storeOk {c : Config} {n : Nat} {b : Byte} {d : Device} (h : storeOk d = true) :
    storeOk (devReadDone c n b d) = true := by
  unfold devReadDone
  exact devFinish_storeOk (devElapse_storeOk (devRecvBits_storeOk (devCommanded_storeOk h) 8))

/-! ## Requests in IDLE -/

/-- A block at rest performs the whole request at once. -/
theorem whenTaken_atRest {f : State → State} {s : State} (h : AtRest s) : whenTaken f s = .next (f s) := by
  obtain ⟨hi, hp, -⟩ := h
  simp [whenTaken, hi, ready, hp, Phase.isIdle]

theorem exec_write {sp : Space} {a : Addr} {v : Byte} {s : State} (h : AtRest s) :
    exec (writeInstr sp a v) s = .next (written sp a v (devWritten s.cfg s.draws (cmdGen sp a .write) v s.dev) s) := by
  cases sp <;> simp only [writeInstr, exec, execWrclk, execWrram, whenTaken_atRest h, transaction, writeTransaction_eq h]

theorem exec_read {sp : Space} {a : Addr} {x : Byte} {s : State} (h : AtRest s) :
    exec (readInstr sp a x) s = .next (readDone sp a x (readByte s.cfg s.draws (cmdGen sp a .read) s.dev)
      (devReadDone s.cfg s.draws (cmdGen sp a .read) s.dev) s) := by
  cases sp <;> simp only [readInstr, exec, execRdclk, execRdram, whenTaken_atRest h, transaction, readTransaction_eq h]

theorem written_atRest {sp : Space} {a : Addr} {v : Byte} {d : Device} {s : State} (h : AtRest s) :
    AtRest (written sp a v d s) :=
  ⟨h.1, rfl, h.2.2⟩

theorem readDone_atRest {sp : Space} {a : Addr} {x r : Byte} {d : Device} {s : State} (h : AtRest s) :
    AtRest (readDone sp a x r d s) :=
  ⟨h.1, rfl, h.2.2⟩

/-! ## What an address reaches (20_memory R35..R38) -/

theorem locate_ram {a : Addr} (h : a.toNat < 31) : locate .ram a = .ram a.toNat := by simp [locate, h]

theorem locate_clk (r : ClkReg) : locate .clk r.addr = .clk r := by cases r <;> rfl

theorem locate_undocumented {sp : Space} {a : Addr} (h : (sp = .clk ∧ 7 ≤ a.toNat) ∨ (sp = .ram ∧ a.toNat = 31)) :
    locate sp a = .undocumented := by
  revert a; cases sp <;> simp only [reduceCtorEq, false_and, true_and, or_false, false_or] <;> decide

end Sys2Proof.Machine
end

