-- ==== Sys2Proof/Laws/Edge.lean ====
section
/-! SUPPORT. The cycle-level state machine: one edge in each phase, the wait of a timed phase, and rows of edges. -/

namespace Sys2Proof.Machine

/-! ## One edge -/

/-- Driving CLK changes the line and, in a frame, the device (20_memory R53). -/
theorem driveClk_form (b : Bool) (s : State) : ∃ d, driveClk b s = { s with clkO := b, dev := d } := by
  unfold driveClk
  split
  · exact ⟨_, rfl⟩
  · split
    · exact ⟨_, rfl⟩
    · exact ⟨s.dev, rfl⟩

/-- Driving RST changes the line and the device (20_memory R53, R57). -/
theorem driveRst_form (b : Bool) (s : State) : ∃ d, driveRst b s = { s with rstO := b, dev := d } := by
  unfold driveRst
  split
  · exact ⟨_, rfl⟩
  · split
    · exact ⟨_, rfl⟩
    · exact ⟨s.dev, rfl⟩

theorem edge_reset {p : Ports} (h : p.resetIn = true) (s : State) : edge p s = .next (advance (applyReset s)) := by
  simp [edge, h]

theorem edge_run {p : Ports} {s : State} (h : p.resetIn = false) (hi : s.inited = true) :
    edge p s = passing (rowAction p s) := by
  simp [edge, h, hi]

/-- Outside IDLE the request inputs are not looked at (41_sequencer R87). -/
theorem rowAction_busy {s : State} (h : s.ph ≠ .idle) (p q : Ports) : rowAction p s = rowAction q s := by
  unfold rowAction
  cases hp : s.ph <;> first | rfl | exact absurd hp h

/-- In a timed phase an edge with T > 1 only counts (41_sequencer R91). -/
theorem edge_count {p : Ports} {s : State} (h : p.resetIn = false) (hi : s.inited = true) (ht : s.ph.isTimed = true)
    (h1 : 1 < s.t) : edge p s = .next (advance { s with t := s.t - 1 }) := by
  rw [edge_run h hi]
  unfold rowAction
  cases hp : s.ph <;> simp_all [Phase.isTimed, timed, passing]

theorem elapse_advance (n : Nat) (s : State) : elapse n (advance s) = elapse (n + 1) s := rfl

theorem advance_setT (s : State) (t : Nat) : advance { s with t := t } = { advance s with t := t } := rfl

theorem elapse_setT (n : Nat) (s : State) (t : Nat) : elapse n { s with t := t } = { elapse n s with t := t } := by
  induction n generalizing s with
  | zero => rfl
  | succ n ih => rw [elapse, advance_setT, ih]; rfl

/-! ## The rows, by the phase they leave -/

theorem rowAction_reset {p : Ports} {s : State} (h : s.ph = .reset) : rowAction p s = .next (row1 s) := by
  simp [rowAction, h]

theorem rowAction_recover {p : Ports} {s : State} (h : s.ph = .recover) (ht : s.t = 1) :
    rowAction p s = .next (row2 s) := by
  simp [rowAction, timed, h, ht]

theorem rowAction_setup {p : Ports} {s : State} (h : s.ph = .setup) (ht : s.t = 1) :
    rowAction p s = .next (row6 s) := by
  simp [rowAction, timed, h, ht]

theorem rowAction_txl {p : Ports} {s : State} (h : s.ph = .txl) (ht : s.t = 1) : rowAction p s = .next (row7 s) := by
  simp [rowAction, timed, h, ht]

theorem rowAction_txh {p : Ports} {s : State} (h : s.ph = .txh) (ht : s.t = 1) : rowAction p s = leaveTxh s := by
  simp [rowAction, timed, h, ht]

theorem rowAction_rxd {p : Ports} {s : State} (h : s.ph = .rxd) (ht : s.t = 1) : rowAction p s = leaveRxd s := by
  simp [rowAction, timed, h, ht]

theorem rowAction_rxl {p : Ports} {s : State} (h : s.ph = .rxl) (ht : s.t = 1) : rowAction p s = .next (row14 s) := by
  simp [rowAction, timed, h, ht]

theorem rowAction_rxh {p : Ports} {s : State} (h : s.ph = .rxh) (ht : s.t = 1) : rowAction p s = .next (row15 s) := by
  simp [rowAction, timed, h, ht]

theorem rowAction_hold {p : Ports} {s : State} (h : s.ph = .hold) (ht : s.t = 1) : rowAction p s = .next (row16 s) := by
  simp [rowAction, timed, h, ht]

/-- Everything an edge without a reset can do to a block that has been reset: it counts, or it performs one row of R91. -/
theorem rowAction_cases {p : Ports} {s t : State} (he : rowAction p s = .next t) :
    (s.ph.isTimed = true ∧ 1 < s.t ∧ t = { s with t := s.t - 1 })
    ∨ (s.ph = .reset ∧ t = row1 s)
    ∨ (s.ph = .recover ∧ s.t = 1 ∧ t = row2 s)
    ∨ (s.ph = .idle ∧ p.reqValid = false ∧ t = s)
    ∨ (s.ph = .idle ∧ p.reqValid = true ∧ reqMarker p.req = false ∧ t = row4 s)
    ∨ (s.ph = .idle ∧ p.reqValid = true ∧ reqMarker p.req = true ∧ t = row5 p.req s)
    ∨ (s.ph = .setup ∧ s.t = 1 ∧ t = row6 s)
    ∨ (s.ph = .txl ∧ s.t = 1 ∧ t = row7 s)
    ∨ (s.ph = .txh ∧ s.t = 1 ∧ s.k.toNat < 7 ∧ t = row8 s)
    ∨ (s.ph = .txh ∧ s.t = 1 ∧ s.k.toNat = 7 ∧ s.sel = .cmd ∧ isRead s.cmdr = false ∧ t = row9 s)
    ∨ (s.ph = .txh ∧ s.t = 1 ∧ s.k.toNat = 7 ∧ s.sel = .cmd ∧ isRead s.cmdr = true ∧ t = row10 s)
    ∨ (s.ph = .txh ∧ s.t = 1 ∧ s.k.toNat = 7 ∧ s.sel = .data ∧ t = row11 s)
    ∨ (s.ph = .rxd ∧ s.t = 1 ∧ s.k.toNat ≤ 7 ∧ t = row12 s)
    ∨ (s.ph = .rxd ∧ s.t = 1 ∧ s.k.toNat = 8 ∧ t = row13 s)
    ∨ (s.ph = .rxl ∧ s.t = 1 ∧ t = row14 s)
    ∨ (s.ph = .rxh ∧ s.t = 1 ∧ t = row15 s)
    ∨ (s.ph = .hold ∧ s.t = 1 ∧ t = row16 s) := by
  unfold rowAction at he
  cases hp : s.ph <;> simp only [hp, timed, leaveTxh, leaveRxd] at he <;> (repeat' split at he) <;> cases he <;> simp_all [Phase.isTimed]

/-- The fields no edge touches but by counting: the parameters, the host, the coming moves, the word at an interface. -/
structure Surroundings (s t : State) : Prop where
  cfg : t.cfg = s.cfg
  host : t.host = s.host
  agenda : t.agenda = s.agenda
  probe : t.probe = s.probe

theorem Surroundings.trans {s t u : State} (h : Surroundings s t) (g : Surroundings t u) : Surroundings s u :=
  ⟨g.cfg.trans h.cfg, g.host.trans h.host, g.agenda.trans h.agenda, g.probe.trans h.probe⟩

theorem rowAction_surroundings {p : Ports} {s t : State} (he : rowAction p s = .next t) :
    Surroundings s t ∧ t.edges = s.edges ∧ t.draws = s.draws := by
  rcases rowAction_cases he with h | h | h | h | h | h | h | h | h | h | h | h | h | h | h | h | h
  all_goals obtain ⟨-, h⟩ := h
  all_goals first
    | (subst h; exact ⟨⟨rfl, rfl, rfl, rfl⟩, rfl, rfl⟩)
    | (obtain ⟨-, rfl⟩ := h; exact ⟨⟨rfl, rfl, rfl, rfl⟩, rfl, rfl⟩)
    | skip
  all_goals simp only [h, row4, row5, row7, row8, row9, row10, row11, row12, row13, row14, row15, row16]
  all_goals first
    | (refine ⟨⟨?_, ?_, ?_, ?_⟩, ?_, ?_⟩ <;> first | rfl | simp; done)
    | (by_cases hr : isRead s.cmdr = true <;> (refine ⟨⟨?_, ?_, ?_, ?_⟩, ?_, ?_⟩ <;> simp [hr, deliver]))

/-- No edge touches the parameters, the host, the coming moves or the word at an interface; one edge is counted. -/
theorem edge_surroundings {p : Ports} {s t : State} (he : edge p s = .next t) :
    Surroundings s t ∧ t.edges = s.edges + 1 ∧ t.draws = s.draws + 1 := by
  unfold edge at he
  split at he
  · cases he
    refine ⟨⟨?_, ?_, ?_, ?_⟩, ?_, ?_⟩ <;> simp [applyReset]
  · split at he
    · cases hr : rowAction p s with
      | next u =>
        rw [hr] at he
        cases he
        obtain ⟨h, h1, h2⟩ := rowAction_surroundings hr
        exact ⟨⟨h.cfg, h.host, h.agenda, h.probe⟩, by simp [h1], by simp [h2]⟩
      | fault f => rw [hr] at he; cases he
      | refused f => rw [hr] at he; cases he
    · split at he
      · cases he
      · cases he
        exact ⟨⟨rfl, rfl, rfl, rfl⟩, rfl, rfl⟩

/-! ## Rows of edges -/

@[simp] theorem runEdges_nil (s : State) : runEdges [] s = .next s := rfl

theorem runEdges_cons {p : Ports} {ps : List Ports} {s t : State} (h : edge p s = .next t) :
    runEdges (p :: ps) s = runEdges ps t := by
  rw [runEdges, h]

theorem runEdges_append {ps qs : List Ports} {s t : State} (h : runEdges ps s = .next t) :
    runEdges (ps ++ qs) s = runEdges qs t := by
  induction ps generalizing s with
  | nil => simp only [runEdges_nil, Host.Outcome.next.injEq] at h; rw [List.nil_append, h]
  | cons p ps ih =>
    rw [runEdges] at h
    rw [List.cons_append, runEdges]
    split at h <;> first | exact ih h | cases h

/-- While a timed phase counts, only time passes (10_state R16). -/
theorem runEdges_count {ps : List Ports} {s : State} (h : noReset ps = true) (hi : s.inited = true)
    (ht : s.ph.isTimed = true) (hn : ps.length < s.t) :
    runEdges ps s = .next { elapse ps.length s with t := s.t - ps.length } := by
  induction ps generalizing s with
  | nil => rfl
  | cons p ps ih =>
    simp only [noReset, List.all_cons, Bool.and_eq_true, Bool.not_eq_true'] at h
    simp only [List.length_cons] at hn
    rw [runEdges_cons (edge_count h.1 hi ht (by omega))]
    rw [ih (s := advance { s with t := s.t - 1 }) h.2 hi ht (show ps.length < s.t - 1 by omega)]
    have e : (advance { s with t := s.t - 1 }).t - ps.length = s.t - (p :: ps).length := by
      simp only [advance_t, List.length_cons]; omega
    rw [e, advance_setT, elapse_setT]
    rfl

/-- A timed phase, from the edge that enters it (the state `u` as its row leaves it, before that edge passes) to the edge
that leaves it: the row that leaves it is performed in the state `wait(T)` gives (10_state R16, 40_transceiver R79). -/
theorem runEdges_phase {ps : List Ports} {u : State} (h : noReset ps = true) (hi : u.inited = true)
    (ht : u.ph.isTimed = true) (h1 : 1 ≤ u.t) (hn : ps.length = u.t) :
    runEdges ps (advance u) = passing (rowAction quiet (waitFor u.t u)) := by
  obtain ⟨qs, p, rfl⟩ : ∃ qs p, ps = qs ++ [p] := by
    refine ⟨ps.dropLast, ps.getLast (by intro e; simp [e] at hn; omega), ?_⟩
    rw [List.dropLast_append_getLast]
  simp only [noReset, List.all_append, List.all_cons, List.all_nil, Bool.and_true, Bool.and_eq_true,
    Bool.not_eq_true'] at h
  simp only [List.length_append, List.length_singleton] at hn
  rw [runEdges_append (runEdges_count (s := advance u) h.1 hi ht (by simp; omega))]
  have e : { elapse qs.length (advance u) with t := (advance u).t - qs.length } = waitFor u.t u := by
    have e1 : (advance u).t - qs.length = 1 := by simp only [advance_t]; omega
    rw [waitFor, e1, elapse_advance, hn]
    exact (elapse_setT _ _ _).symm
  rw [e, runEdges, edge_run h.2 (by simp [hi])]
  have hp : (waitFor u.t u).ph ≠ .idle := by
    intro hc
    simp only [waitFor_ph] at hc
    simp [hc, Phase.isTimed] at ht
  rw [rowAction_busy hp p quiet]
  cases hr : rowAction quiet (waitFor u.t u) <;> rfl

/-- The same for a phase whose exit is the row `r`. -/
theorem runEdges_row {ps : List Ports} {u v : State} (h : noReset ps = true) (hi : u.inited = true)
    (ht : u.ph.isTimed = true) (h1 : 1 ≤ u.t) (hn : ps.length = u.t)
    (hr : rowAction quiet (waitFor u.t u) = .next v) : runEdges ps (advance u) = .next (advance v) := by
  rw [runEdges_phase h hi ht h1 hn, hr]
  rfl

theorem noReset_append {a b : List Ports} : noReset (a ++ b) = (noReset a && noReset b) := by
  simp [noReset, List.all_append]

/-- An edge without a reset, of a block that has been reset, is one of those actions, and then the edge passes. -/
theorem edge_next {p : Ports} {s t : State} (hp : p.resetIn = false) (hi : s.inited = true) (he : edge p s = .next t) :
    ∃ u, rowAction p s = .next u ∧ t = advance u := by
  rw [edge_run hp hi] at he
  cases hr : rowAction p s with
  | next u => rw [hr] at he; cases he; exact ⟨u, rfl, rfl⟩
  | fault f => rw [hr] at he; cases he
  | refused r => rw [hr] at he; cases he

end Sys2Proof.Machine
end

