-- ==== Sys2Proof/Laws/Line.lean ====
section
/-! SUPPORT. The transaction at line level (41_sequencer R89 to R93): what rows of edges do between one action of the sequencer
and the next, in the terms of the line primitives, and what a recorder sees meanwhile. -/

namespace Sys2Proof.Machine

theorem split_list {α : Type} {n m : Nat} {ps : List α} (h : ps.length = n + m) :
    ∃ a b, ps = a ++ b ∧ a.length = n ∧ b.length = m :=
  ⟨ps.take n, ps.drop n, (List.take_append_drop n ps).symm, by simp [h], by simp [h]⟩

/-! ## A byte sent -/

/-- A bit sent, up to the end of its CLK high time. -/
def sendHigh (b : Byte) (k : Nat) (s : State) : State :=
  waitFor (nCH s.cfg)
    { driveClk true (waitFor (nCL s.cfg) { driveIo (bitOf b k) s with k := BitVec.ofNat 4 k, ph := .txl }) with ph := .txh }

theorem sendBit_high (b : Byte) (k : Nat) (s : State) : sendBit b k s = driveClk false (sendHigh b k s) := rfl

/-- TXL entered with bit `k` of `b`. -/
def slot (b : Byte) (k : Nat) (s : State) : State :=
  { driveIo (bitOf b k) s with k := BitVec.ofNat 4 k, ph := .txl, t := nCL s.cfg }

theorem slot_edges {ps : List Ports} {b : Byte} {k : Nat} {s : State} (h : noReset ps = true) (hi : s.inited = true)
    (hn : ps.length = bitCycles s.cfg) :
    runEdges ps (advance (slot b k s)) = passing (leaveTxh (sendHigh b k s)) := by
  obtain ⟨p, q, rfl, hp, hq⟩ := split_list hn
  rw [noReset_append, Bool.and_eq_true] at h
  have e1 : runEdges p (advance (slot b k s)) = .next (advance (row7 (waitFor (nCL s.cfg) (slot b k s)))) := by
    refine runEdges_row (u := slot b k s) h.1 hi rfl (nCL_pos _) hp ?_
    rw [rowAction_txl (by simp [slot]) (by simp)]
    rfl
  have e : waitFor (nCH s.cfg) (row7 (waitFor (nCL s.cfg) (slot b k s))) = sendHigh b k s := by
    simp [row7, slot, sendHigh, waitFor, driveClk]
  rw [runEdges_append e1, runEdges_phase h.2 (by simpa [slot, row7] using hi) rfl (by simp [row7, slot, nCH_pos]) (by simpa [row7, slot] using hq)]
  have e2 : (row7 (waitFor (nCL s.cfg) (slot b k s))).t = nCH s.cfg := by simp [row7, slot]
  rw [e2, e, rowAction_txh (by simp [sendHigh]) (by simp [sendHigh])]

/-- The state before bit `k` of a byte, once the bits before it have been sent. -/
def prev (b : Byte) (k : Nat) (s : State) : State :=
  match k with
  | 0 => s
  | k + 1 => afterSend b k s

theorem sendBit_prev {b : Byte} {k : Nat} {s : State} (hr : s.rstO = true) (hc : s.clkO = false) (ho : s.ioOE = true) :
    sendBit b k (prev b k s) = afterSend b k s := by
  cases k with
  | zero => 
    have := sendBits_eq (b := b) hr hc ho 0
    show sendBit b 0 s = _
    simpa [List.range_succ] using this
  | succ k =>
    have e := sendBits_eq (b := b) hr hc ho (k+1)
    rw [List.range_succ, List.foldl_append, sendBits_eq hr hc ho k] at e
    show sendBit b (k+1) (afterSend b k s) = _
    simpa using e

@[simp] theorem prev_inited (b k s) : (prev b k s).inited = s.inited := by cases k <;> rfl
@[simp] theorem prev_cfg (b k s) : (prev b k s).cfg = s.cfg := by cases k <;> rfl
@[simp] theorem prev_sel (b k s) : (prev b k s).sel = s.sel := by cases k <;> rfl
@[simp] theorem prev_cmdr (b k s) : (prev b k s).cmdr = s.cmdr := by cases k <;> rfl
@[simp] theorem prev_wdr (b k s) : (prev b k s).wdr = s.wdr := by cases k <;> rfl

@[simp] theorem sendHigh_k (b k s) : (sendHigh b k s).k = BitVec.ofNat 4 k := by simp [sendHigh]
@[simp] theorem sendHigh_sel (b k s) : (sendHigh b k s).sel = s.sel := by simp [sendHigh]
@[simp] theorem sendHigh_cmdr (b k s) : (sendHigh b k s).cmdr = s.cmdr := by simp [sendHigh]
@[simp] theorem sendHigh_wdr (b k s) : (sendHigh b k s).wdr = s.wdr := by simp [sendHigh]
@[simp] theorem sendHigh_cfg (b k s) : (sendHigh b k s).cfg = s.cfg := by simp [sendHigh]

theorem send_edges {ps : List Ports} {b : Byte} {k : Nat} {s : State} (h : noReset ps = true) (hi : s.inited = true)
    (hr : s.rstO = true) (hc : s.clkO = false) (ho : s.ioOE = true) (hb : selectedByte s = b) (hk : k ≤ 7)
    (hn : ps.length = (k + 1) * bitCycles s.cfg) :
    runEdges ps (advance (slot b 0 s)) = passing (leaveTxh (sendHigh b k (prev b k s))) := by
  induction k generalizing ps with
  | zero => exact slot_edges h hi (by simpa using hn)
  | succ k ih =>
    obtain ⟨p, q, rfl, hp, hq⟩ := split_list (n := (k+1) * bitCycles s.cfg) (m := bitCycles s.cfg) (ps := ps) (by rw [hn]; ring)
    rw [noReset_append, Bool.and_eq_true] at h
    have e1 : runEdges p (advance (slot b 0 s)) = .next (advance (slot b (k+1) (afterSend b k s))) := by
      rw [ih h.1 (by omega) hp]
      have hk' : (BitVec.ofNat 4 k).toNat = k := by simp; omega
      have hs : selectedByte (sendHigh b k (prev b k s)) = b := by
        rw [← hb]; simp [selectedByte]
      have hd : driveClk false (sendHigh b k (prev b k s)) = afterSend b k s := by
        rw [← sendBit_high, sendBit_prev hr hc ho]
      have hlt : (sendHigh b k (prev b k s)).k.toNat < 7 := by rw [sendHigh_k, hk']; omega
      rw [leaveTxh, if_pos hlt, row8, hd, hs]
      simp only [passing, sendHigh_k, hk', sendHigh_cfg, prev_cfg]
      have : BitVec.ofNat 4 k + 1#4 = BitVec.ofNat 4 (k+1) := by rw [BitVec.ofNat_add]
      rw [this]
      rfl
    rw [runEdges_append e1]
    exact slot_edges h.2 hi hq

/-! ## A byte received -/

/-- RXD entered for sample `j`. -/
def rslot (j : Nat) (s : State) : State :=
  { s with k := BitVec.ofNat 4 j, ph := .rxd, t := nCDD s.cfg }

/-- The state before sample `j`. -/
def rPrev (j : Nat) (s : State) : State :=
  match j with
  | 0 => s
  | j + 1 => afterRecv j s

theorem recvBit_prev {j : Nat} {s : State} (hr : s.rstO = true) (hc : s.clkO = false) (ho : s.ioOE = false) :
    recvBit j (rPrev j s) = afterRecv j s := by
  cases j with
  | zero =>
    have := recvBits_eq hr hc ho 0
    show recvBit 0 s = _
    simpa [List.range_succ] using this
  | succ k =>
    have e := recvBits_eq hr hc ho (k+1)
    rw [List.range_succ, List.foldl_append, recvBits_eq hr hc ho k] at e
    show recvBit (k+1) (afterRecv k s) = _
    simpa using e

theorem rslot_edges {ps : List Ports} {j : Nat} {s : State} (h : noReset ps = true) (hi : s.inited = true) (hj : j ≤ 7)
    (hn : ps.length = nCDD s.cfg + bitCycles s.cfg) :
    runEdges ps (advance (rslot j s)) = .next (advance (rslot (j+1) (recvBit j s))) := by
  obtain ⟨p, qs, rfl, hp, hqs⟩ := split_list hn
  obtain ⟨q, r, rfl, hq, hr⟩ := split_list hqs
  simp only [noReset_append, Bool.and_eq_true] at h
  have hj' : (BitVec.ofNat 4 j).toNat = j := by simp; omega
  have e1 : runEdges p (advance (rslot j s)) = .next (advance (row12 (waitFor (nCDD s.cfg) (rslot j s)))) := by
    refine runEdges_row (u := rslot j s) h.1 hi rfl (nCDD_pos _) hp ?_
    rw [rowAction_rxd (by simp [rslot]) (by simp)]
    rw [leaveRxd, if_pos (by simp only [rslot, waitFor_k, hj']; exact hj)]
    rfl
  rw [runEdges_append e1]
  have e2 : runEdges q (advance (row12 (waitFor (nCDD s.cfg) (rslot j s)))) = .next (advance (row14 (waitFor (nCL s.cfg) (row12 (waitFor (nCDD s.cfg) (rslot j s)))))) := by
    refine runEdges_row h.2.1 (by simpa [row12, rslot] using hi) rfl (by simp [row12, rslot, nCL_pos]) (by simpa [row12, rslot] using hq) ?_
    rw [rowAction_rxl (by simp [row12]) (by simp)]
    simp [row12, rslot]
  rw [runEdges_append e2]
  refine (runEdges_row h.2.2 (by simpa [row12, row14, rslot] using hi) rfl (by simp [row12, row14, rslot, nCH_pos]) (by simpa [row12, row14, rslot] using hr) (rowAction_rxh (by simp [row14]) (by simp))).trans ?_
  have e4 : BitVec.ofNat 4 j + 1#4 = BitVec.ofNat 4 (j + 1) := by rw [BitVec.ofNat_add]
  congr 1
  apply State.ext_fields <;> simp [row15, row14, row12, rslot, recvBit, hj', e4]
  all_goals rfl

theorem recv_edges {ps : List Ports} {j : Nat} {s : State} (h : noReset ps = true) (hi : s.inited = true)
    (hr : s.rstO = true) (hc : s.clkO = false) (ho : s.ioOE = false) (hj : j ≤ 7)
    (hn : ps.length = (j + 1) * (nCDD s.cfg + bitCycles s.cfg)) :
    runEdges ps (advance (rslot 0 s)) = .next (advance (rslot (j + 1) (afterRecv j s))) := by
  induction j generalizing ps with
  | zero =>
    rw [rslot_edges h hi (by omega) (by simpa using hn), ← recvBit_prev hr hc ho]; rfl
  | succ k ih =>
    obtain ⟨p, q, rfl, hp, hq⟩ := split_list (n := (k+1) * (nCDD s.cfg + bitCycles s.cfg)) (m := nCDD s.cfg + bitCycles s.cfg) (ps := ps) (by rw [hn]; ring)
    rw [noReset_append, Bool.and_eq_true] at h
    rw [runEdges_append (ih h.1 (by omega) hp), rslot_edges (s := afterRecv k s) h.2 hi (by omega) hq, ← recvBit_prev (j := k+1) hr hc ho]
    rfl

/-! ## The frame -/

theorem edge_accept {w : ReqWord} {s : State} (h : AtRest s) (hm : reqMarker w = true) :
    edge (present w) s = .next (advance (accept (reqSpace w) (reqAddr w) (reqDir w) (reqData w) s)) := by
  obtain ⟨hi, hp, -⟩ := h
  rw [edge_run rfl hi]
  simp [rowAction, hp, present, hm, passing, row5]

theorem setup_edges {ps : List Ports} {sp : Space} {a : Addr} {d : Dir} {w : Byte} {s : State} (h : noReset ps = true) (hr : AtRest s)
    (hn : ps.length = nCC s.cfg) :
    runEdges ps (advance (accept sp a d w s)) = .next (advance (slot (cmdGen sp a d) 0 (begun sp a d w s))) := by
  refine runEdges_row (u := accept sp a d w s) h (by simp [hr.1]) (by simp [Phase.isTimed]) (by simp [nCC_pos]) (by simpa using hn) ?_
  rw [rowAction_setup (by simp) (by simp)]
  have e : (accept sp a d w s).t = nCC s.cfg := by simp
  rw [e]
  congr 1
  apply State.ext_fields <;> simp [row6, slot, begun]

theorem hold_edges {ps : List Ports} {u : State} (h : noReset ps = true) (hi : u.inited = true)
    (hp : u.ph = .hold) (ht : u.t = nCCH u.cfg)
    (hn : ps.length = nCCH u.cfg) : 
    runEdges ps (advance u) = .next (advance (row16 (waitFor (nCCH u.cfg) u))) := by
  refine runEdges_row (u := u) h hi (by simp [hp, Phase.isTimed]) (by rw [ht]; exact nCCH_pos _) (by rw [hn, ht]) ?_
  rw [rowAction_hold (by simp [hp]) (by simp), ht]

theorem recover_edges {ps : List Ports} {u : State} (h : noReset ps = true) (hi : u.inited = true)
    (hp : u.ph = .recover) (ht : u.t = nCWH u.cfg)
    (hn : ps.length = nCWH u.cfg) : 
    runEdges ps (advance u) = .next (advance (row2 (waitFor (nCWH u.cfg) u))) := by
  refine runEdges_row (u := u) h hi (by simp [hp, Phase.isTimed]) (by rw [ht]; exact nCWH_pos _) (by rw [hn, ht]) ?_
  rw [rowAction_recover (by simp [hp]) (by simp), ht]

/-! ## What a recorder sees -/

theorem levelChange_same (r f : LineEvent) (b : Bool) : levelChange r f b b = [] := by cases b <;> rfl

/-- While a timed phase counts, no line changes. -/
theorem traceEdges_count {ps : List Ports} {s : State} (h : noReset ps = true) (hi : s.inited = true)
    (ht : s.ph.isTimed = true) (hn : ps.length < s.t) : traceEdges ps s = [] := by
  induction ps generalizing s with
  | nil => rfl
  | cons p ps ih =>
    simp only [noReset, List.all_cons, Bool.and_eq_true, Bool.not_eq_true'] at h
    simp only [List.length_cons] at hn
    rw [traceEdges, edge_count h.1 hi ht (by omega)]
    simp only
    rw [ih (s := advance { s with t := s.t - 1 }) h.2 hi ht (show ps.length < s.t - 1 by omega)]
    have e : eventsBetween s (advance { s with t := s.t - 1 }) = [] := by
      simp [eventsBetween, levelChange_same, ready]
    simp [e]

theorem traceEdges_append {ps qs : List Ports} {s t : State} (h : runEdges ps s = .next t) :
    traceEdges (ps ++ qs) s = traceEdges ps s ++ traceEdges qs t := by
  induction ps generalizing s with
  | nil => simp only [runEdges_nil, Host.Outcome.next.injEq] at h; rw [List.nil_append, h]; rfl
  | cons p ps ih =>
    cases e : edge p s with
    | next u =>
      rw [runEdges_cons e] at h
      simp only [List.cons_append, traceEdges, e, ih h, List.append_assoc]
    | fault f => simp only [runEdges, e] at h; cases h
    | refused r => simp only [runEdges, e] at h; cases h

/-- A timed phase shows the events of its exit only, at the edge T cycles after the one that entered it. -/
theorem traceEdges_row {ps : List Ports} {u v : State} (h : noReset ps = true) (hi : u.inited = true)
    (ht : u.ph.isTimed = true) (h1 : 1 ≤ u.t) (hn : ps.length = u.t)
    (hr : rowAction quiet (waitFor u.t u) = .next v) :
    traceEdges ps (advance u) = (eventsBetween (waitFor u.t u) (advance v)).map (fun e => ⟨u.edges + u.t, e⟩) := by
  obtain ⟨qs, p, rfl⟩ : ∃ qs p, ps = qs ++ [p] := by
    refine ⟨ps.dropLast, ps.getLast (by intro e; simp [e] at hn; omega), ?_⟩
    rw [List.dropLast_append_getLast]
  rw [noReset_append, Bool.and_eq_true] at h
  simp only [List.length_append, List.length_singleton] at hn
  have hl := runEdges_count (s := advance u) h.1 hi ht (show qs.length < u.t by omega)
  have e : { elapse qs.length (advance u) with t := (advance u).t - qs.length } = waitFor u.t u := by
    have e1 : (advance u).t - qs.length = 1 := by simp only [advance_t]; omega
    rw [waitFor, e1, elapse_advance, hn]
    exact (elapse_setT _ _ _).symm
  rw [e] at hl
  rw [traceEdges_append hl, traceEdges_count (s := advance u) h.1 hi ht (show qs.length < u.t by omega), List.nil_append]
  have hp : (waitFor u.t u).ph ≠ .idle := by
    intro hc
    simp only [waitFor_ph] at hc
    simp [hc, Phase.isTimed] at ht
  have hpr : p.resetIn = false := by simpa [noReset] using h.2
  have he : edge p (waitFor u.t u) = .next (advance v) := by
    rw [edge_run hpr (by simp [hi]), rowAction_busy hp p quiet, hr]
    rfl
  rw [traceEdges, he]
  simp [traceEdges]

end Sys2Proof.Machine
end

