-- ==== Sys2Proof/Laws/Invariant.lean ====
section
/-! SUPPORT. The invariant of the block and its device (41_sequencer R92, 10_state R30): every row of R91, a reset and an edge
keep it; and every edge keeps the RAM canonical. -/

namespace Sys2Proof.Machine

theorem progress_iff {s : State} {r f : Nat} : progress s r f = true ↔
    s.dev.seq.inFrame = true ∧ s.dev.seq.rises = r ∧ s.dev.seq.falls = f ∧ sentSoFar s.dev.seq.cmd s.cmdr r = true
      ∧ (isRead s.cmdr = true ∨ sentSoFar s.dev.seq.din s.wdr (r - 8) = true) := by
  simp [progress, and_assoc]

theorem devRise_seq (c : Config) (n : Nat) (lvl : Bool) (d : Device) :
    (devRise c n lvl d).seq =
      if d.seq.rises < 8 then { d.seq with cmd := putBit d.seq.cmd d.seq.rises lvl, rises := d.seq.rises + 1 }
      else if d.seq.rises < 16 ∧ cmdMarker d.seq.cmd = true ∧ isRead d.seq.cmd = false then
        { d.seq with din := putBit d.seq.din (d.seq.rises - 8) lvl, rises := d.seq.rises + 1 }
      else { d.seq with rises := d.seq.rises + 1 } := by
  unfold devRise
  simp only [Bool.and_eq_true, decide_eq_true_eq, Bool.not_eq_true', and_assoc]
  split
  · split <;> simp
  · split
    · split <;> simp
    · rfl

/-- What a falling edge leaves of DEVSEQ, but for the byte driven. -/
theorem devFall_seq (c : Config) (n : Nat) (d : Device) :
    (devFall c n d).seq.inFrame = d.seq.inFrame ∧ (devFall c n d).seq.rises = d.seq.rises
      ∧ (devFall c n d).seq.falls = d.seq.falls + 1 ∧ (devFall c n d).seq.cmd = d.seq.cmd
      ∧ (devFall c n d).seq.din = d.seq.din := by
  unfold devFall devDrive
  simp only
  split
  · split
    · simp
    · split <;> simp
  · simp

theorem devPass_seq (n : Nat) (d : Device) : (devPass n d).seq.inFrame = d.seq.inFrame ∧ (devPass n d).seq.rises = d.seq.rises
      ∧ (devPass n d).seq.falls = d.seq.falls ∧ (devPass n d).seq.cmd = d.seq.cmd
      ∧ (devPass n d).seq.din = d.seq.din := by
  unfold devPass; simp only; split <;> simp

theorem progress_congr {s t : State} (hc : t.cmdr = s.cmdr) (hw : t.wdr = s.wdr)
    (h1 : t.dev.seq.inFrame = s.dev.seq.inFrame) (h2 : t.dev.seq.rises = s.dev.seq.rises)
    (h3 : t.dev.seq.falls = s.dev.seq.falls) (h4 : t.dev.seq.cmd = s.dev.seq.cmd) (h5 : t.dev.seq.din = s.dev.seq.din)
    (r f : Nat) : progress t r f = progress s r f := by
  simp only [progress, hc, hw, h1, h2, h3, h4, h5]

@[simp] theorem progress_advance (s : State) (r f : Nat) : progress (advance s) r f = progress s r f := by
  obtain ⟨h1, h2, h3, h4, h5⟩ := devPass_seq s.draws s.dev
  exact progress_congr (s := s) (t := advance s) rfl rfl h1 h2 h3 h4 h5 r f

theorem devPass_closed {n : Nat} {d : Device} : (devPass n d).seq = .closed ↔ d.seq = .closed := by
  unfold devPass; simp only
  split
  · next h =>
    constructor
    · intro e
      have := congrArg DevSeq.inFrame e
      simp [h, DevSeq.closed] at this
    · intro e; rw [e] at h; simp [DevSeq.closed] at h
  · rfl

@[simp] theorem blockOk_advance (s : State) : blockOk (advance s) = blockOk s := rfl

@[simp] theorem deviceOk_advance (s : State) : deviceOk (advance s) = deviceOk s := by
  have e : syncOk (advance s) = syncOk s := by
    unfold syncOk
    simp only [progress_advance, advance_ph, advance_ioO, advance_dev, devPass_closed]
    rfl
  simp only [deviceOk, e, advance_inited]

/-- The invariant of a block that has been reset, part by part. -/
theorem inv_iff {s : State} (hi : s.inited = true) : (blockOk s = true ∧ deviceOk s = true) ↔
    (linesOk s = true ∧ timerOk s = true ∧ indexOk s = true ∧ selOk s = true ∧ responseOk s = true ∧ syncOk s = true) := by
  simp [blockOk, deviceOk, hi, and_assoc]

/-- The falling edge, at the device in a frame. -/
theorem progress_fall {s t : State} {r f : Nat} (h : progress s r f = true) (hc : t.cmdr = s.cmdr) (hw : t.wdr = s.wdr)
    (n : Nat) (hd : t.dev = devFall s.cfg n s.dev) : progress t r (f + 1) = true := by
  obtain ⟨h1, h2, h3, h4, h5⟩ := devFall_seq s.cfg n s.dev
  rw [progress_iff] at h ⊢
  rw [hc, hw, hd, h1, h2, h3, h4, h5]
  exact ⟨h.1, h.2.1, by rw [h.2.2.1], h.2.2.2⟩

/-- A rising edge while a bit of the command is sent. -/
theorem progress_rise_cmd {s t : State} {r f : Nat} (h : progress s r f = true) (hr : r < 8) (hc : t.cmdr = s.cmdr) (hw : t.wdr = s.wdr)
    (n : Nat) (hd : t.dev = devRise s.cfg n (bitOf s.cmdr r) s.dev) : progress t (r + 1) f = true := by
  rw [progress_iff] at h ⊢
  obtain ⟨h1, h2, h3, h4, h5⟩ := h
  rw [hc, hw, hd, devRise_seq, if_pos (by omega)]
  refine ⟨h1, by rw [h2], h3, by rw [h2]; exact sentSoFar_putBit hr h4, ?_⟩
  refine .inr ?_
  have : r + 1 - 8 = 0 := by omega
  rw [this]; exact sentSoFar_zero _ _

theorem progress_rise_data {s t : State} {r f : Nat} (h : progress s r f = true) (hr : 8 ≤ r) (hr' : r < 16)
    (hm : cmdMarker s.cmdr = true) (hrd : isRead s.cmdr = false) (hc : t.cmdr = s.cmdr) (hw : t.wdr = s.wdr)
    (n : Nat) (hd : t.dev = devRise s.cfg n (bitOf s.wdr (r - 8)) s.dev) : progress t (r + 1) f = true := by
  rw [progress_iff] at h ⊢
  obtain ⟨h1, h2, h3, h4, h5⟩ := h
  have e := sentSoFar_eight hr h4
  rw [hc, hw, hd, devRise_seq, if_neg (by omega), if_pos ⟨by omega, by rw [e]; exact hm, by rw [e]; exact hrd⟩]
  refine ⟨h1, by rw [h2], h3, sentSoFar_iff.mpr (fun j h8 _ => sentSoFar_iff.mp h4 j h8 (by omega)), .inr ?_⟩
  have h6 : sentSoFar s.dev.seq.din s.wdr (r - 8) = true := by
    rcases h5 with h5 | h5
    · rw [hrd] at h5; cases h5
    · exact h5
  have := sentSoFar_putBit (n := r - 8) (by omega) h6
  have e8 : r + 1 - 8 = r - 8 + 1 := by omega
  rw [e8, h2]; exact this

theorem progress_rise_read {s t : State} {r f : Nat} (h : progress s r f = true) (hr : 8 ≤ r)
    (hrd : isRead s.cmdr = true) (hc : t.cmdr = s.cmdr) (hw : t.wdr = s.wdr)
    (n : Nat) (lvl : Bool) (hd : t.dev = devRise s.cfg n lvl s.dev) : progress t (r + 1) f = true := by
  rw [progress_iff] at h ⊢
  obtain ⟨h1, h2, h3, h4, h5⟩ := h
  have e := sentSoFar_eight hr h4
  rw [hc, hw, hd, devRise_seq, if_neg (by omega), if_neg (by rw [e, hrd]; simp)]
  exact ⟨h1, by rw [h2], h3, sentSoFar_iff.mpr (fun j h8 _ => sentSoFar_iff.mp h4 j h8 (by omega)), .inl hrd⟩

theorem keeps_row6 {s : State} (hi : s.inited = true) (hp : s.ph = .setup) (h : blockOk s = true ∧ deviceOk s = true) :
    blockOk (row6 s) = true ∧ deviceOk (row6 s) = true := by
  rw [inv_iff (by simpa [row6] using hi)]
  rw [inv_iff hi] at h
  obtain ⟨h1, h2, h3, h4, h5, h6⟩ := h
  simp only [linesOk, timerOk, indexOk, selOk, responseOk, syncOk, hp] at *
  have hcfg : 1 ≤ nCL s.cfg := nCL_pos _
  have hcfg' : nCL s.cfg ≤ maxCount s.cfg := nCL_le _
  simp [row6, Phase.active, Phase.clockHigh, Phase.receiving, Phase.assigned, Phase.isTimed, selectedByte, slotBase] at *
  simp_all
  exact h6 ▸ rfl

theorem keeps_row7 {s : State} (hi : s.inited = true) (hp : s.ph = .txl) (h : blockOk s = true ∧ deviceOk s = true) :
    blockOk (row7 s) = true ∧ deviceOk (row7 s) = true := by
  rw [inv_iff (by simpa [row7] using hi)]
  rw [inv_iff hi] at h
  obtain ⟨h1, h2, h3, h4, h5, h6⟩ := h
  simp only [linesOk, timerOk, indexOk, selOk, responseOk, syncOk, hp] at *
  have hcfg : 1 ≤ nCH s.cfg := nCH_pos _
  have hcfg' : nCH s.cfg ≤ maxCount s.cfg := nCH_le _
  simp [Phase.active, Phase.clockHigh, Phase.receiving, Phase.assigned, Phase.isTimed] at h1 h2 h3 h4 h5 h6
  have hd : (row7 s).dev = devRise s.cfg s.draws s.ioO s.dev := by
    simp [row7, driveClk_rise_dev h1.1.1 h1.1.2, ioLevel, h1.2]
  have hpr : progress (row7 s) (slotBase s + 1) (slotBase s) = true := by
    cases hs : s.sel with
    | cmd =>
      have hb : slotBase s = s.k.toNat := by simp [slotBase, hs]
      rw [hb] at h6 ⊢
      refine progress_rise_cmd h6.1 (by omega) (by simp [row7]) (by simp [row7]) s.draws ?_
      rw [hd, h6.2]; simp [selectedByte, hs]
    | data =>
      have hb : slotBase s = 8 + s.k.toNat := by simp [slotBase, hs]
      rw [hb] at h6 ⊢
      refine progress_rise_data h6.1 (by omega) (by omega) h4.1 (by simpa [hs] using h4.2) (by simp [row7]) (by simp [row7]) s.draws ?_
      rw [hd, h6.2]; simp [selectedByte, hs]
  have e1 : slotBase (row7 s) = slotBase s := by simp [slotBase, row7]
  have e2 : selectedByte (row7 s) = selectedByte s := by simp [selectedByte, row7]
  have e4 : (row7 s).ph = .txh := rfl
  have e5 : ((row7 s).ioO == bitOf (selectedByte (row7 s)) (row7 s).k.toNat) = true := by
    rw [e2]; simp [row7, h6.2]
  simp only [e4, e1, hpr, e5]
  clear e1 e2 e5 hpr hd h6
  simp [row7, Phase.active, Phase.clockHigh, Phase.receiving, Phase.assigned, Phase.isTimed] at *
  simp_all

theorem keeps_row8 {s : State} (hi : s.inited = true) (hp : s.ph = .txh) (hk : s.k.toNat < 7) (h : blockOk s = true ∧ deviceOk s = true) :
    blockOk (row8 s) = true ∧ deviceOk (row8 s) = true := by
  rw [inv_iff (by simpa [row8] using hi)]
  rw [inv_iff hi] at h
  obtain ⟨h1, h2, h3, h4, h5, h6⟩ := h
  simp only [linesOk, timerOk, indexOk, selOk, responseOk, syncOk, hp] at *
  have hcfg : 1 ≤ nCL s.cfg := nCL_pos _
  have hcfg' : nCL s.cfg ≤ maxCount s.cfg := nCL_le _
  simp [Phase.active, Phase.clockHigh, Phase.receiving, Phase.assigned, Phase.isTimed] at h1 h2 h3 h4 h5 h6
  have hd : (row8 s).dev = devFall s.cfg s.draws s.dev := by
    simp [row8, driveClk_fall_dev h1.1.1 h1.1.2]
  have hpr : progress (row8 s) (slotBase s + 1) (slotBase s + 1) = true :=
    progress_fall h6.1 (by simp [row8]) (by simp [row8]) _ hd
  have ek : (s.k + 1#4).toNat = s.k.toNat + 1 := by rw [BitVec.toNat_add]; simp; omega
  have e1 : slotBase (row8 s) = slotBase s + 1 := by simp only [slotBase, row8, ek]; simp; omega
  have e2 : (row8 s).ioO = bitOf (selectedByte (row8 s)) (row8 s).k.toNat := by simp only [selectedByte, row8, ek]; simp
  have e3 : (row8 s).k.toNat ≤ 7 := by simp only [row8, ek]; omega
  rw [← e1] at hpr
  have e4 : (row8 s).ph = .txl := rfl
  have f1 : (row8 s).rstO = s.rstO := by simp [row8]
  have f2 : (row8 s).clkO = false := by simp [row8]
  have f3 : (row8 s).ioOE = s.ioOE := by simp [row8]
  have f4 : (row8 s).t = nCL s.cfg := by simp [row8]
  have f5 : (row8 s).sel = s.sel := by simp [row8]
  have f6 : (row8 s).cmdr = s.cmdr := by simp [row8]
  have f7 : (row8 s).rvalid = s.rvalid := by simp [row8]
  have f8 : (row8 s).cfg = s.cfg := by simp [row8]
  rw [← e2] 
  simp only [e4, hpr, e3, f1, f2, f3, f4, f5, f6, f7, f8, h1]
  simp [Phase.active, Phase.clockHigh, Phase.receiving, Phase.assigned, Phase.isTimed, hcfg, hcfg', h5]
  simpa using h4

theorem keeps_row9 {s : State} (hi : s.inited = true) (hp : s.ph = .txh) (hk : s.k.toNat = 7) (hs : s.sel = .cmd) (hr : isRead s.cmdr = false)
    (h : blockOk s = true ∧ deviceOk s = true) :
    blockOk (row9 s) = true ∧ deviceOk (row9 s) = true := by
  rw [inv_iff (by simpa [row9] using hi)]
  rw [inv_iff hi] at h
  obtain ⟨h1, h2, h3, h4, h5, h6⟩ := h
  simp only [linesOk, timerOk, indexOk, selOk, responseOk, syncOk, hp] at *
  have hcfg : 1 ≤ nCL s.cfg := nCL_pos _
  have hcfg' : nCL s.cfg ≤ maxCount s.cfg := nCL_le _
  simp [Phase.active, Phase.clockHigh, Phase.receiving, Phase.assigned, Phase.isTimed] at h1 h2 h3 h4 h5 h6
  have hd : (row9 s).dev = devFall s.cfg s.draws s.dev := by
    simp [row9, driveClk_fall_dev h1.1.1 h1.1.2]
  have hb : slotBase s = 7 := by simp [slotBase, hs, hk]
  rw [hb] at h6
  have hpr : progress (row9 s) 8 8 = true :=
    progress_fall h6.1 (by simp [row9]) (by simp [row9]) _ hd
  have e1 : slotBase (row9 s) = 8 := by simp [slotBase, row9]
  have e2 : (row9 s).ioO = bitOf (selectedByte (row9 s)) (row9 s).k.toNat := by simp [selectedByte, row9]
  have e4 : (row9 s).ph = .txl := rfl
  simp only [e4, e1, hpr, e2]
  clear e1 e2 hpr hd h6 hb
  simp [row9, Phase.active, Phase.clockHigh, Phase.receiving, Phase.assigned, Phase.isTimed] at *
  simp_all

theorem keeps_row10 {s : State} (hi : s.inited = true) (hp : s.ph = .txh) (hk : s.k.toNat = 7) (hs : s.sel = .cmd) (hr : isRead s.cmdr = true)
    (h : blockOk s = true ∧ deviceOk s = true) :
    blockOk (row10 s) = true ∧ deviceOk (row10 s) = true := by
  rw [inv_iff (by simpa [row10] using hi)]
  rw [inv_iff hi] at h
  obtain ⟨h1, h2, h3, h4, h5, h6⟩ := h
  simp only [linesOk, timerOk, indexOk, selOk, responseOk, syncOk, hp] at *
  have hcfg : 1 ≤ nCDD s.cfg := nCDD_pos _
  have hcfg' : nCDD s.cfg ≤ maxCount s.cfg := nCDD_le _
  simp [Phase.active, Phase.clockHigh, Phase.receiving, Phase.assigned, Phase.isTimed] at h1 h2 h3 h4 h5 h6
  have hd : (row10 s).dev = devFall s.cfg s.draws s.dev := by
    simp [row10, driveClk_fall_dev h1.1.1 h1.1.2]
  have hb : slotBase s = 7 := by simp [slotBase, hs, hk]
  rw [hb] at h6
  have hpr : progress (row10 s) 8 8 = true :=
    progress_fall h6.1 (by simp [row10]) (by simp [row10]) _ hd
  have e1 : slotBase (row10 s) = 8 := by simp [slotBase, row10]
  have e4 : (row10 s).ph = .rxd := rfl
  simp only [e4, e1, hpr]
  simp [row10, Phase.active, Phase.clockHigh, Phase.receiving, Phase.assigned, Phase.isTimed] at *
  simp_all

theorem keeps_row11 {s : State} (hi : s.inited = true) (hp : s.ph = .txh) (hk : s.k.toNat = 7) (hs : s.sel = .data)
    (h : blockOk s = true ∧ deviceOk s = true) :
    blockOk (row11 s) = true ∧ deviceOk (row11 s) = true := by
  rw [inv_iff (by simpa [row11] using hi)]
  rw [inv_iff hi] at h
  obtain ⟨h1, h2, h3, h4, h5, h6⟩ := h
  simp only [linesOk, timerOk, indexOk, selOk, responseOk, syncOk, hp] at *
  have hcfg : 1 ≤ nCCH s.cfg := nCCH_pos _
  have hcfg' : nCCH s.cfg ≤ maxCount s.cfg := nCCH_le _
  simp [Phase.active, Phase.clockHigh, Phase.receiving, Phase.assigned, Phase.isTimed] at h1 h2 h3 h4 h5 h6
  have hd : (row11 s).dev = devFall s.cfg s.draws s.dev := by
    simp [row11, driveClk_fall_dev h1.1.1 h1.1.2]
  have hb : slotBase s = 15 := by simp [slotBase, hs, hk]
  rw [hb] at h6
  have hpr : progress (row11 s) 16 16 = true :=
    progress_fall h6.1 (by simp [row11]) (by simp [row11]) _ hd
  have e4 : (row11 s).ph = .hold := rfl
  have e5 : (row11 s).k.toNat ≤ 7 := by simp [row11, hk]
  simp only [e4, hpr, e5]
  simp [row11, Phase.active, Phase.clockHigh, Phase.receiving, Phase.assigned, Phase.isTimed] at *
  simp_all

theorem keeps_row12 {s : State} (hi : s.inited = true) (hp : s.ph = .rxd) (hk : s.k.toNat ≤ 7)
    (h : blockOk s = true ∧ deviceOk s = true) :
    blockOk (row12 s) = true ∧ deviceOk (row12 s) = true := by
  rw [inv_iff (by simpa [row12] using hi)]
  rw [inv_iff hi] at h
  obtain ⟨h1, h2, h3, h4, h5, h6⟩ := h
  simp only [linesOk, timerOk, indexOk, selOk, responseOk, syncOk, hp] at *
  have hcfg : 1 ≤ nCL s.cfg := nCL_pos _
  have hcfg' : nCL s.cfg ≤ maxCount s.cfg := nCL_le _
  simp [Phase.active, Phase.clockHigh, Phase.receiving, Phase.assigned, Phase.isTimed] at h1 h2 h3 h4 h5 h6
  have hpr : progress (row12 s) (slotBase s) (slotBase s) = true := by
    rw [progress_congr (s := s) (by simp [row12]) (by simp [row12])] <;> simp [row12, h6]
  have e1 : slotBase (row12 s) = slotBase s := by simp [slotBase, row12]
  have e4 : (row12 s).ph = .rxl := rfl
  simp only [e4, e1, hpr]
  simp [row12, Phase.active, Phase.clockHigh, Phase.receiving, Phase.assigned, Phase.isTimed] at *
  simp_all

theorem keeps_row13 {s : State} (hi : s.inited = true) (hp : s.ph = .rxd) (hk : s.k.toNat = 8)
    (h : blockOk s = true ∧ deviceOk s = true) :
    blockOk (row13 s) = true ∧ deviceOk (row13 s) = true := by
  rw [inv_iff (by simpa [row13] using hi)]
  rw [inv_iff hi] at h
  obtain ⟨h1, h2, h3, h4, h5, h6⟩ := h
  simp only [linesOk, timerOk, indexOk, selOk, responseOk, syncOk, hp] at *
  have hcfg : 1 ≤ nCCH s.cfg := nCCH_pos _
  have hcfg' : nCCH s.cfg ≤ maxCount s.cfg := nCCH_le _
  simp [Phase.active, Phase.clockHigh, Phase.receiving, Phase.assigned, Phase.isTimed] at h1 h2 h3 h4 h5 h6
  have hb : slotBase s = 16 := by simp [slotBase, h4, hk]
  rw [hb] at h6
  have hpr : progress (row13 s) 16 16 = true := by
    rw [progress_congr (s := s) (by simp [row13]) (by simp [row13])] <;> simp [row13, h6]
  have e4 : (row13 s).ph = .hold := rfl
  have e5 : (row13 s).k.toNat ≤ 7 := heldIndex_le _
  simp only [e4, hpr, e5]
  simp [row13, Phase.active, Phase.clockHigh, Phase.receiving, Phase.assigned, Phase.isTimed] at *
  simp_all

theorem keeps_row14 {s : State} (hi : s.inited = true) (hp : s.ph = .rxl)
    (h : blockOk s = true ∧ deviceOk s = true) :
    blockOk (row14 s) = true ∧ deviceOk (row14 s) = true := by
  rw [inv_iff (by simpa [row14] using hi)]
  rw [inv_iff hi] at h
  obtain ⟨h1, h2, h3, h4, h5, h6⟩ := h
  simp only [linesOk, timerOk, indexOk, selOk, responseOk, syncOk, hp] at *
  have hcfg : 1 ≤ nCH s.cfg := nCH_pos _
  have hcfg' : nCH s.cfg ≤ maxCount s.cfg := nCH_le _
  simp [Phase.active, Phase.clockHigh, Phase.receiving, Phase.assigned, Phase.isTimed] at h1 h2 h3 h4 h5 h6
  have hd : (row14 s).dev = devRise s.cfg s.draws (ioLevel s) s.dev := by
    simp [row14, driveClk_rise_dev h1.1.1 h1.1.2]
  have hpr : progress (row14 s) (slotBase s + 1) (slotBase s) = true :=
    progress_rise_read h6 (by simp [slotBase, h4]) h4.2 (by simp [row14]) (by simp [row14]) _ _ hd
  have e1 : slotBase (row14 s) = slotBase s := by simp [slotBase, row14]
  have e4 : (row14 s).ph = .rxh := rfl
  simp only [e4, e1, hpr]
  simp [row14, Phase.active, Phase.clockHigh, Phase.receiving, Phase.assigned, Phase.isTimed] at *
  simp_all

theorem keeps_row15 {s : State} (hi : s.inited = true) (hp : s.ph = .rxh)
    (h : blockOk s = true ∧ deviceOk s = true) :
    blockOk (row15 s) = true ∧ deviceOk (row15 s) = true := by
  rw [inv_iff (by simpa [row15] using hi)]
  rw [inv_iff hi] at h
  obtain ⟨h1, h2, h3, h4, h5, h6⟩ := h
  simp only [linesOk, timerOk, indexOk, selOk, responseOk, syncOk, hp] at *
  have hcfg : 1 ≤ nCDD s.cfg := nCDD_pos _
  have hcfg' : nCDD s.cfg ≤ maxCount s.cfg := nCDD_le _
  simp [Phase.active, Phase.clockHigh, Phase.receiving, Phase.assigned, Phase.isTimed] at h1 h2 h3 h4 h5 h6
  have hd : (row15 s).dev = devFall s.cfg s.draws s.dev := by
    simp [row15, driveClk_fall_dev h1.1.1 h1.1.2]
  have hpr : progress (row15 s) (slotBase s + 1) (slotBase s + 1) = true :=
    progress_fall h6 (by simp [row15]) (by simp [row15]) _ hd
  have ek : (s.k + 1#4).toNat = s.k.toNat + 1 := by rw [BitVec.toNat_add]; simp; omega
  have e1 : slotBase (row15 s) = slotBase s + 1 := by simp only [slotBase, row15, ek]; simp; omega
  have e3 : (row15 s).k.toNat ≤ 8 := by simp only [row15, ek]; omega
  have e4 : (row15 s).ph = .rxd := rfl
  simp only [e4, e1, hpr, e3]
  simp [row15, Phase.active, Phase.clockHigh, Phase.receiving, Phase.assigned, Phase.isTimed] at *
  simp_all

theorem keeps_row16 {s : State} (hi : s.inited = true) (hp : s.ph = .hold)
    (h : blockOk s = true ∧ deviceOk s = true) :
    blockOk (row16 s) = true ∧ deviceOk (row16 s) = true := by
  rw [inv_iff (by cases hr : isRead s.cmdr <;> simpa [row16, hr] using hi)]
  rw [inv_iff hi] at h
  obtain ⟨h1, h2, h3, h4, h5, h6⟩ := h
  simp only [linesOk, timerOk, indexOk, selOk, responseOk, syncOk, hp] at *
  have hcfg : 1 ≤ nCWH s.cfg := nCWH_pos _
  have hcfg' : nCWH s.cfg ≤ maxCount s.cfg := nCWH_le _
  simp [Phase.active, Phase.clockHigh, Phase.receiving, Phase.assigned, Phase.isTimed] at h1 h2 h3 h4 h5 h6
  have e4 : (row16 s).ph = .recover := rfl
  simp only [e4]
  cases hr : isRead s.cmdr <;>
  simp [row16, hr, Phase.active, Phase.clockHigh, Phase.receiving, Phase.assigned, Phase.isTimed, driveRst_fall_dev h1.1.1] at * <;>
  simp_all

theorem keeps_row1 {s : State} (hi : s.inited = true) (hp : s.ph = .reset) (h : blockOk s = true ∧ deviceOk s = true) :
    blockOk (row1 s) = true ∧ deviceOk (row1 s) = true := by
  rw [inv_iff (by simpa [row1] using hi)]
  rw [inv_iff hi] at h
  obtain ⟨h1, h2, h3, h4, h5, h6⟩ := h
  simp only [linesOk, timerOk, indexOk, selOk, responseOk, syncOk, hp] at *
  have hcfg : 1 ≤ nCWH s.cfg := nCWH_pos _
  have hcfg' : nCWH s.cfg ≤ maxCount s.cfg := nCWH_le _
  simp [row1, Phase.active, Phase.clockHigh, Phase.receiving, Phase.assigned, Phase.isTimed] at *
  simp_all

theorem keeps_row2 {s : State} (hi : s.inited = true) (hp : s.ph = .recover) (h : blockOk s = true ∧ deviceOk s = true) :
    blockOk (row2 s) = true ∧ deviceOk (row2 s) = true := by
  rw [inv_iff (by simpa [row2] using hi)]
  rw [inv_iff hi] at h
  obtain ⟨h1, h2, h3, h4, h5, h6⟩ := h
  simp only [linesOk, timerOk, indexOk, selOk, responseOk, syncOk, hp] at *
  simp [row2, Phase.active, Phase.clockHigh, Phase.receiving, Phase.assigned, Phase.isTimed] at *
  simp_all

theorem keeps_row4 {s : State} (h : blockOk s = true ∧ deviceOk s = true) :
    blockOk (row4 s) = true ∧ deviceOk (row4 s) = true := h

theorem keeps_row5 {s : State} {w : ReqWord} (hi : s.inited = true) (hp : s.ph = .idle) (h : blockOk s = true ∧ deviceOk s = true) :
    blockOk (row5 w s) = true ∧ deviceOk (row5 w s) = true := by
  rw [inv_iff (by simpa [row5] using hi)]
  rw [inv_iff hi] at h
  obtain ⟨h1, h2, h3, h4, h5, h6⟩ := h
  simp only [linesOk, timerOk, indexOk, selOk, responseOk, syncOk, hp] at *
  have hcfg : 1 ≤ nCC s.cfg := nCC_pos _
  have hcfg' : nCC s.cfg ≤ maxCount s.cfg := nCC_le _
  simp [Phase.active, Phase.clockHigh, Phase.receiving, Phase.assigned, Phase.isTimed] at h1 h2 h3 h4 h5 h6
  have hd : (row5 w s).dev = devOpen s.dev := by rw [row5, accept_dev _ _ _ _ h1.1.1]
  have hpr : progress (row5 w s) 0 0 = true := by
    rw [progress_iff, hd]
    exact ⟨rfl, rfl, rfl, sentSoFar_zero _ _, .inr (sentSoFar_zero _ _)⟩
  have e4 : (row5 w s).ph = .setup := by simp [row5]
  simp only [e4, hpr]
  simp [row5, Phase.active, Phase.clockHigh, Phase.receiving, Phase.assigned, Phase.isTimed, cmdMarker_cmdGen] at *
  simp_all

theorem keeps_count {s : State} (hi : s.inited = true) (ht : s.ph.isTimed = true) (h1 : 1 < s.t) (h : blockOk s = true ∧ deviceOk s = true) :
    blockOk { s with t := s.t - 1 } = true ∧ deviceOk { s with t := s.t - 1 } = true := by
  have e : timerOk s = true → timerOk { s with t := s.t - 1 } = true := by
    simp only [timerOk, ht]; simp; omega
  rw [inv_iff hi] at h
  exact (inv_iff (s := { s with t := s.t - 1 }) hi).mpr ⟨h.1, e h.2.1, h.2.2⟩

theorem keeps_applyReset (s : State) : blockOk (applyReset s) = true ∧ deviceOk (applyReset s) = true := by
  rw [inv_iff rfl]
  simp [linesOk, timerOk, indexOk, selOk, responseOk, syncOk, applyReset, driveRst, Phase.active, Phase.clockHigh, Phase.receiving, Phase.assigned, Phase.isTimed]
  cases h : s.rstO <;> simp

theorem keeps_rowAction {p : Ports} {s t : State} (hi : s.inited = true) (h : blockOk s = true ∧ deviceOk s = true)
    (he : rowAction p s = .next t) : blockOk t = true ∧ deviceOk t = true := by
  by_cases hc : s.ph.isTimed = true ∧ 1 < s.t
  · have e : rowAction p s = .next { s with t := s.t - 1 } := by
      unfold rowAction
      cases hp : s.ph <;> simp_all [Phase.isTimed, timed]
    rw [e] at he
    cases he
    exact keeps_count hi hc.1 hc.2 h
  · unfold rowAction at he
    cases hp : s.ph <;> simp only [hp, timed] at he
    case reset => cases he; exact keeps_row1 hi hp h
    case idle => 
      split at he
      · split at he <;> cases he
        · exact keeps_row5 hi hp h
        · exact h
      · cases he; exact h
    case unassigned => cases he
    all_goals
      have h1 : ¬ 1 < s.t := fun x => hc ⟨by simp [hp, Phase.isTimed], x⟩
      rw [if_neg h1] at he
      split at he
    case recover.isTrue => cases he; exact keeps_row2 hi hp h
    case setup.isTrue => cases he; exact keeps_row6 hi hp h
    case txl.isTrue => cases he; exact keeps_row7 hi hp h
    case rxl.isTrue => cases he; exact keeps_row14 hi hp h
    case rxh.isTrue => cases he; exact keeps_row15 hi hp h
    case hold.isTrue => cases he; exact keeps_row16 hi hp h
    case txh.isTrue =>
      unfold leaveTxh at he
      split at he
      · next hk => cases he; exact keeps_row8 hi hp hk h
      · split at he
        · next hk =>
          split at he
          · next hs => 
            split at he
            · next hr => cases he; exact keeps_row10 hi hp hk hs hr h
            · next hr => cases he; exact keeps_row9 hi hp hk hs (by simpa using hr) h
          · next hs => cases he; exact keeps_row11 hi hp hk hs h
        · cases he
    case rxd.isTrue =>
      unfold leaveRxd at he
      split at he
      · next hk => cases he; exact keeps_row12 hi hp hk h
      · split at he
        · next hk => cases he; exact keeps_row13 hi hp hk h
        · cases he
    all_goals cases he

theorem keeps_edge {p : Ports} {s t : State} (h : blockOk s = true ∧ deviceOk s = true)
    (he : edge p s = .next t) : blockOk t = true ∧ deviceOk t = true := by
  unfold edge at he
  split at he
  · cases he; simpa using keeps_applyReset s
  · split at he
    · next hi =>
      cases hr : rowAction p s with
      | next u =>
        rw [hr] at he; cases he
        simpa using keeps_rowAction hi h hr
      | fault f => rw [hr] at he; cases he
      | refused f => rw [hr] at he; cases he
    · split at he
      · cases he
      · cases he; exact ⟨rfl, rfl⟩
/-! ## The RAM -/

theorem ramOk_iff (s : State) : ramOk s = storeOk s.dev := rfl

theorem driveClk_storeOk {b : Bool} {s : State} (h : storeOk s.dev = true) : storeOk (driveClk b s).dev = true := by
  unfold driveClk
  split
  · exact devRise_storeOk h
  · split
    · exact devFall_storeOk h
    · exact h

theorem driveRst_storeOk {b : Bool} {s : State} (h : storeOk s.dev = true) : storeOk (driveRst b s).dev = true := by
  unfold driveRst
  split
  · exact (storeOk_seq _ _).trans h
  · split
    · exact devClose_storeOk h
    · exact h

theorem applyReset_storeOk {s : State} (h : storeOk s.dev = true) : storeOk (applyReset s).dev = true := by
  have h1 := driveRst_storeOk (b := false) h
  unfold applyReset
  simp only
  rw [storeOk_seq]
  split
  · exact havoc_storeOk _ _
  · exact h1

theorem drawRegisters_storeOk {s : State} (h : storeOk s.dev = true) : storeOk (drawRegisters s).dev = true := h

theorem unspecified_storeOk {s : State} (h : storeOk s.dev = true) : storeOk (unspecified s).dev = true := by
  unfold unspecified
  refine drawRegisters_storeOk ?_
  simp only
  split
  · exact havoc_storeOk _ _
  · exact h

theorem powerLoss_storeOk {kept : Bool} {n : Nat} {d : Device} (h : storeOk d = true) :
    storeOk (powerLoss kept n d) = true := by
  unfold powerLoss; split
  · exact h
  · exact havoc_storeOk _ _

/-- A loss of main power leaves the RAM canonical. -/
theorem powerUp_storeOk {b : Bool} {s : State} (h : storeOk s.dev = true) : storeOk (powerUp b s).dev = true :=
  drawRegisters_storeOk (s := { s with dev := powerLoss (b && !cutShort s) s.draws s.dev }) (powerLoss_storeOk h)

/-- No row breaks the canonical form. -/
theorem rowAction_storeOk {p : Ports} {s t : State} (h : storeOk s.dev = true) (he : rowAction p s = .next t) :
    storeOk t.dev = true := by
  have h1 := driveClk_storeOk (b := true) h
  have h2 := driveClk_storeOk (b := false) h
  have h3 := driveRst_storeOk (b := false) h
  have h5 (w : ReqWord) : storeOk (row5 w s).dev = true := driveRst_storeOk (b := true) h
  have h8 : storeOk (row16 s).dev = true := by
    unfold row16; simp only; split
    · exact h3
    · exact h3
  unfold rowAction at he
  cases hp : s.ph <;> simp only [hp, timed, leaveTxh, leaveRxd] at he <;> (repeat' split at he) <;> cases he <;>
    first
    | exact h
    | exact h1
    | exact h2
    | exact h5 _
    | exact h8

/-- No edge breaks the canonical form. -/
theorem edge_storeOk {p : Ports} {s t : State} (h : storeOk s.dev = true) (he : edge p s = .next t) :
    storeOk t.dev = true := by
  unfold edge at he
  split at he
  · cases he; exact devPass_storeOk (applyReset_storeOk h)
  · split at he
    · cases hr : rowAction p s with
      | next u => rw [hr] at he; cases he; exact devPass_storeOk (rowAction_storeOk h hr)
      | fault f => rw [hr] at he; cases he
      | refused f => rw [hr] at he; cases he
    · split at he
      · cases he
      · cases he; exact devPass_storeOk (unspecified_storeOk h)

/-! ## Some row always applies -/

/-- In a block whose timer and index are in range a row of R91 applies (41_sequencer R92). -/
theorem rowAction_next {p : Ports} {s : State} (h : blockOk s = true) (hi : s.inited = true) :
    ∃ t, rowAction p s = .next t := by
  simp only [blockOk, hi, Bool.not_true, Bool.false_or, Bool.and_eq_true] at h
  obtain ⟨⟨⟨⟨h1, h2⟩, h3⟩, -⟩, -⟩ := h
  unfold rowAction
  cases hp : s.ph <;> simp [linesOk, hp, Phase.assigned, timerOk, indexOk, Phase.isTimed] at h1 h2 h3 ⊢ <;>
    simp only [timed, leaveTxh, leaveRxd] <;> (repeat' split) <;> first
    | exact ⟨_, rfl⟩
    | (exfalso; simp at *; omega)

/-- A block that has been reset and meets the invariant takes every edge. -/
theorem edge_next_of_blockOk {p : Ports} {s : State} (h : blockOk s = true) (hi : s.inited = true) :
    ∃ t, edge p s = .next t := by
  obtain ⟨t, ht⟩ := rowAction_next (p := p) h hi
  unfold edge
  rw [hi, ht]
  split <;> exact ⟨_, rfl⟩

/-- In IDLE the lines of the phase are the lines at rest. -/
theorem atRest_of_blockOk {s : State} (h : blockOk s = true) (hi : s.inited = true) (hp : s.ph = .idle) : AtRest s := by
  simp [blockOk, hi, linesOk, hp, Phase.active, Phase.clockHigh, Phase.receiving] at h
  exact ⟨hi, hp, h.1.1.1.1.1.1.1, h.1.1.1.1.1.1.2, h.1.1.1.1.1.2⟩

end Sys2Proof.Machine
end

