-- ==== Sys2Proof/Laws/PerInstr.lean ====
section
/-! SUPPORT. Per instruction: its word lies in its row of the opcode table, and is a word of that row's width. -/

namespace Sys2Proof.Laws

/-- The encoding of an instruction is a word of its row: the row's width, and the row's bits under the row's mask. -/
def Encoding.Statement (i : Instr) : Prop :=
  i.row.holds (encode i) = true ∧ tableWord (encode i).bits.1 (encode i).bits.2 = .ok (encode i)

/-- A word is read back from its width and its value. -/
theorem tableWord_bits (w : TableWord) : tableWord w.bits.1 w.bits.2 = .ok w := by
  cases w with
  | req w => simp [TableWord.bits, tableWord, w.isLt]
  | cmd b => simp [TableWord.bits, tableWord, b.isLt]
  | xop w => simp [TableWord.bits, tableWord, w.isLt]

/-- A masked word equals a pattern when each of its bits does. -/
theorem land_eq_of_bits {n : Nat} (w : BitVec n) (mask pattern : Nat) (hp : pattern < 2 ^ n) (hm : mask < 2 ^ n)
    (h : ∀ j, j < n → (w.getLsbD j && mask.testBit j) = pattern.testBit j) : w.toNat &&& mask = pattern := by
  apply Nat.eq_of_testBit_eq
  intro j
  rw [Nat.testBit_and]
  by_cases hj : j < n
  · exact h j hj
  · have e1 := Nat.testBit_lt_two_pow (Nat.lt_of_lt_of_le hp (Nat.pow_le_pow_right (by omega) (Nat.le_of_not_lt hj)))
    have e2 := Nat.testBit_lt_two_pow (Nat.lt_of_lt_of_le hm (Nat.pow_le_pow_right (by omega) (Nat.le_of_not_lt hj)))
    rw [e1, e2, Bool.and_false]

/-- The bits of a request word (30_encoding R68). -/
theorem requestWord_bit (sp : Space) (a : Addr) (d : Dir) (w : Byte) (j : Nat) (h : j < 16) :
    (requestWord sp a d w).getLsbD j =
      if j < 8 then w.getLsbD j else if j = 8 then d.bit.getLsbD 0 else if j < 14 then a.getLsbD (j - 9)
      else if j = 14 then sp.bit.getLsbD 0 else true := by
  simp only [requestWord, BitVec.getLsbD_append]
  interval_cases j <;> simp

/-- The bits of a command byte (30_encoding R64). -/
theorem commandByte_bit (sp : Space) (a : Addr) (d : Dir) (j : Nat) (h : j < 8) :
    (commandByte sp a d).getLsbD j =
      if j = 0 then d.bit.getLsbD 0 else if j < 6 then a.getLsbD (j - 1)
      else if j = 6 then sp.bit.getLsbD 0 else true := by
  simp only [commandByte, BitVec.getLsbD_append]
  interval_cases j <;> simp

/-- A request word in a row. -/
theorem request_statement {i : Instr} {sp : Space} {a : Addr} {d : Dir} {w : Byte} {mask pattern : Nat}
    (he : encode i = .req (requestWord sp a d w)) (hr : i.row = ⟨16, pattern, mask⟩) (hp : pattern < 2 ^ 16)
    (hm : mask < 2 ^ 16) (h : ∀ j, j < 16 → ((requestWord sp a d w).getLsbD j && mask.testBit j) = pattern.testBit j) :
    Encoding.Statement i := by
  refine ⟨?_, tableWord_bits _⟩
  rw [he, hr]
  simp only [Row.holds, TableWord.bits, land_eq_of_bits _ mask pattern hp hm h]
  simp

namespace Encoding

theorem wrclk (a : Addr) (v : Byte) : Statement (.wrclk a v) := by
  refine request_statement rfl rfl (by decide) (by decide) ?_
  intro j hj
  rw [requestWord_bit _ _ _ _ _ hj]
  interval_cases j <;> simp [Dir.bit, Space.bit, Nat.testBit]

theorem rdclk (a : Addr) (x : Byte) : Statement (.rdclk a x) := by
  refine request_statement rfl rfl (by decide) (by decide) ?_
  intro j hj
  rw [requestWord_bit _ _ _ _ _ hj]
  interval_cases j <;> simp [Dir.bit, Space.bit, Nat.testBit]

theorem wrram (a : Addr) (v : Byte) : Statement (.wrram a v) := by
  refine request_statement rfl rfl (by decide) (by decide) ?_
  intro j hj
  rw [requestWord_bit _ _ _ _ _ hj]
  interval_cases j <;> simp [Dir.bit, Space.bit, Nat.testBit]

theorem rdram (a : Addr) (x : Byte) : Statement (.rdram a x) := by
  refine request_statement rfl rfl (by decide) (by decide) ?_
  intro j hj
  rw [requestWord_bit _ _ _ _ _ hj]
  interval_cases j <;> simp [Dir.bit, Space.bit, Nat.testBit]

theorem wrsec (v : Byte) : Statement (.wrsec v) := by
  refine request_statement rfl rfl (by decide) (by decide) ?_
  intro j hj
  rw [requestWord_bit _ _ _ _ _ hj]
  interval_cases j <;> simp [Dir.bit, Space.bit, Nat.testBit]

theorem rdsec (x : Byte) : Statement (.rdsec x) := by
  refine request_statement rfl rfl (by decide) (by decide) ?_
  intro j hj
  rw [requestWord_bit _ _ _ _ _ hj]
  interval_cases j <;> simp [Dir.bit, Space.bit, Nat.testBit]

theorem wrmin (v : Byte) : Statement (.wrmin v) := by
  refine request_statement rfl rfl (by decide) (by decide) ?_
  intro j hj
  rw [requestWord_bit _ _ _ _ _ hj]
  interval_cases j <;> simp [Dir.bit, Space.bit, Nat.testBit]

theorem rdmin (x : Byte) : Statement (.rdmin x) := by
  refine request_statement rfl rfl (by decide) (by decide) ?_
  intro j hj
  rw [requestWord_bit _ _ _ _ _ hj]
  interval_cases j <;> simp [Dir.bit, Space.bit, Nat.testBit]

theorem wrhour (v : Byte) : Statement (.wrhour v) := by
  refine request_statement rfl rfl (by decide) (by decide) ?_
  intro j hj
  rw [requestWord_bit _ _ _ _ _ hj]
  interval_cases j <;> simp [Dir.bit, Space.bit, Nat.testBit]

theorem rdhour (x : Byte) : Statement (.rdhour x) := by
  refine request_statement rfl rfl (by decide) (by decide) ?_
  intro j hj
  rw [requestWord_bit _ _ _ _ _ hj]
  interval_cases j <;> simp [Dir.bit, Space.bit, Nat.testBit]

theorem wrdate (v : Byte) : Statement (.wrdate v) := by
  refine request_statement rfl rfl (by decide) (by decide) ?_
  intro j hj
  rw [requestWord_bit _ _ _ _ _ hj]
  interval_cases j <;> simp [Dir.bit, Space.bit, Nat.testBit]

theorem rddate (x : Byte) : Statement (.rddate x) := by
  refine request_statement rfl rfl (by decide) (by decide) ?_
  intro j hj
  rw [requestWord_bit _ _ _ _ _ hj]
  interval_cases j <;> simp [Dir.bit, Space.bit, Nat.testBit]

theorem wrmon (v : Byte) : Statement (.wrmon v) := by
  refine request_statement rfl rfl (by decide) (by decide) ?_
  intro j hj
  rw [requestWord_bit _ _ _ _ _ hj]
  interval_cases j <;> simp [Dir.bit, Space.bit, Nat.testBit]

theorem rdmon (x : Byte) : Statement (.rdmon x) := by
  refine request_statement rfl rfl (by decide) (by decide) ?_
  intro j hj
  rw [requestWord_bit _ _ _ _ _ hj]
  interval_cases j <;> simp [Dir.bit, Space.bit, Nat.testBit]

theorem wrday (v : Byte) : Statement (.wrday v) := by
  refine request_statement rfl rfl (by decide) (by decide) ?_
  intro j hj
  rw [requestWord_bit _ _ _ _ _ hj]
  interval_cases j <;> simp [Dir.bit, Space.bit, Nat.testBit]

theorem rdday (x : Byte) : Statement (.rdday x) := by
  refine request_statement rfl rfl (by decide) (by decide) ?_
  intro j hj
  rw [requestWord_bit _ _ _ _ _ hj]
  interval_cases j <;> simp [Dir.bit, Space.bit, Nat.testBit]

theorem wryear (v : Byte) : Statement (.wryear v) := by
  refine request_statement rfl rfl (by decide) (by decide) ?_
  intro j hj
  rw [requestWord_bit _ _ _ _ _ hj]
  interval_cases j <;> simp [Dir.bit, Space.bit, Nat.testBit]

theorem rdyear (x : Byte) : Statement (.rdyear x) := by
  refine request_statement rfl rfl (by decide) (by decide) ?_
  intro j hj
  rw [requestWord_bit _ _ _ _ _ hj]
  interval_cases j <;> simp [Dir.bit, Space.bit, Nat.testBit]

theorem reserved (x : BitVec 15) : Statement (.reserved x) := by
  refine ⟨?_, tableWord_bits _⟩
  have h := land_eq_of_bits (0#1 ++ x) 0x8000 0x0000 (by decide) (by decide) (by
    intro j hj
    rw [BitVec.getLsbD_append]
    interval_cases j <;> simp [Nat.testBit])
  simp only [Row.holds, encode, Instr.row, TableWord.bits, h]
  simp

theorem cmdClkWrite (a : Addr) : Statement (.cmdClkWrite a) := by
  refine ⟨?_, tableWord_bits _⟩
  have h := land_eq_of_bits (commandByte .clk a .write) 0xC1 0x80 (by decide) (by decide) (by
    intro j hj
    rw [commandByte_bit _ _ _ _ hj]
    interval_cases j <;> simp [Dir.bit, Space.bit, Nat.testBit])
  simp only [Row.holds, encode, Instr.row, TableWord.bits, h]
  simp

theorem cmdClkRead (a : Addr) : Statement (.cmdClkRead a) := by
  refine ⟨?_, tableWord_bits _⟩
  have h := land_eq_of_bits (commandByte .clk a .read) 0xC1 0x81 (by decide) (by decide) (by
    intro j hj
    rw [commandByte_bit _ _ _ _ hj]
    interval_cases j <;> simp [Dir.bit, Space.bit, Nat.testBit])
  simp only [Row.holds, encode, Instr.row, TableWord.bits, h]
  simp

theorem cmdRamWrite (a : Addr) : Statement (.cmdRamWrite a) := by
  refine ⟨?_, tableWord_bits _⟩
  have h := land_eq_of_bits (commandByte .ram a .write) 0xC1 0xC0 (by decide) (by decide) (by
    intro j hj
    rw [commandByte_bit _ _ _ _ hj]
    interval_cases j <;> simp [Dir.bit, Space.bit, Nat.testBit])
  simp only [Row.holds, encode, Instr.row, TableWord.bits, h]
  simp

theorem cmdRamRead (a : Addr) : Statement (.cmdRamRead a) := by
  refine ⟨?_, tableWord_bits _⟩
  have h := land_eq_of_bits (commandByte .ram a .read) 0xC1 0xC1 (by decide) (by decide) (by
    intro j hj
    rw [commandByte_bit _ _ _ _ hj]
    interval_cases j <;> simp [Dir.bit, Space.bit, Nat.testBit])
  simp only [Row.holds, encode, Instr.row, TableWord.bits, h]
  simp

theorem cmdNeverSent (x : BitVec 7) : Statement (.cmdNeverSent x) := by
  refine ⟨?_, tableWord_bits _⟩
  have h := land_eq_of_bits (0#1 ++ x) 0x80 0x00 (by decide) (by decide) (by
    intro j hj
    rw [BitVec.getLsbD_append]
    interval_cases j <;> simp [Nat.testBit])
  simp only [Row.holds, encode, Instr.row, TableWord.bits, h]
  simp

theorem sendByte (b : Byte) : Statement (.sendByte b) := by
  refine ⟨?_, tableWord_bits _⟩
  have h := land_eq_of_bits (0#1 ++ b) 0x100 0x000 (by decide) (by decide) (by
    intro j hj
    rw [BitVec.getLsbD_append]
    interval_cases j <;> simp [Nat.testBit])
  simp only [Row.holds, encode, Instr.row, TableWord.bits, h]
  simp

theorem recvByte (x : Byte) : Statement (.recvByte x) := by
  refine ⟨?_, tableWord_bits _⟩
  have h := land_eq_of_bits (1#1 ++ x) 0x100 0x100 (by decide) (by decide) (by
    intro j hj
    rw [BitVec.getLsbD_append]
    interval_cases j <;> simp [Nat.testBit])
  simp only [Row.holds, encode, Instr.row, TableWord.bits, h]
  simp

end Encoding

end Sys2Proof.Laws
end

