-- ==== Sys2Proof/Tests/Slice0.lean ====
section
/-! SUPPORT. Tests. Expected values come from spec/95_test_vectors.md and the encoding tables of spec/30_encoding.md; each test
names its source. All run one step on a small state. The second half gives, for every obligation with hypotheses, states and
operands that meet them. -/

namespace Sys2Proof.Machine.Tests

/-! ## Helpers -/

/-- One field of the next state, if the outcome is one. -/
def after {α : Type} (o : Host.Outcome State Fault Refusal) (f : State → α) : Option α :=
  match o with
  | .next s => some (f s)
  | .fault _ | .refused _ => none

/-- The fault, if the outcome is one. -/
def faultOf (o : Host.Outcome State Fault Refusal) : Option Fault :=
  match o with
  | .fault f => some f
  | .next _ | .refused _ => none

/-- A block that has been reset and waits in IDLE; the device is halted; every count N_X is 1. -/
def rest : State := { State.reset with ph := .idle, t := 1 }

/-- The same, with other clock registers. -/
def restWith (c : ClkRegs) : State := { rest with dev := { Device.atReset with clk := c } }

/-- The same, with one RAM byte. -/
def restRam (a : Nat) (v : Byte) : State := { rest with dev := { Device.atReset with ram := [(a, v)] } }

/-- The same, with parameters for which the timing premise fails: the device needs five periods of low clock. -/
def restLate : State := { rest with cfg := { unitConfig with devMinCL := 5 } }

/-- The same, with no device attached. -/
def restAlone : State := { rest with cfg := { unitConfig with attached := false } }

/-- A block never reset since power-up. -/
def unreset : State := { State.reset with inited := false }

/-- An open frame with the device at the given progress. -/
def frame (q : DevSeq) : State := { rest with rstO := true, dev := { Device.atReset with seq := q } }

/-- The device has just seen RST rise. -/
def opened : DevSeq := { DevSeq.closed with inFrame := true }

/-- A write of RAM 0 with its command byte sent, and `din` received. -/
def commandedWrite (n : Nat) (din : Byte) : DevSeq :=
  { opened with rises := n, falls := n, cmd := 0xC0#8, din := din }

/-- A read of RAM 0 with its command byte sent: the device drives `v`. -/
def driving (v : Byte) : DevSeq :=
  { opened with rises := 8, falls := 8, cmd := 0xC1#8, dout := some v }

/-! ## Well-formedness -/

-- Addresses 0 to 6 of the clock space are the named registers (30_encoding R75).
theorem test_wf_wrclk_named : (Instr.wrclk 3#5 0x15#8).wellFormed = false := by decide
theorem test_wf_rdclk_named : (Instr.rdclk 6#5 0x00#8).wellFormed = false := by decide
theorem test_wf_wrclk_seven : (Instr.wrclk 7#5 0x00#8).wellFormed = true := by decide

/-! ## Decoding: words written out from 30_encoding R64, R68, R73, R75 -/

-- M S AAAAA D WWWWWWWW
theorem test_decode_wrclk : decodeTableWord 16 0b1_0_00111_0_00000000 = some (.wrclk 7#5 0x00#8) := by decide
theorem test_decode_rdclk : decodeTableWord 16 0b1_0_11111_1_11111111 = some (.rdclk 31#5 0xFF#8) := by decide
theorem test_decode_wrram : decodeTableWord 16 0b1_1_11110_0_11111111 = some (.wrram 30#5 0xFF#8) := by decide
theorem test_decode_rdram : decodeTableWord 16 0b1_1_00000_1_00000000 = some (.rdram 0#5 0x00#8) := by decide
theorem test_decode_reserved : decodeTableWord 16 0b0_1_11111_1_11111111 = some (.reserved 0x7FFF#15) := by decide
theorem test_decode_wrsec : decodeTableWord 16 0b1_0_00000_0_10000000 = some (.wrsec 0x80#8) := by decide
theorem test_decode_rdsec : decodeTableWord 16 0b1_0_00000_1_10101011 = some (.rdsec 0xAB#8) := by decide
theorem test_decode_wrmin : decodeTableWord 16 0b1_0_00001_0_00110000 = some (.wrmin 0x30#8) := by decide
theorem test_decode_rdmin : decodeTableWord 16 0b1_0_00001_1_00000000 = some (.rdmin 0x00#8) := by decide
theorem test_decode_wrhour : decodeTableWord 16 0b1_0_00010_0_00001001 = some (.wrhour 0x09#8) := by decide
theorem test_decode_rdhour : decodeTableWord 16 0b1_0_00010_1_00000000 = some (.rdhour 0x00#8) := by decide
theorem test_decode_wrdate : decodeTableWord 16 0b1_0_00011_0_00010101 = some (.wrdate 0x15#8) := by decide
theorem test_decode_rddate : decodeTableWord 16 0b1_0_00011_1_00000000 = some (.rddate 0x00#8) := by decide
theorem test_decode_wrmon : decodeTableWord 16 0b1_0_00100_0_00000011 = some (.wrmon 0x03#8) := by decide
theorem test_decode_rdmon : decodeTableWord 16 0b1_0_00100_1_00000000 = some (.rdmon 0x00#8) := by decide
theorem test_decode_wrday : decodeTableWord 16 0b1_0_00101_0_00000110 = some (.wrday 0x06#8) := by decide
theorem test_decode_rdday : decodeTableWord 16 0b1_0_00101_1_00000000 = some (.rdday 0x00#8) := by decide
theorem test_decode_wryear : decodeTableWord 16 0b1_0_00110_0_10011001 = some (.wryear 0x99#8) := by decide
theorem test_decode_rdyear : decodeTableWord 16 0b1_0_00110_1_00000000 = some (.rdyear 0x00#8) := by decide
-- WE RS AAAAA RW
theorem test_decode_cmdClkWrite : decodeTableWord 8 0b1_0_00110_0 = some (.cmdClkWrite 6#5) := by decide
theorem test_decode_cmdClkRead : decodeTableWord 8 0b1_0_11111_1 = some (.cmdClkRead 31#5) := by decide
theorem test_decode_cmdRamWrite : decodeTableWord 8 0b1_1_11110_0 = some (.cmdRamWrite 30#5) := by decide
theorem test_decode_cmdRamRead : decodeTableWord 8 0b1_1_00001_1 = some (.cmdRamRead 1#5) := by decide
theorem test_decode_cmdNeverSent : decodeTableWord 8 0b0_1_00000_1 = some (.cmdNeverSent 0x41#7) := by decide
-- XOP XBXBXBXB
theorem test_decode_sendByte : decodeTableWord 9 0b0_10000001 = some (.sendByte 0x81#8) := by decide
theorem test_decode_recvByte : decodeTableWord 9 0b1_00000000 = some (.recvByte 0x00#8) := by decide
-- No other width and no longer value is a word (30_encoding R72).
theorem test_decode_width : decodeBits 24 0 = .error .noSuchWidth := by decide
theorem test_decode_value : decodeBits 9 512 = .error .tooManyBits := by decide

/-! ## Command generation and the codec (95_test_vectors 2.1, E3, 2.8) -/

theorem test_cmdGen : [cmdGen .clk 31#5 .read, cmdGen .ram 30#5 .write, cmdGen .ram 31#5 .read, cmdGen .clk 6#5 .read]
    = [0xBF#8, 0xFC#8, 0xFF#8, 0x8D#8] := by decide
theorem test_softwareCommand : [softwareCommand .ram 33 .write, softwareCommand .clk 33 .write,
    softwareCommand .ram 100 .write, softwareCommand .clk 30 .write] = [0xC2#8, 0x82#8, 0xC8#8, 0xBC#8] := by decide
theorem test_codec_decode : decodeSeconds 0x7F#8 = 85 ∧ decodeHours 0xA3#8 = 23 ∧ decodeMonth 0x1F#8 = 25
    ∧ decodeDay 0x00#8 = -1 ∧ decodeDay 0xF9#8 = 0 ∧ decodeYear 0xFF#8 = 2165 ∧ getBits 0xB6#8 4 6 = 3 := by decide
theorem test_codec_encode : encodeBCD 60 = 0x60#8 ∧ encodeBCD 200 = 0x40#8 ∧ encodeSeconds 85 true = 0x85#8
    ∧ encodeSeconds 59 false = 0xD9#8 ∧ encodeDay 6 = 0x07#8 ∧ encodeYear 2160 = 0x00#8 := by decide
-- 95_test_vectors 2.7: contents the device does not keep.
theorem test_validContent : validContent .hours 0x24#8 = false ∧ validContent .hours 0x1A#8 = false
    ∧ validContent .day 0x00#8 = false ∧ validContent .month 0x13#8 = false ∧ validContent .date 0x00#8 = false
    ∧ validContent .year 0x9A#8 = false ∧ validContent .seconds 0xD9#8 = true := by decide

/-! ## Requests (95_test_vectors 2.2, 2.4, 2.5, 2.7, programs P1 to P4) -/

-- E6, V-S1: the byte is stored; 36 edges to the next acceptance; IO rests at bit 7 of the byte.
theorem test_wrram : after (exec (.wrram 0#5 0x42#8) rest)
    (fun s => (memRead s.dev.ram 0, s.edges, s.ioO, s.rvalid, s.ph)) = some (0x42#8, 36, false, false, .idle) := by
  decide +kernel
theorem test_wrram_top : after (exec (.wrram 30#5 0xFF#8) rest) (fun s => (s.dev.ram, s.dev.clk == rest.dev.clk))
    = some ([(30, 0xFF#8)], true) := by decide +kernel
-- 2.7: writing the unlisted value leaves nothing listed.
theorem test_wrram_zero : after (exec (.wrram 7#5 0x00#8) (restRam 7 0x11#8)) (fun s => s.dev.ram) = some [] := by
  decide +kernel
-- P4: rdram 5 gives 0x99, with ERR = 1 kept (V-E2); 45 edges to the next acceptance; IO rests at 1.
theorem test_rdram : after (exec (.rdram 5#5 0x00#8) { restRam 5 0x99#8 with err := true })
    (fun s => (s.rdata, s.rvalid, s.err, s.edges, s.ioO, memRead s.dev.ram 5)) = some (0x99#8, true, true, 45, true, 0x99#8) := by
  decide +kernel
-- 2.7: an undocumented address runs in the same time.
theorem test_wrclk_undocumented : after (exec (.wrclk 7#5 0x00#8) rest) (fun s => (s.edges, s.ph, s.cmdr))
    = some (36, .idle, 0x8E#8) := by decide +kernel
theorem test_rdclk_undocumented : after (exec (.rdclk 31#5 0xFF#8) rest) (fun s => (s.edges, s.rvalid, s.cmdr, s.wdr))
    = some (45, true, 0xBF#8, 0xFF#8) := by decide +kernel
-- V-E1.
theorem test_reserved : after (exec (.reserved 0x1234#15) rest)
    (fun s => (s.err, s.edges, s.ph, s.rstO, s.rvalid, s.cmdr)) = some (true, 1, .idle, false, false, 0x00#8) := by decide
theorem test_reserved_busy : after (exec (.reserved 0#15) State.reset) (fun s => (s.err, s.ph)) = some (false, .recover) := by
  decide
-- P1: the seven writes and the seven reads.
theorem test_wrsec : after (exec (.wrsec 0xD9#8) rest) (fun s => s.dev.clk.seconds) = some 0xD9#8 := by decide +kernel
theorem test_wrmin : after (exec (.wrmin 0x30#8) rest) (fun s => (s.dev.clk.minutes, s.dev.clk.seconds))
    = some (0x30#8, 0x80#8) := by decide +kernel
theorem test_wrhour : after (exec (.wrhour 0x23#8) rest) (fun s => s.dev.clk.hours) = some 0x23#8 := by decide +kernel
theorem test_wrdate : after (exec (.wrdate 0x15#8) rest) (fun s => s.dev.clk.date) = some 0x15#8 := by decide +kernel
theorem test_wrmon : after (exec (.wrmon 0x12#8) rest) (fun s => s.dev.clk.month) = some 0x12#8 := by decide +kernel
theorem test_wrday : after (exec (.wrday 0x07#8) rest) (fun s => s.dev.clk.day) = some 0x07#8 := by decide +kernel
theorem test_wryear : after (exec (.wryear 0x99#8) rest) (fun s => s.dev.clk.year) = some 0x99#8 := by decide +kernel

/-- The calendar of program P1. -/
def p1 : State := restWith ⟨0x80#8, 0x30#8, 0x09#8, 0x15#8, 0x03#8, 0x06#8, 0x24#8⟩

theorem test_rdsec : after (exec (.rdsec 0x00#8) p1) (fun s => s.rdata) = some 0x80#8 := by decide +kernel
theorem test_rdmin : after (exec (.rdmin 0x00#8) p1) (fun s => s.rdata) = some 0x30#8 := by decide +kernel
theorem test_rdhour : after (exec (.rdhour 0x00#8) p1) (fun s => s.rdata) = some 0x09#8 := by decide +kernel
theorem test_rddate : after (exec (.rddate 0x00#8) p1) (fun s => s.rdata) = some 0x15#8 := by decide +kernel
theorem test_rdmon : after (exec (.rdmon 0x00#8) p1) (fun s => s.rdata) = some 0x03#8 := by decide +kernel
theorem test_rdday : after (exec (.rdday 0x00#8) p1) (fun s => s.rdata) = some 0x06#8 := by decide +kernel
theorem test_rdyear : after (exec (.rdyear 0x00#8) p1) (fun s => (s.rdata, s.dev.clk == p1.dev.clk)) = some (0x24#8, true) := by
  decide +kernel

/-! ## Command bytes at the device (20_memory R47, R48, R53) -/

theorem test_cmdClkWrite : after (exec (.cmdClkWrite 2#5) (frame (commandedWrite 8 0x23#8))) (fun s => s.dev.clk.hours)
    = some 0x23#8 := by decide
theorem test_cmdClkRead : after (exec (.cmdClkRead 0#5) (frame opened)) (fun s => s.dev.seq.dout) = some (some 0x80#8) := by
  decide
theorem test_cmdRamWrite : after (exec (.cmdRamWrite 30#5) (frame (commandedWrite 8 0xFF#8))) (fun s => s.dev.ram)
    = some [(30, 0xFF#8)] := by decide
theorem test_cmdRamRead : after (exec (.cmdRamRead 0#5) (frame opened)) (fun s => s.dev.seq.dout) = some (some 0x00#8) := by
  decide
theorem test_cmdNeverSent : after (exec (.cmdNeverSent 0x7F#7) (frame opened)) (fun s => s.dev.seq.cmd) = some 0x7F#8 := by
  decide
theorem test_cmd_no_frame : after (exec (.cmdRamWrite 0#5) rest) (fun s => decide (s = rest)) = some true := by decide

/-! ## The transceiver (95_test_vectors 2.3) -/

-- V-T1: sixteen edges, IO rests at bit 7, the device holds the byte.
theorem test_sendByte : after (exec (.sendByte 0x81#8) (frame opened))
    (fun s => (s.edges, s.ioO, s.clkO, s.dev.seq.cmd, s.dev.seq.rises, s.dev.seq.falls)) = some (16, true, false, 0x81#8, 8, 8) := by
  decide +kernel
-- V-T3: forty edges with N_CL = 2, N_CH = 3.
theorem test_sendByte_slow : after (exec (.sendByte 0xA5#8) { frame opened with cfg := { unitConfig with tCL := 2, tCH := 3 } })
    (fun s => (s.edges, s.dev.seq.cmd)) = some (40, 0xA5#8) := by decide +kernel
-- V-T4: twenty-five edges, the driven byte received.
theorem test_recvByte : after (exec (.recvByte 0x00#8) { frame (driving 0x5A#8) with ioOE := false })
    (fun s => (s.rxr, s.edges, s.dev.seq.falls)) = some (0x5A#8, 25, 16) := by decide +kernel
-- V-T5: thirty-four edges with N_CDD = 2.
theorem test_recvByte_slow :
    after (exec (.recvByte 0x00#8) { frame (driving 0x5A#8) with ioOE := false, cfg := { unitConfig with tCDD := 2 } })
      (fun s => (s.rxr, s.edges)) = some (0x5A#8, 34) := by decide +kernel

-- V-T6: with no device attached a read runs in its time, RVALID rises and nothing is reported.
theorem test_read_no_device : after (exec (.rdram 0#5 0x00#8) restAlone) (fun s => (s.rvalid, s.err, s.edges, s.ph))
    = some (true, false, 45, .idle) := by decide +kernel
-- 41_sequencer R89: a write that no device took is not detected.
theorem test_write_no_device : after (exec (.wrram 0#5 0x42#8) restAlone) (fun s => (s.err, s.edges, s.dev.ram))
    = some (false, 36, []) := by decide +kernel
-- 10_state R27: the three lines at their pins.
theorem test_pins : [0, 1, 2, 3].map (pinLevel (frame opened)) = [some false, some false, some true, none] := by decide

/-! ## The edge machine, reset and the host software -/

-- V-R1: RESET, then RECOVER with T = N_CWH, then IDLE.
theorem test_reset_recover : after (edge quiet State.reset) (fun s => (s.ph, s.t, s.rstO)) = some (.recover, 1, false) := by
  decide
theorem test_recover_idle : after (edge quiet { State.reset with ph := .recover, t := 1 }) (fun s => (s.ph, ready s))
    = some (.idle, true) := by decide
-- V-S1, edges 0 and 1.
theorem test_accept : after (edge (present 0xC042#16) rest) (fun s => (s.ph, s.rstO, s.cmdr, s.wdr, s.t))
    = some (.setup, true, 0xC0#8, 0x42#8, 1) := by decide
-- V-R4: the reset wins.
theorem test_reset_wins : after (edge ⟨true, true, 0xC042#16⟩ rest) (fun s => (s.ph, s.cmdr)) = some (.reset, 0x00#8) := by decide
-- 70_reset R142.
theorem test_request_before_reset : faultOf (exec (.wrram 0#5 0x42#8) unreset) = some .requestBeforeReset := by decide
theorem test_edge_before_reset : faultOf (edge (present 0xC042#16) unreset) = some .requestBeforeReset := by decide
-- 48_client_layer R113: no request is issued.
theorem test_range_error : after (step { rest with agenda := [.call (.getRamByte 31)] })
    (fun s => (s.host.rangeError, s.agenda)) = some (true, []) := by decide
-- P3: (0x25 & 0x7F) | 0x80 = 0xA5, and 0xA5 & 0x7F = 0x25.
theorem test_haltByte : haltByte 0x25#8 true = 0xA5#8 ∧ haltByte 0xA5#8 false = 0x25#8 := by decide
-- 70_reset R141: the RAM survives a power loss with backup, and the first reset after it.
theorem test_power_backup : after (step { restRam 5 0x99#8 with agenda := [.powerUp true] })
    (fun s => (s.inited, s.dev.ram)) = some (false, [(5, 0x99#8)]) := by decide
theorem test_cold_reset : after (edge resetPorts { restRam 5 0x99#8 with inited := false })
    (fun s => (s.inited, s.dev.ram)) = some (true, [(5, 0x99#8)]) := by decide
-- A placed word is the next one run, from reset.
theorem test_withFetchWord : after (step (State.reset.withFetchWord 16 0xC042)) (fun s => memRead s.dev.ram 0)
    = some 0x42#8 := by decide +kernel

/-! ## Witnesses: the hypotheses of each obligation can be met -/

theorem rest_atRest : AtRest rest := ⟨rfl, rfl, rfl, rfl, rfl⟩
theorem rest_timely : Timely rest.cfg := ⟨by decide, by decide⟩
theorem p1_atRest : AtRest p1 := ⟨rfl, rfl, rfl, rfl, rfl⟩

/-- V-S1 just before its last CLK rise: the device holds all bits but one. -/
def lastRise : State :=
  { rest with
    ph := .txl, sel := .data, k := 7#4, rstO := true, cmdr := 0xC0#8, wdr := 0x42#8
    dev := { Device.atReset with seq := commandedWrite 15 0x42#8 } }

/-- A read of clock 7 (0x8F) just before the eighth CLK fall. -/
def lastCommandFall : State :=
  { rest with
    ph := .txh, k := 7#4, rstO := true, clkO := true, ioO := true, cmdr := 0x8F#8
    dev := { Device.atReset with seq := { opened with rises := 8, falls := 7, cmd := 0x8F#8 } } }

/-- A read of RAM 0 in HOLD, about to deliver 0x5A. -/
def holding : State :=
  { rest with
    ph := .hold, sel := .data, k := 3#4, rstO := true, ioO := true, cmdr := 0xC1#8, rxr := 0x5A#8
    dev := { Device.atReset with seq := { driving 0x5A#8 with rises := 16, falls := 16 } } }

/-- A read of RAM 0 in RXH, at its first pulse. -/
def readPulse : State :=
  { rest with
    ph := .rxh, sel := .data, rstO := true, clkO := true, ioOE := false, ioO := true, cmdr := 0xC1#8
    dev := { Device.atReset with seq := { driving 0x5A#8 with rises := 9 } } }

/-- An accepted request in SETUP. -/
def accepted : State := { rest with ph := .setup, rstO := true, cmdr := 0x81#8, dev := { Device.atReset with seq := opened } }

theorem rest_inv : MachineInv rest := ⟨by decide, by decide, rfl⟩
theorem lastRise_inv : MachineInv lastRise := ⟨by decide, by decide, rfl⟩
theorem lastCommandFall_inv : MachineInv lastCommandFall := ⟨by decide, by decide, rfl⟩
theorem holding_inv : MachineInv holding := ⟨by decide, by decide, rfl⟩
theorem readPulse_inv : MachineInv readPulse := ⟨by decide, by decide, rfl⟩
theorem accepted_inv : MachineInv accepted := ⟨by decide, by decide, rfl⟩

theorem test_witness_ResetEdge : resetPorts.resetIn = true ∧ quiet.resetIn = false
    ∧ rest.inited = true ∧ rest.rstO = false ∧ rest.ph.active = false ∧ unreset.inited = false ∧ unreset.rstO = false := by decide

theorem test_witness_ResetReleaseTime : resetPorts.resetIn = true ∧ noReset [] = true ∧ [quiet].length = 1 ∧ noReset [quiet, quiet] = true
    ∧ [quiet, quiet].length ≤ nCWH rest.cfg + 1 ∧ [quiet, quiet].length = nCWH rest.cfg + 1
    ∧ reqMarker 0xC042#16 = true ∧ 0 < unitConfig.tSys := by decide

theorem test_witness_AbortedTransaction : blockOk readPulse = true ∧ readPulse.inited = true
    ∧ readPulse.ph.active = true ∧ readPulse.ph = .rxh ∧ blockOk lastCommandFall = true ∧ lastCommandFall.ph = .txh
    ∧ lastCommandFall.ph.active = true ∧ lastCommandFall.inited = true
    ∧ blockOk rest = true ∧ rest.ph.active = false ∧ resetPorts.resetIn = true ∧ quiet.resetIn = false := by decide

theorem test_witness_RequestBeforeReset : isRequest (.wrsec 0x00#8) = true ∧ unreset.inited = false
    ∧ (present 0x8000#16).resetIn = false ∧ (present 0x8000#16).reqValid = true ∧ resetPorts.resetIn = true
    ∧ (∀ b, let s := { rest with agenda := [.powerUp b] }
      s.probe = none ∧ s.agenda = .powerUp b :: [] ∧ cutShort s = false)
    ∧ unreset.rstO = false ∧ after (edge quiet unreset) (fun s => s.dev.ram) = some []
    ∧ after (edge resetPorts unreset) (fun s => s.dev.ram) = some [] := by decide

theorem test_witness_IdleEdge : rest.inited = true ∧ rest.ph = .idle ∧ quiet.resetIn = false ∧ quiet.reqValid = false
    ∧ (present 0xC042#16).reqValid = true ∧ (present 0xC042#16).req.getLsbD 15 = true
    ∧ (present 0x1234#16).reqValid = true ∧ (present 0x1234#16).req.getLsbD 15 = false := by decide

theorem test_witness_PortsIgnoredOutsideIdle : quiet.resetIn = false ∧ (present 0xC100#16).resetIn = false
    ∧ lastRise.inited = true ∧ lastRise.ph ≠ .idle ∧ isRequest (.rdram 0#5 0x00#8) = true := by decide

theorem test_witness_CommandHeld : rest.inited = true ∧ rest.ph = .idle ∧ reqMarker 0xC100#16 = true
    ∧ reqDir 0xC100#16 = .read ∧ reqDir 0xC042#16 = .write
    ∧ quiet.resetIn = false ∧ lastRise.inited = true ∧ lastRise.ph.active = true
    ∧ (after (edge quiet lastRise) (fun s => s.ph)).isSome = true := by decide

theorem test_witness_TimedPhases :
    (quiet.resetIn = false ∧ lastRise.inited = true ∧ after (edge quiet lastRise) (fun s => s.ph) = some .txh
      ∧ Phase.txh ≠ lastRise.ph ∧ Phase.txh.isTimed = true ∧ lastRise.t = 1 ∧ lastRise.ph.isTimed = true)
    ∧ (noReset [quiet, quiet] = true ∧ [quiet, quiet].length < { lastRise with t := 3 }.t) := by decide

/-- A block that has been reset, in a phase, with a count, an index and a command byte. -/
def at_ (ph : Phase) (t : Nat) (k : BitVec 4) (sel : Sel) (cmdr : Byte) : State :=
  { rest with ph := ph, t := t, k := k, sel := sel, cmdr := cmdr }

/-- A read in RXD after its last pulse: the row that follows is 13. -/
def lastWait : State :=
  { readPulse with
    ph := .rxd, k := 8#4, clkO := false
    dev := { Device.atReset with seq := { driving 0x5A#8 with rises := 16, falls := 16 } } }

theorem lastWait_inv : MachineInv lastWait := ⟨by decide, by decide, rfl⟩

theorem test_witness_RowTable :
    (∀ ph ∈ [Phase.recover, .setup, .txl, .txh, .rxd, .rxl, .rxh, .hold], ph.isTimed = true
      ∧ (at_ ph 2 0#4 .cmd 0x80#8).inited = true ∧ 1 < (at_ ph 2 0#4 .cmd 0x80#8).t
      ∧ (at_ ph 1 0#4 .cmd 0x80#8).ph = ph ∧ (at_ ph 1 0#4 .cmd 0x80#8).t = 1)
    ∧ State.reset.ph = .reset ∧ State.reset.inited = true ∧ quiet.resetIn = false ∧ quiet.reqValid = false
    ∧ (present 0xC042#16).reqValid = true ∧ reqMarker 0xC042#16 = true ∧ reqMarker 0x1234#16 = false
    ∧ (at_ .txh 1 6#4 .cmd 0x80#8).k.toNat < 7 ∧ (at_ .txh 1 7#4 .cmd 0x80#8).k.toNat = 7
    ∧ (at_ .txh 1 7#4 .cmd 0x80#8).cmdr.getLsbD 0 = false ∧ (at_ .txh 1 7#4 .cmd 0x81#8).cmdr.getLsbD 0 = true
    ∧ (at_ .txh 1 7#4 .data 0x80#8).sel = .data ∧ (at_ .rxd 1 7#4 .data 0x81#8).k.toNat ≤ 7
    ∧ (at_ .rxd 1 8#4 .data 0x81#8).k.toNat = 8
    ∧ after (edge quiet lastWait) (fun s => (s.ph, s.ioOE, s.t)) = some (.hold, true, 1) := by decide

theorem test_witness_LinesChangeClockLow : quiet.resetIn = false ∧ holding.inited = true ∧ blockOk holding = true
    ∧ after (edge quiet holding) (fun s => s.rstO) = some false ∧ holding.rstO = true
    ∧ blockOk accepted = true ∧ after (edge quiet accepted) (fun s => s.ioO) = some true ∧ accepted.ioO = false
    ∧ blockOk lastCommandFall = true ∧ lastCommandFall.ioOE = true
    ∧ after (edge quiet lastCommandFall) (fun s => s.ioOE) = some false := by decide

theorem test_witness_ErrFlag : rest.inited = true
    ∧ after (edge (present 0x1234#16) rest) (fun s => s.err) = some true
    ∧ after (edge quiet { rest with err := true }) (fun s => s.err) = some true
    ∧ after (edge resetPorts { rest with err := true }) (fun s => s.err) = some false
    ∧ after (exec (.reserved 0x1234#15) rest) (fun s => s.err) = some true
    ∧ after (exec (.cmdRamRead 0#5) rest) (fun s => s.err) = some false := by decide

theorem test_witness_ResponseRegisters : holding.inited = true
    ∧ after (edge quiet holding) (fun s => (s.rdata, s.rvalid, s.rstO)) = some (0x5A#8, true, false)
    ∧ after (edge (present 0xC042#16) { rest with rvalid := true }) (fun s => s.rvalid) = some false
    ∧ after (edge resetPorts holding) (fun s => (s.rdata, s.rvalid)) = some (0x00#8, false)
    ∧ after (edge quiet { rest with rvalid := true, rdata := 0x11#8 }) (fun s => (s.rdata, s.rvalid)) = some (0x11#8, true)
    ∧ holding.ph = .hold ∧ holding.t = 1
    ∧ after (step holding) (fun s => (s.inited, s.rvalid)) = some (true, true) := by decide

theorem test_witness_PhaseTable : MachineInv rest ∧ rest.inited = true ∧ rest.ph = .idle ∧ MachineInv lastCommandFall
    ∧ lastCommandFall.ph = .txh ∧ MachineInv readPulse ∧ readPulse.ph = .rxh :=
  ⟨rest_inv, rfl, rfl, lastCommandFall_inv, rfl, readPulse_inv, rfl⟩

theorem test_witness_CommandByte : (0x8100#16 : ReqWord).getLsbD 15 = true := by decide

theorem test_witness_DecodeEncode : (Instr.wrclk 7#5 0x00#8).wellFormed = true ∧ (Instr.rdclk 31#5 0xFF#8).wellFormed = true
    ∧ (Instr.wryear 0x99#8).wellFormed = true ∧ (Instr.recvByte 0x01#8).wellFormed = true := by decide

theorem test_witness_WordClasses : (0x80#8 : Byte).getLsbD 7 = true ∧ (0xFF#8 : Byte).getLsbD 7 = true := by decide

theorem test_witness_StepRunsDecoded :
    { rest with probe := some (Probe.xop 0x181#9) }.probe = some (.xop 0x181#9)
    ∧ { rest with probe := some (Probe.cmd 0xC0#8) }.probe = some (.cmd 0xC0#8)
    ∧ { rest with agenda := [Move.request 0xC042#16] }.probe = none
    ∧ { rest with agenda := [Move.request 0xC042#16] }.agenda = .request 0xC042#16 :: [] := by decide

theorem test_witness_ReservedRefused : rest.inited = true ∧ rest.ph = .idle := by decide

theorem test_witness_WriteRam : AtRest rest ∧ inContract rest.cfg = true ∧ ramOk rest = true ∧ (0#5 : Addr).toNat < 31
    ∧ (30#5 : Addr).toNat < 31 ∧ (1 : Nat) ≠ (0#5 : Addr).toNat ∧ halted rest.dev.clk = true :=
  ⟨rest_atRest, by decide, by decide, by decide, by decide, by decide, by decide⟩

theorem test_witness_WriteClock : AtRest rest ∧ inContract rest.cfg = true := ⟨rest_atRest, by decide⟩

theorem test_witness_WriteUndocumented : AtRest rest ∧ inContract rest.cfg = true
    ∧ (Space.clk = .clk ∧ 7 ≤ (7#5 : Addr).toNat) ∧ (Space.clk = .clk ∧ 7 ≤ (31#5 : Addr).toNat)
    ∧ (Space.ram = .ram ∧ (31#5 : Addr).toNat = 31) :=
  ⟨rest_atRest, by decide, by decide, by decide, by decide⟩

theorem test_witness_ReadRam : AtRest rest ∧ Timely rest.cfg ∧ (0#5 : Addr).toNat < 31 ∧ (30#5 : Addr).toNat < 31 :=
  ⟨rest_atRest, rest_timely, by decide, by decide⟩

theorem test_witness_ReadClock : AtRest p1 ∧ Timely p1.cfg ∧ halted p1.dev.clk = true :=
  ⟨p1_atRest, rest_timely, by decide⟩

theorem test_witness_ReadUndocumented : AtRest rest ∧ Timely rest.cfg
    ∧ (Space.clk = .clk ∧ 7 ≤ (7#5 : Addr).toNat) ∧ (Space.ram = .ram ∧ (31#5 : Addr).toNat = 31) :=
  ⟨rest_atRest, rest_timely, by decide, by decide⟩

theorem test_witness_TimingViolated : (AtRest restLate ∧ outOfTime restLate.cfg = true)
    ∧ (AtRest restAlone ∧ restAlone.cfg.attached = false) :=
  ⟨⟨⟨rfl, rfl, rfl, rfl, rfl⟩, by decide⟩, ⟨rfl, rfl, rfl, rfl, rfl⟩, rfl⟩

theorem test_witness_ReadIgnoresData : AtRest rest ∧ after (exec (readInstr .ram 0#5 0xAB#8) rest) (fun s => s.wdr) = some 0xAB#8 :=
  ⟨rest_atRest, by decide +kernel⟩

theorem test_witness_LineLevelAgrees : AtRest rest ∧ noReset (List.replicate 44 quiet) = true
    ∧ (reqMarker 0x1234#16 = false ∧ reqDir 0x8100#16 = .read ∧ reqDir 0xC042#16 = .write)
    ∧ (List.replicate 44 quiet).length = readCycles rest.cfg
    ∧ (List.replicate 35 quiet).length = writeCycles rest.cfg :=
  ⟨rest_atRest, by decide, by decide, by decide, by decide⟩

theorem test_witness_LineTraces : AtRest rest ∧ reqMarker 0xC042#16 = true ∧ reqMarker 0x8100#16 = true
    ∧ noReset (List.replicate 35 quiet) = true ∧ reqDir 0xC042#16 = .write
    ∧ (List.replicate 35 quiet).length = writeCycles rest.cfg
    ∧ reqDir 0x8100#16 = .read ∧ (List.replicate 44 quiet).length = readCycles rest.cfg :=
  ⟨rest_atRest, by decide, by decide, by decide, by decide, by decide, by decide, by decide⟩

theorem test_witness_ReadsBack : AtRest rest ∧ Timely rest.cfg ∧ ramOk rest = true ∧ (30#5 : Addr).toNat < 31
    ∧ halted rest.dev.clk = true ∧ validContent .seconds 0xD9#8 = true ∧ (0xD9#8 : Byte).getLsbD 7 = true
    ∧ validContent .hours 0x23#8 = true ∧ ClkReg.hours ≠ .seconds :=
  ⟨rest_atRest, rest_timely, by decide, by decide, by decide, by decide, by decide, by decide, by decide⟩

theorem test_witness_ContentsChangeOnce_write : MachineInv lastRise ∧ lastRise.inited = true ∧ inContract lastRise.cfg = true
    ∧ quiet.resetIn = false ∧ after (edge quiet lastRise) (fun s => s.dev.ram) = some [(0, 0x42#8)]
    ∧ (lastRise.ph = .txl ∧ lastRise.t = 1 ∧ lastRise.sel = .data ∧ lastRise.k = 7#4) :=
  ⟨lastRise_inv, rfl, by decide, rfl, by decide, by decide⟩

theorem test_witness_ContentsChangeOnce_read : MachineInv lastCommandFall ∧ inContract lastCommandFall.cfg = true
    ∧ after (edge quiet lastCommandFall) (fun s => s.dev.seq.falls) = some 8
    ∧ (lastCommandFall.ph = .txh ∧ lastCommandFall.t = 1 ∧ lastCommandFall.sel = .cmd ∧ lastCommandFall.k = 7#4
      ∧ isRead lastCommandFall.cmdr = true
      ∧ locate (cmdSpace lastCommandFall.cmdr) (cmdAddr lastCommandFall.cmdr) = .undocumented) :=
  ⟨lastCommandFall_inv, by decide, by decide, by decide⟩

theorem test_witness_ContentsChangeOnce_other : MachineInv holding ∧ inContract holding.cfg = true
    ∧ after (edge quiet holding) (fun s => s.dev.ram) = some [] ∧ holding.ph ≠ .txl ∧ holding.ph ≠ .txh :=
  ⟨holding_inv, by decide, by decide, by decide, by decide⟩

/-- The same write as lastRise, with no device attached. -/
def lastRiseAlone : State := { lastRise with cfg := restAlone.cfg }

theorem test_witness_ContentsChangeOnce_alone : MachineInv lastRiseAlone ∧ lastRiseAlone.cfg.attached = false
    ∧ lastRiseAlone.inited = true ∧ after (edge quiet lastRiseAlone) (fun s => s.dev.ram) = some [] :=
  ⟨⟨by decide, by decide, rfl⟩, rfl, rfl, by decide⟩

-- The frame has been open for one cycle, as after the wait N_CC of 41_sequencer R89.
theorem test_witness_SendCommandByte :
    let s := frame { opened with sinceFall := 1 }
    s.rstO = true ∧ s.clkO = false ∧ s.ioOE = true ∧ s.dev.seq.inFrame = true ∧ s.dev.seq.rises = 0 ∧ s.dev.seq.falls = 0
      ∧ s.dev.seq.dout = none
      ∧ (0xC0#8 : Byte).getLsbD 7 = true ∧ (0xC0#8 : Byte).getLsbD 0 = false ∧ (0xC1#8 : Byte).getLsbD 7 = true := by decide

theorem test_witness_SendDataByte :
    let s := frame (commandedWrite 8 0x00#8)
    s.rstO = true ∧ s.clkO = false ∧ s.ioOE = true ∧ inContract s.cfg = true ∧ s.dev.seq.inFrame = true
      ∧ s.dev.seq.rises = 8 ∧ s.dev.seq.falls = 8 ∧ s.dev.seq.cmd = 0xC0#8
      ∧ (0xC0#8 : Byte).getLsbD 7 = true ∧ (0xC0#8 : Byte).getLsbD 0 = false := by decide

theorem test_witness_ReceiveByte :
    let s := { frame { driving 0x5A#8 with sinceFall := 1 } with ioOE := false }
    s.rstO = true ∧ s.clkO = false ∧ s.ioOE = false ∧ Timely s.cfg ∧ s.dev.seq.inFrame = true
      ∧ s.dev.seq.rises = 8 ∧ s.dev.seq.falls = 8 ∧ s.dev.seq.cmd.getLsbD 0 = true ∧ s.dev.seq.dout = some 0x5A#8 :=
  ⟨rfl, rfl, rfl, rest_timely, rfl, rfl, rfl, by decide, rfl⟩

theorem test_witness_ReceiveByte_alone :
    let s := { frame opened with ioOE := false, cfg := restAlone.cfg }
    s.rstO = true ∧ s.clkO = false ∧ s.ioOE = false ∧ inContract s.cfg = false ∧ s.cfg.attached = false
      ∧ inContract restLate.cfg = false := by decide

theorem test_witness_CommandWrites : (frame opened).rstO = true ∧ inContract (frame opened).cfg = true
    ∧ ramOk (frame opened) = true ∧ (0#5 : Addr).toNat < 31 ∧ (30#5 : Addr).toNat < 31 := by decide

theorem test_witness_CommandReads : (frame opened).rstO = true ∧ inContract (frame opened).cfg = true
    ∧ (30#5 : Addr).toNat < 31 := by decide

theorem test_witness_CommandsHavoc : (frame opened).rstO = true ∧ (frame opened).cfg.attached = true
    ∧ 7 ≤ (7#5 : Addr).toNat ∧ (31#5 : Addr).toNat = 31
    ∧ (let s := { frame opened with cfg := restLate.cfg }
      s.rstO = true ∧ s.cfg.attached = true ∧ premise s.cfg = false) := by decide

theorem test_witness_DeviceNeedsFrame : rest.rstO = false ∧ (frame opened).rstO = true
    ∧ restAlone.cfg.attached = false := by decide

theorem test_witness_Timekeeping : halted rest.dev.clk = true
    ∧ halted (restWith ⟨0x59#8, 0#8, 0#8, 1#8, 1#8, 1#8, 0#8⟩).dev.clk = false := by decide

theorem test_witness_CycleCounts : (0 : Nat) < 3 ∧ (1 : Nat) ≤ 3 ∧ 7 ≤ 3 * 3 ∧ maxCount unitConfig + 1 ≤ 2 ^ 1 := by decide

theorem test_witness_TimingPremise : 0 < unitConfig.tSys ∧ unitConfig.devMinCL ≤ unitConfig.tCL
    ∧ unitConfig.devMinCH ≤ unitConfig.tCH ∧ unitConfig.devMinCDD ≤ unitConfig.tCDD ∧ unitConfig.devMinCC ≤ unitConfig.tCC
    ∧ unitConfig.devMinCCH ≤ unitConfig.tCCH ∧ unitConfig.devMinCWH ≤ unitConfig.tCWH := by decide

theorem test_witness_InvariantKept : MachineInv holding ∧ after (step holding) (fun s => s.ph) = some .recover :=
  ⟨holding_inv, by decide⟩

theorem test_witness_RamCanonical : ramOk lastRise = true ∧ after (step lastRise) (fun s => s.dev.ram) = some [(0, 0x42#8)] := by
  decide

theorem test_witness_NeverStalls : MachineInv readPulse ∧ readPulse.inited = true := ⟨readPulse_inv, rfl⟩

theorem test_witness_ConfigFixed : after (step holding) (fun s => decide (s.cfg = holding.cfg)) = some true := by decide

theorem test_witness_RequestsEnd :
    let s := { rest with agenda := [0xC042#16, 0x1234#16, 0xC100#16].map Move.request }
    AtRest s ∧ s.probe = none ∧ s.agenda = [0xC042#16, 0x1234#16, 0xC100#16].map Move.request :=
  ⟨rest_atRest, rfl, rfl⟩

theorem test_witness_CodecFormulas : (2000 : Nat) ≤ 2000 := by decide

/-- The Datetime of 95_test_vectors E5. -/
def e5 : Datetime := ⟨2024, 3, 15, 9, 30, 0, 5⟩

theorem test_witness_CodecRoundTrip : (59 : Nat) ≤ 59 ∧ (23 : Nat) ≤ 23 ∧ (1 : Nat) ≤ 31 ∧ (31 : Nat) ≤ 31 ∧ (12 : Nat) ≤ 12
    ∧ (6 : Nat) ≤ 6 ∧ (2000 : Nat) ≤ 2099 ∧ e5.inRange = true
    ∧ (⟨2099, 12, 31, 23, 59, 59, 6⟩ : Datetime).inRange = true := by decide

theorem test_witness_RangeChecked :
    let bad : Datetime := { e5 with day := 7 }
    { rest with agenda := [.call (.setupDatetime bad)] }.agenda = .call (.setupDatetime bad) :: []
    ∧ rest.probe = none ∧ ¬ (0 ≤ bad.day ∧ bad.day ≤ 6) ∧ ¬ ((0 : Int) ≤ 31 ∧ (31 : Int) ≤ 30) ∧ ¬ ((0 : Int) ≤ -1 ∧ (-1 : Int) ≤ 30) := by
  decide

theorem test_witness_FacadeRequests : e5.inRange = true ∧ (30 : Nat) ≤ 30 := by decide

theorem test_witness_StartUp : Timely unreset.cfg ∧ unreset.probe = none
    ∧ { unreset with agenda := [.call .startUp] }.agenda = [.call .startUp] :=
  ⟨rest_timely, rfl, rfl⟩

/-- Program P3's device: it runs, at 25 seconds. -/
def p3 : State := { restWith ⟨0x25#8, 0x30#8, 0x09#8, 0x15#8, 0x03#8, 0x06#8, 0x24#8⟩ with agenda := [.call (.setClockHaltBit true)] }

theorem test_witness_SetClockHaltBit :
    (AtRest p1 ∧ Timely p1.cfg ∧ p1.probe = none
      ∧ { p1 with agenda := [.call (.setClockHaltBit false)] }.agenda = [.call (.setClockHaltBit false)]
      ∧ halted p1.dev.clk = true ∧ validContent .seconds p1.dev.clk.seconds = true)
    ∧ (AtRest p3 ∧ Timely p3.cfg ∧ p3.probe = none ∧ p3.agenda = [.call (.setClockHaltBit true)]
      ∧ halted p3.dev.clk = false ∧ validContent .seconds 0x25#8 = true) :=
  ⟨⟨p1_atRest, rest_timely, rfl, rfl, by decide, by decide⟩,
    ⟨rfl, rfl, rfl, rfl, rfl⟩, rest_timely, rfl, rfl, by decide, by decide⟩

theorem test_witness_DatetimeReadsBack : AtRest rest ∧ Timely rest.cfg ∧ rest.probe = none
    ∧ { rest with agenda := [.call (.setupDatetime e5), .call .getDatetime] }.agenda
      = [.call (.setupDatetime e5), .call .getDatetime]
    ∧ e5.inRange = true ∧ halted rest.dev.clk = true ∧ rest.host.running = false :=
  ⟨rest_atRest, rest_timely, rfl, rfl, by decide, by decide, by decide⟩

end Sys2Proof.Machine.Tests
end

section
/-! SUPPORT. The scope of the model (00_scope R6, R9, R10): the counts are the least that cover their delays, the timing premise,
and the line level agrees with the transaction level. -/

namespace Sys2Proof.Machine

/-! ## Counts -/

/-- No smaller number of cycles, at least one, covers the delay (00_scope R9). -/
theorem cycles_least {tX tSys n : Nat} (h : 0 < tSys) (h1 : 1 ≤ n) (hn : tX ≤ n * tSys) : cycles tX tSys ≤ n := by
  have hlt : tX + tSys - 1 < (n + 1) * tSys := by rw [Nat.succ_mul]; omega
  exact max_le h1 (Nat.le_of_lt_succ ((Nat.div_lt_iff_lt_mul h).mpr hlt))

theorem maxCount_ne_zero (c : Config) : maxCount c ≠ 0 := by
  have h1 := nCL_pos c
  have h2 := nCL_le c
  omega

/-- No narrower timer holds the largest count (00_scope R9). -/
theorem timerWidth_least {c : Config} {w : Nat} (h : maxCount c + 1 ≤ 2 ^ w) : timerWidth c ≤ w :=
  (Nat.log2_lt (maxCount_ne_zero c)).mpr h

/-- Settles O46: rounding up covers the delay and one cycle less would not; the binary logarithm gives the width. -/
theorem cycleCounts : Obligations.CycleCounts :=
  ⟨fun tX tSys h => ⟨cycles_pos tX tSys, cycles_covers tX h, fun _ h1 hn => cycles_least h h1 hn⟩,
    fun c => ⟨rfl, rfl, rfl, rfl, rfl, rfl, maxCount_lt c, fun _ => timerWidth_least⟩⟩

/-! ## The timing premise -/

theorem premise_iff (c : Config) : premise c = true ↔
    c.devMinCL ≤ nCL c * c.tSys ∧ c.devMinCH ≤ nCH c * c.tSys ∧ c.devMinCDD ≤ nCDD c * c.tSys
      ∧ c.devMinCC ≤ nCC c * c.tSys ∧ c.devMinCCH ≤ nCCH c * c.tSys ∧ c.devMinCWH ≤ nCWH c * c.tSys := by
  simp only [premise, Bool.and_eq_true, decide_eq_true_eq, and_assoc]

/-- Settles O47: each count covers its delay, so it covers a minimum that is no longer. -/
theorem timingPremise : Obligations.TimingPremise := by
  refine fun c => ⟨premise_iff c, fun h hCL hCH hCDD hCC hCCH hCWH => (premise_iff c).mpr ?_⟩
  exact ⟨hCL.trans (cycles_covers _ h), hCH.trans (cycles_covers _ h), hCDD.trans (cycles_covers _ h),
    hCC.trans (cycles_covers _ h), hCCH.trans (cycles_covers _ h), hCWH.trans (cycles_covers _ h)⟩

/-! ## What a request word means -/

/-- A named calendar register is the numbered one at its address (30_encoding R75). -/
theorem exec_decodeClock (a : Addr) (d : Dir) (w : Byte) (s : State) :
    exec (decodeClock a d w) s = whenTaken (transaction .clk a d w) s := by
  obtain ⟨a, ha⟩ := a
  cases d <;> interval_cases a <;> rfl

theorem exec_decodeRam (a : Addr) (d : Dir) (w : Byte) (s : State) :
    exec (decodeRam a d w) s = whenTaken (transaction .ram a d w) s := by
  cases d <;> rfl

/-- A request word with M = 1 is the transaction its fields name (30_encoding R68, R69). -/
theorem exec_decodeRequest {w : ReqWord} (hm : reqMarker w = true) (s : State) :
    exec (decodeRequest w) s = whenTaken (transaction (reqSpace w) (reqAddr w) (reqDir w) (reqData w)) s := by
  have hw : w.getLsbD 15 = true := hm
  unfold decodeRequest reqSpace
  rw [if_pos hw]
  cases spaceOfBit (w.getLsbD 14) with
  | clk => exact exec_decodeClock ..
  | ram => exact exec_decodeRam ..

theorem exec_reserved {x : BitVec 15} {s : State} (hs : AtRest s) : exec (.reserved x) s = .next (advance (refuse s)) :=
  whenTaken_atRest (f := fun s => advance (refuse s)) hs

/-- A reserved word at rest is refused in one edge, at both levels (60_exceptions R124). -/
theorem edge_reserved {w : ReqWord} {s : State} (hs : AtRest s) (hm : reqMarker w = false) :
    edge (present w) s = exec (decodeRequest w) s := by
  have ⟨hi, hp, _⟩ := hs
  have hw : ¬ w.getLsbD 15 = true := by simpa [reqMarker] using hm
  have hrow : rowAction (present w) s = .next (row4 s) := by simp [rowAction, hp, present, hm]
  rw [edge_run rfl hi, hrow, decodeRequest, if_neg hw, exec_reserved hs]
  rfl

/-! ## Rows of edges, put one after another -/

theorem runEdges_singleton (p : Ports) (s : State) : runEdges [p] s = edge p s := by
  rw [runEdges]
  cases edge p s <;> rfl

/-- Any `n` edges without a reset lead from `s` to `t`, whatever stands on the request ports. -/
def LeadsTo (n : Nat) (s t : State) : Prop :=
  ∀ ps : List Ports, noReset ps = true → ps.length = n → runEdges ps s = .next t

theorem LeadsTo.trans {n m k : Nat} {s t u : State} (h : LeadsTo n s t) (g : LeadsTo m t u) (hk : n + m = k) :
    LeadsTo k s u := by
  intro ps hr hn
  obtain ⟨p, q, rfl, hp, hq⟩ := split_list (hn.trans hk.symm)
  rw [noReset_append, Bool.and_eq_true] at hr
  rw [runEdges_append (h p hr.1 hp), g q hr.2 hq]

/-! ## The parts of a transaction -/

/-- A block that has been reset is in a transaction with CLK low, and drives IO if `out` (10_state R15). -/
structure InFrame (out : Bool) (s : State) : Prop where
  inited : s.inited = true
  rst : s.rstO = true
  clk : s.clkO = false
  dir : s.ioOE = out

theorem begun_inFrame {s : State} (hs : AtRest s) (sp : Space) (a : Addr) (d : Dir) (w : Byte) :
    InFrame true (begun sp a d w s) := by
  obtain ⟨hr, hc, ho⟩ := begun_lines (sp := sp) (a := a) (d := d) (w := w) hs
  exact ⟨by simp [begun, hs.1], hr, hc, ho⟩

/-- From acceptance to the first bit of the command byte. -/
theorem accept_leadsTo {s : State} (hs : AtRest s) (sp : Space) (a : Addr) (d : Dir) (w : Byte) :
    LeadsTo (nCC s.cfg) (advance (accept sp a d w s)) (advance (slot (cmdGen sp a d) 0 (begun sp a d w s))) :=
  fun _ hr hn => setup_edges hr hs hn

theorem InFrame.sendByte_eq {s : State} (hs : InFrame true s) (b : Byte) : sendByte b s = afterSend b 7 s :=
  sendByte_afterSend hs.rst hs.clk hs.dir

theorem InFrame.recvByte_eq {s : State} (hs : InFrame false s) : recvByte s = received s :=
  Machine.recvByte_eq hs.rst hs.clk hs.dir

/-- A byte ends with the CLK fall after its eighth high time (40_transceiver R80). -/
theorem driveClk_sendHigh_seven {s : State} (hs : InFrame true s) (b : Byte) :
    driveClk false (sendHigh b 7 (prev b 7 s)) = sendByte b s := by
  rw [← sendBit_high, sendBit_prev hs.rst hs.clk hs.dir, hs.sendByte_eq]

/-- A byte, from its first bit to the row that leaves its last high time. -/
theorem slot_leadsTo {s u : State} (hs : InFrame true s) {b : Byte} (hb : selectedByte s = b)
    (hu : leaveTxh (sendHigh b 7 (prev b 7 s)) = .next u) :
    LeadsTo (8 * bitCycles s.cfg) (advance (slot b 0 s)) (advance u) := by
  intro ps hps hn
  rw [send_edges hps hs.inited hs.rst hs.clk hs.dir hb (Nat.le_refl 7) hn, hu]
  rfl

/-- The command byte of a write has been sent (41_sequencer R89). -/
def writeCommanded (s : State) : State :=
  { sendByte s.cmdr s with sel := .data }

/-- The command byte of a read has been sent, and the block has let go of IO (41_sequencer R90). -/
def readCommanded (s : State) : State :=
  { setDir false (sendByte s.cmdr s) with sel := .data }

theorem writeCommanded_eq {s : State} (hs : InFrame true s) :
    writeCommanded s = { afterSend s.cmdr 7 s with sel := .data } := by
  rw [writeCommanded, hs.sendByte_eq]

theorem readCommanded_eq {s : State} (hs : InFrame true s) :
    readCommanded s = { setDir false (afterSend s.cmdr 7 s) with sel := .data } := by
  rw [readCommanded, hs.sendByte_eq]

theorem writeCommanded_inFrame {s : State} (hs : InFrame true s) : InFrame true (writeCommanded s) := by
  rw [writeCommanded_eq hs]
  exact ⟨hs.inited, hs.rst, hs.clk, hs.dir⟩

theorem readCommanded_inFrame {s : State} (hs : InFrame true s) : InFrame false (readCommanded s) := by
  rw [readCommanded_eq hs]
  exact ⟨hs.inited, hs.rst, hs.clk, rfl⟩

/-- The command byte of a write, up to the first bit of the data byte (41_sequencer R91 row 9). -/
theorem writeCommanded_leadsTo {s : State} (hs : InFrame true s) (hsel : s.sel = .cmd) (hd : isRead s.cmdr = false) :
    LeadsTo (8 * bitCycles s.cfg) (advance (slot s.cmdr 0 s))
      (advance (slot (writeCommanded s).wdr 0 (writeCommanded s))) := by
  refine slot_leadsTo hs (by simp [selectedByte, hsel]) ?_
  have e : leaveTxh (sendHigh s.cmdr 7 (prev s.cmdr 7 s)) = .next (row9 (sendHigh s.cmdr 7 (prev s.cmdr 7 s))) := by
    simp [leaveTxh, hsel, hd]
  rw [e, row9, driveClk_sendHigh_seven hs, hs.sendByte_eq, writeCommanded_eq hs]
  simp [slot, afterSend]

/-- The command byte of a read, up to the wait for the first sample (41_sequencer R91 row 10). -/
theorem readCommanded_leadsTo {s : State} (hs : InFrame true s) (hsel : s.sel = .cmd) (hd : isRead s.cmdr = true) :
    LeadsTo (8 * bitCycles s.cfg) (advance (slot s.cmdr 0 s)) (advance (rslot 0 (readCommanded s))) := by
  refine slot_leadsTo hs (by simp [selectedByte, hsel]) ?_
  have e : leaveTxh (sendHigh s.cmdr 7 (prev s.cmdr 7 s)) = .next (row10 (sendHigh s.cmdr 7 (prev s.cmdr 7 s))) := by
    simp [leaveTxh, hsel, hd]
  rw [e, row10, driveClk_sendHigh_seven hs, hs.sendByte_eq, readCommanded_eq hs]
  simp [rslot, afterSend]

/-- HOLD entered at the end of a transaction's last byte (41_sequencer R91 rows 11 and 13). -/
def holdEntered (s : State) : State :=
  { s with t := nCCH s.cfg, ph := .hold }

/-- The data byte of a write, up to the hold wait (41_sequencer R91 row 11). -/
theorem writeData_leadsTo {s : State} (hs : InFrame true s) (hsel : s.sel = .data) :
    LeadsTo (8 * bitCycles s.cfg) (advance (slot s.wdr 0 s)) (advance (holdEntered (sendByte s.wdr s))) := by
  refine slot_leadsTo hs (by simp [selectedByte, hsel]) ?_
  have e : leaveTxh (sendHigh s.wdr 7 (prev s.wdr 7 s)) = .next (row11 (sendHigh s.wdr 7 (prev s.wdr 7 s))) := by
    simp [leaveTxh, hsel]
  rw [e, row11, driveClk_sendHigh_seven hs, hs.sendByte_eq]
  simp [holdEntered, afterSend]

/-- RXD entered after the eighth pulse and waited out is the end of RECV_BYTE, if RXR was clear (40_transceiver R81). -/
theorem waitFor_rslot_eight {s : State} (hs : InFrame false s) (hx : s.rxr = 0x00#8) :
    waitFor (nCDD s.cfg) (rslot 8 (afterRecv 7 s)) = recvByte s := by
  rw [recvByte, ← hx]
  have e := recvBits_eq hs.rst hs.clk hs.dir 7
  exact congrArg (fun u => waitFor (nCDD s.cfg) { u with k := 8#4, ph := .rxd }) e.symm

/-- The byte of a read has been received: the block drives IO again, and K is free (41_sequencer R90, log 33). -/
def readReceived (s : State) : State :=
  { setDir true (recvByte s) with k := heldIndex (recvByte s).draws }

/-- The data byte of a read, up to the hold wait (41_sequencer R91 rows 12, 14, 15 eight times, and 13). -/
theorem readData_leadsTo {s : State} (hs : InFrame false s) (hx : s.rxr = 0x00#8) :
    LeadsTo (8 * (nCDD s.cfg + bitCycles s.cfg) + nCDD s.cfg) (advance (rslot 0 s))
      (advance (holdEntered (readReceived s))) := by
  refine LeadsTo.trans (t := advance (rslot 8 (afterRecv 7 s)))
    (fun ps hps hn => recv_edges hps hs.inited hs.rst hs.clk hs.dir (Nat.le_refl 7) hn) (fun ps hps hn => ?_) rfl
  refine runEdges_row (u := rslot 8 (afterRecv 7 s)) hps hs.inited rfl (nCDD_pos _) hn ?_
  show rowAction quiet (waitFor (nCDD s.cfg) (rslot 8 (afterRecv 7 s))) = _
  rw [waitFor_rslot_eight hs hx, readReceived, hs.recvByte_eq, rowAction_rxd rfl rfl]
  rfl

/-! ## The end of a transaction -/

/-- The recovery wait (41_sequencer R91 row 2). -/
theorem recover_leadsTo {s : State} {c : Config} (hi : s.inited = true) (hc : s.cfg = c) :
    LeadsTo (nCWH c) (advance { s with t := nCWH c, ph := .recover }) (recoverIdle s) := by
  subst hc
  exact fun _ hps hn => recover_edges (u := { s with t := nCWH s.cfg, ph := .recover }) hps hi rfl rfl hn

/-- RST has fallen, and a read has delivered its byte (41_sequencer R91 row 16). -/
def ended (s : State) : State :=
  if isRead s.cmdr then deliver (driveRst false s) else driveRst false s

theorem row16_eq (s : State) : row16 s = { ended s with t := nCWH s.cfg, ph := .recover } := rfl

theorem ended_cfg (s : State) : (ended s).cfg = s.cfg := by unfold ended; split <;> simp

theorem ended_inited (s : State) : (ended s).inited = s.inited := by unfold ended; split <;> simp

/-- The hold wait, the fall of RST and the recovery wait (41_sequencer R91 rows 16 and 2). -/
theorem hold_leadsTo {s : State} {c : Config} (hi : s.inited = true) (hc : s.cfg = c) :
    LeadsTo (nCCH c + nCWH c) (advance (holdEntered s))
      (recoverIdle (ended (waitFor (nCCH c) { s with ph := .hold }))) := by
  subst hc
  refine LeadsTo.trans (fun ps hps hn => ?_)
    (recover_leadsTo (by simpa [ended_inited] using hi) (by simp [ended_cfg])) rfl
  rw [hold_edges (u := holdEntered s) hps hi rfl rfl hn, row16_eq, waitFor_cfg]
  rfl

/-! ## Whole transactions -/

/-- Both bytes of a write have been sent (41_sequencer R89). -/
def writeSent (s : State) : State :=
  sendByte (writeCommanded s).wdr (writeCommanded s)

/-- `t` is the block of `s` with its parameters and its command register as they were: what the bytes of a transaction leave. -/
structure SameRequest (s t : State) : Prop where
  inited : t.inited = s.inited
  cfg : t.cfg = s.cfg
  cmdr : t.cmdr = s.cmdr

theorem writeSent_sameRequest {s : State} (hs : InFrame true s) : SameRequest s (writeSent s) := by
  rw [writeSent, (writeCommanded_inFrame hs).sendByte_eq, writeCommanded_eq hs]
  exact ⟨rfl, rfl, rfl⟩

theorem readReceived_sameRequest {s : State} (hs : InFrame true s) : SameRequest s (readReceived (readCommanded s)) := by
  rw [readReceived, (readCommanded_inFrame hs).recvByte_eq, readCommanded_eq hs]
  exact ⟨rfl, rfl, rfl⟩

/-- Both bytes of a write, up to the hold wait. -/
theorem writeSent_leadsTo {s : State} (hs : InFrame true s) (hsel : s.sel = .cmd) (hd : isRead s.cmdr = false) :
    LeadsTo (16 * bitCycles s.cfg) (advance (slot s.cmdr 0 s)) (advance (holdEntered (writeSent s))) := by
  have hcfg : (writeCommanded s).cfg = s.cfg := by rw [writeCommanded_eq hs]; rfl
  exact (writeCommanded_leadsTo hs hsel hd).trans (writeData_leadsTo (writeCommanded_inFrame hs) rfl) (by rw [hcfg]; omega)

/-- Both bytes of a read, up to the hold wait. -/
theorem readReceived_leadsTo {s : State} (hs : InFrame true s) (hsel : s.sel = .cmd) (hd : isRead s.cmdr = true)
    (hx : s.rxr = 0x00#8) :
    LeadsTo (16 * bitCycles s.cfg + 9 * nCDD s.cfg) (advance (slot s.cmdr 0 s))
      (advance (holdEntered (readReceived (readCommanded s)))) := by
  have hcfg : (readCommanded s).cfg = s.cfg := by rw [readCommanded_eq hs]; rfl
  have hrxr : (readCommanded s).rxr = 0x00#8 := by rw [readCommanded_eq hs]; exact hx
  exact (readCommanded_leadsTo hs hsel hd).trans (readData_leadsTo (readCommanded_inFrame hs) hrxr) (by rw [hcfg]; omega)

section Begun

variable (sp : Space) (a : Addr) (d : Dir) (w : Byte) (s : State)

theorem begun_cfg : (begun sp a d w s).cfg = s.cfg := by simp [begun]
theorem begun_sel : (begun sp a d w s).sel = .cmd := by simp [begun]
theorem begun_cmdr : (begun sp a d w s).cmdr = cmdGen sp a d := by simp [begun]
theorem begun_rxr : (begun sp a d w s).rxr = 0x00#8 := by simp [begun]
theorem begun_isRead : isRead (begun sp a d w s).cmdr = (d == .read) := by rw [begun_cmdr, isRead_cmdGen]

end Begun

/-- A transaction whose bytes end in the state `u`, from acceptance to IDLE. -/
theorem transaction_leadsTo {sp : Space} {a : Addr} {d : Dir} {w : Byte} {s u : State} {n : Nat} (hs : AtRest s)
    (hu : SameRequest (begun sp a d w s) u)
    (h : LeadsTo n (advance (slot (begun sp a d w s).cmdr 0 (begun sp a d w s))) (advance (holdEntered u))) :
    LeadsTo (nCC s.cfg + (n + (nCCH s.cfg + nCWH s.cfg))) (advance (accept sp a d w s))
      (recoverIdle (ended (waitFor (nCCH s.cfg) { u with ph := .hold }))) := by
  rw [begun_cmdr] at h
  have hi : u.inited = true := hu.inited.trans (begun_inFrame hs sp a d w).inited
  have hc : u.cfg = s.cfg := hu.cfg.trans (begun_cfg sp a d w s)
  exact (accept_leadsTo hs sp a d w).trans (h.trans (hold_leadsTo hi hc) rfl) rfl

/-- A write, from acceptance to IDLE, at line level (41_sequencer R89). -/
theorem write_leadsTo {s : State} (hs : AtRest s) (sp : Space) (a : Addr) (v : Byte) :
    LeadsTo (writeCycles s.cfg) (advance (accept sp a .write v s)) (writeTransaction sp a v s) := by
  have hb := begun_inFrame hs sp a .write v
  have hd := begun_isRead sp a .write v s
  have hu := writeSent_sameRequest hb
  have h := transaction_leadsTo hs hu (writeSent_leadsTo hb (begun_sel ..) hd)
  rw [ended, if_neg (by simp [hu.cmdr, hd]), begun_cfg] at h
  rw [show writeCycles s.cfg = nCC s.cfg + (16 * bitCycles s.cfg + (nCCH s.cfg + nCWH s.cfg)) by unfold writeCycles; omega]
  exact h

/-- A read, from acceptance to IDLE, at line level (41_sequencer R90). -/
theorem read_leadsTo {s : State} (hs : AtRest s) (sp : Space) (a : Addr) (x : Byte) :
    LeadsTo (readCycles s.cfg) (advance (accept sp a .read x s)) (readTransaction sp a x s) := by
  have hb := begun_inFrame hs sp a .read x
  have hd := begun_isRead sp a .read x s
  have hu := readReceived_sameRequest hb
  have h := transaction_leadsTo hs hu (readReceived_leadsTo hb (begun_sel ..) hd (begun_rxr ..))
  rw [ended, if_pos (by simp [hu.cmdr, hd]), begun_cfg] at h
  rw [show readCycles s.cfg = nCC s.cfg + (16 * bitCycles s.cfg + 9 * nCDD s.cfg + (nCCH s.cfg + nCWH s.cfg)) by
    unfold readCycles; omega]
  exact h

/-- Settles O32: a reserved word is refused by its one edge; a request is accepted by its first edge, and the edges that follow
perform its transaction, a write or a read, part by part. -/
theorem lineLevelAgrees : Obligations.LineLevelAgrees := by
  intro w ps s hs hps hn
  cases hm : reqMarker w with
  | false =>
    obtain rfl : ps = [] := List.eq_nil_of_length_eq_zero (by simpa [hm] using hn)
    rw [runEdges_singleton, edge_reserved hs hm]
  | true =>
    rw [runEdges_cons (edge_accept hs hm), exec_decodeRequest hm, whenTaken_atRest hs]
    cases hd : reqDir w with
    | write => exact write_leadsTo hs _ _ _ ps hps (by simpa [hm, hd] using hn)
    | read => exact read_leadsTo hs _ _ _ ps hps (by simpa [hm, hd] using hn)

end Sys2Proof.Machine
end

section
/-! SUPPORT. The registers of the state (10_state R15 to R32): which of them an edge, an instruction and a step write, and what a
step keeps. -/

namespace Sys2Proof.Machine

/-! ## The reset state and the phase table -/

/-- Settles O2: each register of State.reset is the literal of R32's table. -/
theorem resetStateRegisters : Obligations.ResetStateRegisters := by
  unfold Obligations.ResetStateRegisters
  decide

/-- Settles O49: at reset no frame is open and the RAM list is empty. -/
theorem invariantAtReset : Obligations.InvariantAtReset :=
  ⟨⟨by decide, by decide, rfl⟩, by decide⟩

theorem linesOk_iff {s : State} : linesOk s = true ↔
    s.rstO = s.ph.active ∧ s.clkO = s.ph.clockHigh ∧ s.ioOE = !s.ph.receiving ∧ s.ph.assigned = true := by
  simp only [linesOk, Bool.and_eq_true, beq_iff_eq, and_assoc]

theorem MachineInv.linesOk {s : State} (h : MachineInv s) (hi : s.inited = true) : linesOk s = true :=
  ((inv_iff hi).mp ⟨h.1, h.2.1⟩).1

/-- Settles O14: the invariant makes each line register a function of the phase, read off phase by phase. -/
theorem phaseTable : Obligations.PhaseTable := by
  refine ⟨by decide, fun s h hi => ?_⟩
  obtain ⟨hr, hc, ho, ha⟩ := linesOk_iff.mp (h.linesOk hi)
  rw [hr, hc, ho]
  refine ⟨?_, ?_, ?_, ?_, atRest_of_blockOk h.1 hi⟩ <;>
    cases hp : s.ph <;> simp_all [Phase.code, Phase.active, Phase.clockHigh, Phase.receiving, Phase.assigned]

/-! ## What a row writes -/

/-- The registers a request loads and the registers the host reads are as they were (10_state R19 to R24). -/
structure SameRegisters (s t : State) : Prop where
  cmdr : t.cmdr = s.cmdr
  wdr : t.wdr = s.wdr
  rdata : t.rdata = s.rdata
  rvalid : t.rvalid = s.rvalid
  err : t.err = s.err

/-- The rows of 41_sequencer R91, by what they do to the phase and to those registers: a count-down, the three things IDLE does,
the exit of HOLD, and the rows between, which only load the next phase's count. -/
inductive RowEffect (p : Ports) (s : State) : State → Prop
  | counts (timed : s.ph.isTimed = true) (more : 1 < s.t) : RowEffect p s { s with t := s.t - 1 }
  | idles (idle : s.ph = .idle) (unasked : p.reqValid = false) : RowEffect p s s
  | refuses (idle : s.ph = .idle) (valid : p.reqValid = true) (reserved : reqMarker p.req = false) : RowEffect p s (row4 s)
  | accepts (idle : s.ph = .idle) (valid : p.reqValid = true) (marked : reqMarker p.req = true) :
      RowEffect p s (row5 p.req s)
  | finishes (hold : s.ph = .hold) (one : s.t = 1) : RowEffect p s (row16 s)
  | proceeds {t : State} (idle : s.ph ≠ .idle) (hold : s.ph ≠ .hold) (leaves : t.ph ≠ s.ph)
      (loads : t.ph.isTimed = true → t.t = entryCount s.cfg t.ph) (same : SameRegisters s t) : RowEffect p s t

theorem rowAction_effect {p : Ports} {s t : State} (he : rowAction p s = .next t) : RowEffect p s t := by
  rcases rowAction_cases he with ⟨ht, h1, rfl⟩ | ⟨hp, rfl⟩ | ⟨hp, -, rfl⟩ | ⟨hp, hv, rfl⟩ | ⟨hp, hv, hm, rfl⟩ | ⟨hp, hv, hm, rfl⟩
    | ⟨hp, -, rfl⟩ | ⟨hp, -, rfl⟩ | ⟨hp, -, -, rfl⟩ | ⟨hp, -, -, -, -, rfl⟩ | ⟨hp, -, -, -, -, rfl⟩ | ⟨hp, -, -, -, rfl⟩
    | ⟨hp, -, -, rfl⟩ | ⟨hp, -, -, rfl⟩ | ⟨hp, -, rfl⟩ | ⟨hp, -, rfl⟩ | ⟨hp, h1, rfl⟩
  -- The rows that do more, or less, than load the count of the phase that follows.
  on_goal 1 => exact .counts ht h1
  on_goal 3 => exact .idles hp hv
  on_goal 3 => exact .refuses hp hv hm
  on_goal 3 => exact .accepts hp hv hm
  on_goal 13 => exact .finishes hp h1
  all_goals
    refine .proceeds (by simp [hp]) (by simp [hp]) ?_ (fun _ => ?_) ⟨?_, ?_, ?_, ?_, ?_⟩ <;>
      simp_all [entryCount, Phase.isTimed, row1, row2, row6, row7, row8, row9, row10, row11, row12, row13, row14, row15]

theorem row16_rdata (s : State) : (row16 s).rdata = if isRead s.cmdr = true then s.rxr else s.rdata := by
  unfold row16; split <;> simp [deliver]

theorem row16_rvalid (s : State) : (row16 s).rvalid = (isRead s.cmdr || s.rvalid) := by
  unfold row16; split <;> simp_all [deliver]

@[simp] theorem row16_cmdr (s : State) : (row16 s).cmdr = s.cmdr := by unfold row16; split <;> simp [deliver]
@[simp] theorem row16_wdr (s : State) : (row16 s).wdr = s.wdr := by unfold row16; split <;> simp [deliver]
@[simp] theorem row16_err (s : State) : (row16 s).err = s.err := by unfold row16; split <;> simp [deliver]
@[simp] theorem row16_rstO (s : State) : (row16 s).rstO = false := by unfold row16; split <;> simp [deliver]

theorem edge_effect {p : Ports} {s t : State} (hr : p.resetIn = false) (hi : s.inited = true) (he : edge p s = .next t) :
    ∃ u, RowEffect p s u ∧ t = advance u :=
  let ⟨u, hu, ht⟩ := edge_next hr hi he
  ⟨u, rowAction_effect hu, ht⟩

/-! ## Timed phases -/

theorem entryCount_le (c : Config) (ph : Phase) : entryCount c ph ≤ maxCount c := by
  cases ph <;> simp [entryCount, nCL_le, nCH_le, nCDD_le, nCC_le, nCCH_le, nCWH_le]

/-- A phase is entered with its own count (10_state R16). -/
theorem RowEffect.loads_count {p : Ports} {s t : State} (h : RowEffect p s t) (hne : t.ph ≠ s.ph)
    (ht : t.ph.isTimed = true) : t.t = entryCount s.cfg t.ph := by
  cases h with
  | counts | idles | refuses => exact absurd rfl hne
  | accepts => simp [row5, entryCount]
  | finishes => rfl
  | proceeds _ _ _ loads _ => exact loads ht

/-- At T = 1 a timed phase is left (10_state R16). -/
theorem RowEffect.leaves_phase {p : Ports} {s t : State} (h : RowEffect p s t) (ht : s.ph.isTimed = true) (h1 : s.t = 1) :
    t.ph ≠ s.ph := by
  cases h with
  | counts _ more => omega
  | idles idle | refuses idle | accepts idle => simp [idle, Phase.isTimed] at ht
  | finishes hold => simp [hold, row16]
  | proceeds _ _ leaves _ _ => exact leaves

/-- Settles O9: only a row at T = 1 leaves a timed phase, every row that enters one loads its count, and in between the edges
only count. -/
theorem timedPhases : Obligations.TimedPhases := by
  refine ⟨fun p s t hr hi he hne ht => ?_, fun ps s hr hi ht hn => ⟨_, runEdges_count hr hi ht hn, by simp, rfl⟩,
    fun p s t hr hi ht h1 he => ?_, fun c ph => (entryCount_le c ph).trans_lt (maxCount_lt c)⟩
  · obtain ⟨u, hu, rfl⟩ := edge_effect hr hi he
    exact hu.loads_count hne ht
  · obtain ⟨u, hu, rfl⟩ := edge_effect hr hi he
    exact hu.leaves_phase ht h1

/-! ## Command and response registers -/

theorem RowEffect.request_registers {p : Ports} {s t : State} (h : RowEffect p s t) (ha : s.ph.active = true) :
    t.cmdr = s.cmdr ∧ t.wdr = s.wdr := by
  cases h with
  | counts => exact ⟨rfl, rfl⟩
  | idles idle | refuses idle | accepts idle => simp [idle, Phase.active] at ha
  | finishes => simp
  | proceeds _ _ _ _ same => exact ⟨same.cmdr, same.wdr⟩

theorem isRead_cmdGen_iff (sp : Space) (a : Addr) (d : Dir) : isRead (cmdGen sp a d) = true ↔ d = .read := by
  rw [isRead_cmdGen, beq_iff_eq]

theorem edge_present_idle {w : ReqWord} {s : State} (hi : s.inited = true) (hp : s.ph = .idle) (hm : reqMarker w = true) :
    edge (present w) s = .next (advance (row5 w s)) := by
  rw [edge_run rfl hi]
  simp [rowAction, hp, present, hm, passing]

/-- Settles O8: acceptance loads CMDR and WDR, and no row of an active phase writes either. -/
theorem commandHeld : Obligations.CommandHeld := by
  refine ⟨fun w s hi hp hm => ⟨_, edge_present_idle hi hp hm, ?_⟩, fun p s t hr hi ha he => ?_⟩
  · have hc : (advance (row5 w s)).cmdr = cmdGen (reqSpace w) (reqAddr w) (reqDir w) := by simp [row5]
    exact ⟨hc, by simp [row5], by rw [hc]; exact isRead_cmdGen_iff ..⟩
  · obtain ⟨u, hu, rfl⟩ := edge_effect hr hi he
    exact hu.request_registers ha

/-- RDATA is written at the exit of HOLD of a read only (10_state R22). -/
theorem RowEffect.rdata {p : Ports} {s t : State} (h : RowEffect p s t) :
    t.rdata = if s.ph = .hold ∧ s.t = 1 ∧ isRead s.cmdr = true then s.rxr else s.rdata := by
  cases h with
  | counts _ more => simp [Nat.ne_of_gt more]
  | idles idle | refuses idle | accepts idle => simp [idle, row4, row5]
  | finishes hold one => simp [hold, one, row16_rdata]
  | proceeds _ hold _ _ same => simp [hold, same.rdata]

/-- RVALID is set there and cleared at acceptance (10_state R23). -/
theorem RowEffect.rvalid {p : Ports} {s t : State} (h : RowEffect p s t) :
    t.rvalid = if s.ph = .hold ∧ s.t = 1 ∧ isRead s.cmdr = true then true
      else if s.ph = .idle ∧ p.reqValid = true ∧ reqMarker p.req = true then false else s.rvalid := by
  cases h with
  | counts timed more =>
    have hp : s.ph ≠ .idle := fun hp => by simp [hp, Phase.isTimed] at timed
    simp [Nat.ne_of_gt more, hp]
  | idles idle unasked => simp [idle, unasked]
  | refuses idle _ reserved => simp [idle, row4, reserved]
  | accepts idle valid marked => simp [idle, valid, row5, marked]
  | finishes hold one => cases hd : isRead s.cmdr <;> simp [hold, one, row16_rvalid, hd]
  | proceeds idle hold _ _ same => simp [idle, hold, same.rvalid]

/-- ERR is set where IDLE refuses a reserved word and nowhere else (10_state R24). -/
theorem RowEffect.err {p : Ports} {s t : State} (h : RowEffect p s t) :
    t.err = true ↔ s.err = true ∨ (s.ph = .idle ∧ p.reqValid = true ∧ reqMarker p.req = false) := by
  cases h with
  | counts timed =>
    have hp : s.ph ≠ .idle := fun hp => by simp [hp, Phase.isTimed] at timed
    simp [hp]
  | idles _ unasked => simp [unasked]
  | refuses idle valid reserved => simp [row4, idle, valid, reserved]
  | accepts _ _ marked => simp [row5, marked]
  | finishes hold => simp [hold]
  | proceeds idle _ _ _ same => simp [idle, same.err]

theorem RowEffect.rstO_of_hold {p : Ports} {s t : State} (h : RowEffect p s t) (hp : s.ph = .hold) (h1 : s.t = 1) :
    t.rstO = false := by
  cases h with
  | counts _ more => omega
  | idles idle | refuses idle | accepts idle => simp [idle] at hp
  | finishes => exact row16_rstO s
  | proceeds _ hold => exact absurd hp hold

theorem edge_err {p : Ports} {s t : State} (hi : s.inited = true) (he : edge p s = .next t) :
    t.err = true ↔ p.resetIn = false ∧
      (s.err = true ∨ (s.ph = .idle ∧ p.reqValid = true ∧ reqMarker p.req = false)) := by
  cases hr : p.resetIn with
  | true => rw [edge_reset hr] at he; cases he; simp [applyReset]
  | false => obtain ⟨u, hu, rfl⟩ := edge_effect hr hi he; simpa using hu.err

/-! ## What an instruction can do -/

@[simp] theorem sendBit_cfg (b : Byte) (k : Nat) (s : State) : (sendBit b k s).cfg = s.cfg := by simp [sendBit]
@[simp] theorem sendBit_err (b : Byte) (k : Nat) (s : State) : (sendBit b k s).err = s.err := by simp [sendBit]
@[simp] theorem recvBit_cfg (j : Nat) (s : State) : (recvBit j s).cfg = s.cfg := by simp [recvBit]
@[simp] theorem recvBit_err (j : Nat) (s : State) : (recvBit j s).err = s.err := by simp [recvBit]
@[simp] theorem sendByte_cfg (b : Byte) (s : State) : (sendByte b s).cfg = s.cfg := by simp [sendByte]
@[simp] theorem sendByte_err (b : Byte) (s : State) : (sendByte b s).err = s.err := by simp [sendByte]
@[simp] theorem recvByte_cfg (s : State) : (recvByte s).cfg = s.cfg := by simp [recvByte]
@[simp] theorem recvByte_err (s : State) : (recvByte s).err = s.err := by simp [recvByte]

@[simp] theorem transaction_cfg (sp : Space) (a : Addr) (d : Dir) (w : Byte) (s : State) :
    (transaction sp a d w s).cfg = s.cfg := by
  cases d <;> simp [transaction, writeTransaction, readTransaction, recoverIdle]

@[simp] theorem transaction_err (sp : Space) (a : Addr) (d : Dir) (w : Byte) (s : State) :
    (transaction sp a d w s).err = s.err := by
  cases d <;> simp [transaction, writeTransaction, readTransaction, recoverIdle]

@[simp] theorem deviceActs_cfg (f : Nat → Device → Device) (s : State) : (deviceActs f s).cfg = s.cfg := by
  unfold deviceActs; split <;> rfl

@[simp] theorem deviceActs_err (f : Nat → Device → Device) (s : State) : (deviceActs f s).err = s.err := by
  unfold deviceActs; split <;> rfl

/-- What an instruction does that ends in a next state: a request waits for one edge, performs its transaction or is refused; an
internal word acts at the device or at the transceiver. -/
inductive Performs (i : Instr) (s : State) : State → Prop
  | waits {t : State} (request : isRequest i = true) (busy : s.ph ≠ .idle) (passes : edge quiet s = .next t) : Performs i s t
  | transfers (sp : Space) (a : Addr) (d : Dir) (w : Byte) (named : ∀ x, i ≠ .reserved x) (inited : s.inited = true)
      (idle : s.ph = .idle) : Performs i s (transaction sp a d w s)
  | refuses (x : BitVec 15) (reserved : i = .reserved x) (idle : s.ph = .idle) : Performs i s (advance (refuse s))
  | commands (f : Nat → Device → Device) (internal : isRequest i = false) : Performs i s (deviceActs f s)
  | sends (b : Byte) (internal : isRequest i = false) : Performs i s (sendByte b s)
  | receives (internal : isRequest i = false) : Performs i s (recvByte s)

theorem ready_iff (s : State) : ready s = true ↔ s.ph = .idle := by
  unfold ready
  cases s.ph <;> simp [Phase.isIdle]

/-- A request is taken in IDLE and waits in any other phase (41_sequencer R86, R87). -/
theorem whenTaken_cases {f : State → State} {s t : State} (h : whenTaken f s = .next t) :
    s.inited = true ∧ ((s.ph = .idle ∧ t = f s) ∨ (s.ph ≠ .idle ∧ edge quiet s = .next t)) := by
  unfold whenTaken at h
  split at h
  · next hi =>
    refine ⟨hi, ?_⟩
    split at h
    · next hr => cases h; exact .inl ⟨(ready_iff s).mp hr, rfl⟩
    · next hr => exact .inr ⟨fun hp => hr ((ready_iff s).mpr hp), h⟩
  · cases h

theorem Performs.of_transaction {i : Instr} {sp : Space} {a : Addr} {d : Dir} {w : Byte} {s t : State}
    (hr : isRequest i = true) (hn : ∀ x, i ≠ .reserved x) (h : whenTaken (transaction sp a d w) s = .next t) :
    Performs i s t := by
  obtain ⟨hi, ⟨hp, rfl⟩ | ⟨hp, he⟩⟩ := whenTaken_cases h
  · exact .transfers sp a d w hn hi hp
  · exact .waits hr hp he

theorem Performs.of_reserved {x : BitVec 15} {s t : State} (h : execReserved x s = .next t) :
    Performs (.reserved x) s t := by
  obtain ⟨-, ⟨hp, rfl⟩ | ⟨hp, he⟩⟩ := whenTaken_cases h
  · exact .refuses x rfl hp
  · exact .waits rfl hp he

theorem exec_performs {i : Instr} {s t : State} (h : exec i s = .next t) : Performs i s t := by
  cases i with
  | reserved x => exact .of_reserved h
  | cmdClkWrite a | cmdClkRead a | cmdRamWrite a | cmdRamRead a | cmdNeverSent x => cases h; exact .commands _ rfl
  | sendByte b => cases h; exact .sends b rfl
  | recvByte x => cases h; exact .receives rfl
  | _ => exact .of_transaction rfl (by simp) h

theorem Performs.cfg {i : Instr} {s t : State} (h : Performs i s t) : t.cfg = s.cfg := by
  cases h with
  | waits _ _ he => exact (edge_surroundings he).1.cfg
  | transfers | commands | sends | receives => simp
  | refuses => rfl

theorem Performs.err {i : Instr} {s t : State} (h : Performs i s t) (hi : s.inited = true) :
    t.err = true ↔ s.err = true ∨ (s.ph = .idle ∧ ∃ x, i = .reserved x) := by
  cases h with
  | waits _ busy he => simp [edge_err hi he, quiet, busy]
  | transfers _ _ _ _ named => simp [named]
  | refuses x reserved idle => simp [reserved, idle]
  | commands _ internal | sends _ internal | receives internal =>
    have hn : ∀ x, i ≠ .reserved x := by rintro x rfl; cases internal
    simp [hn]

/-- Settles O12: at an edge by the rows of R91, over an instruction by what it can do. -/
theorem errFlag : Obligations.ErrFlag :=
  ⟨fun _ _ _ hi he => edge_err hi he, fun _ _ _ hi he => (exec_performs he).err hi⟩

/-! ## What a step can do -/

/-- What a step does that ends in a next state: a fetched instruction; or, with the move used up or kept, an edge, nothing, a
step of the host software, a facade call, or a loss of main power. -/
inductive Moves (s : State) : State → Prop
  | performs {t : State} (i : Instr) (fetched : fetch s = some i) (done : Performs i (taken s) t) : Moves s t
  | edge {t : State} (p : Ports) (ms : List Move) (passes : edge p { s with agenda := ms } = .next t) : Moves s t
  | ready (ms : List Move) : Moves s { s with agenda := ms }
  | software (op : HostOp) (ms : List Move) : Moves s (software op { s with agenda := ms })
  | call (c : FacadeCall) (ms : List Move) : Moves s (call c { s with agenda := ms })
  | powerUp (backup : Bool) (ms : List Move) : Moves s (powerUp backup { s with agenda := ms })

theorem otherMove_moves {s t : State} (h : otherMove s = .next t) : Moves s t := by
  unfold otherMove at h
  split at h
  case h_1 => exact .edge quiet s.agenda h
  case h_2 p ms _ => exact .edge p ms h
  case h_3 w ms _ => exact .edge (present w) ms h
  case h_4 ms _ => exact .edge resetPorts (.waitReady :: ms) h
  case h_5 ms _ =>
    split at h
    · cases h; exact .ready ms
    · exact .edge quiet s.agenda h
  case h_6 op ms _ => cases h; exact .software op ms
  case h_7 c ms _ => cases h; exact .call c ms
  case h_8 b ms _ => cases h; exact .powerUp b ms

theorem step_moves {s t : State} (h : step s = .next t) : Moves s t := by
  unfold step at h
  split at h
  · next i hf => exact .performs i hf (exec_performs h)
  · exact otherMove_moves h

/-- The host software writes its own variables and the coming moves only (00_scope R3 (a)). -/
theorem software_form (op : HostOp) (s : State) : ∃ v ms, software op s = { s with host := v, agenda := ms } := by
  cases op <;> exact ⟨_, _, rfl⟩

theorem call_form (c : FacadeCall) (s : State) : ∃ v ms, call c s = { s with host := v, agenda := ms } := by
  unfold call
  split <;> exact ⟨_, _, rfl⟩

@[simp] theorem taken_cfg (s : State) : (taken s).cfg = s.cfg := by
  unfold taken
  split
  · rfl
  · split <;> rfl

theorem taken_of_no_probe {s : State} (hq : s.probe = none) : ∃ ms, taken s = { s with agenda := ms } := by
  unfold taken
  split
  · next hs => rw [hq] at hs; cases hs
  · split
    · exact ⟨_, rfl⟩
    · exact ⟨s.agenda, rfl⟩

theorem Moves.cfg {s t : State} (h : Moves s t) : t.cfg = s.cfg := by
  cases h with
  | performs i _ hp => simpa using hp.cfg
  | edge p ms he => exact (edge_surroundings he).1.cfg
  | ready => rfl
  | software op ms => obtain ⟨v, ms', h⟩ := software_form op { s with agenda := ms }; rw [h]
  | call c ms => obtain ⟨v, ms', h⟩ := call_form c { s with agenda := ms }; rw [h]
  | powerUp => rfl

/-- Settles O52: none of the things a step can do writes the parameters. -/
theorem configFixed : Obligations.ConfigFixed :=
  fun _ _ h => (step_moves h).cfg

/-! ## A step keeps the invariant -/

theorem isRequest_decodeRequest (w : ReqWord) : isRequest (decodeRequest w) = true := by
  unfold decodeRequest decodeClock decodeRam
  repeat' split
  all_goals rfl

theorem isRequest_of_fetch {s : State} {i : Instr} (hq : s.probe = none) (hf : fetch s = some i) : isRequest i = true := by
  simp only [fetch, hq] at hf
  split at hf <;> cases hf
  exact isRequest_decodeRequest _

/-- The invariant speaks of the block and the device only. -/
theorem machineInv_host {s : State} (v : HostState) (ms : List Move) :
    MachineInv { s with host := v, agenda := ms } ↔ MachineInv s := Iff.rfl

theorem MachineInv.edge {p : Ports} {s t : State} (h : MachineInv s) (he : edge p s = .next t) : MachineInv t := by
  obtain ⟨hb, hd, hq⟩ := h
  obtain ⟨hb', hd'⟩ := keeps_edge ⟨hb, hd⟩ he
  exact ⟨hb', hd', (edge_surroundings he).1.probe.trans hq⟩

/-- A block at rest with no frame open meets the invariant if its index and its response are in order. -/
theorem machineInv_of_atRest {s : State} (hs : AtRest s) (hq : s.probe = none) (hseq : s.dev.seq = .closed)
    (hk : s.k.toNat ≤ 7) (hr : responseOk s = true) : MachineInv s := by
  obtain ⟨hi, hp, hrst, hclk, hoe⟩ := hs
  obtain ⟨hb, hd⟩ := (inv_iff hi).mpr ⟨linesOk_iff.mpr (by simp [hp, hrst, hclk, hoe, Phase.active, Phase.clockHigh,
    Phase.receiving, Phase.assigned]), by simp [timerOk, hp, Phase.isTimed], by simpa [indexOk, hp] using hk,
    by simp [selOk, hp], hr, by simpa [syncOk, hp] using hseq⟩
  exact ⟨hb, hd, hq⟩

theorem MachineInv.transaction {s : State} (h : MachineInv s) (hs : AtRest s) (sp : Space) (a : Addr) (d : Dir) (w : Byte) :
    MachineInv (transaction sp a d w s) := by
  obtain ⟨-, -, hq⟩ := h
  cases d with
  | write =>
    rw [Machine.transaction, writeTransaction_eq hs]
    exact machineInv_of_atRest (written_atRest hs) hq (by simp [written]) (by simp [written]) rfl
  | read =>
    rw [Machine.transaction, readTransaction_eq hs]
    exact machineInv_of_atRest (readDone_atRest hs) hq (by simp [readDone]) (heldIndex_le _)
      (by simp [responseOk, readDone, Phase.active, isRead_cmdGen])

theorem MachineInv.performs {i : Instr} {s t : State} (h : MachineInv s) (hr : isRequest i = true) (hp : Performs i s t) :
    MachineInv t := by
  cases hp with
  | waits _ _ he => exact h.edge he
  | transfers sp a d w _ hi idle => exact h.transaction (atRest_of_blockOk h.1 hi idle) sp a d w
  | refuses => exact ⟨h.1, (deviceOk_advance _).trans h.2.1, h.2.2⟩
  | commands _ internal | sends _ internal | receives internal => rw [hr] at internal; cases internal

/-- Every step keeps the invariant (41_sequencer R92). -/
theorem machineInv_step {s t : State} (h : MachineInv s) (hs : step s = .next t) : MachineInv t := by
  cases step_moves hs with
  | performs i hf hp =>
    obtain ⟨ms, ht⟩ := taken_of_no_probe h.2.2
    rw [ht] at hp
    exact MachineInv.performs (s := { s with agenda := ms }) h (isRequest_of_fetch h.2.2 hf) hp
  | edge p ms he => exact MachineInv.edge (s := { s with agenda := ms }) h he
  | ready ms => exact h
  | software op ms =>
    obtain ⟨v, ms', e⟩ := software_form op { s with agenda := ms }
    rw [e]; exact (machineInv_host v ms').mpr h
  | call c ms =>
    obtain ⟨v, ms', e⟩ := call_form c { s with agenda := ms }
    rw [e]; exact (machineInv_host v ms').mpr h
  | powerUp b ms => exact ⟨rfl, rfl, h.2.2⟩

/-- While RVALID is 1 the last accepted request was a read and RDATA is its byte (10_state R22, R23). -/
theorem MachineInv.response {s : State} (h : MachineInv s) (hi : s.inited = true) (hv : s.rvalid = true) :
    isRead s.cmdr = true ∧ s.rdata = s.rxr := by
  obtain ⟨-, -, -, -, hr, -⟩ := (inv_iff hi).mp ⟨h.1, h.2.1⟩
  simp only [responseOk, hv, Bool.not_true, Bool.false_or, Bool.and_eq_true, beq_iff_eq] at hr
  exact ⟨hr.1.2, hr.2⟩

/-- Settles O13: at an edge by the rows of R91; what RVALID = 1 means is part of the invariant, which every step keeps. -/
theorem responseRegisters : Obligations.ResponseRegisters := by
  refine ⟨fun p s t hi he => ?_, fun s t h hs hi hv => (machineInv_step h hs).response hi hv⟩
  cases hr : p.resetIn with
  | true => rw [edge_reset hr] at he; cases he; simp [applyReset]
  | false =>
    obtain ⟨u, hu, rfl⟩ := edge_effect hr hi he
    exact ⟨hu.rdata, hu.rvalid, fun _ hp h1 => hu.rstO_of_hold hp h1⟩

end Sys2Proof.Machine
end

section
/-! SUPPORT. The device's memory (20_memory R35 to R50, R58, R59): what keeps its RAM canonical, what an access does to its
contents, what a request therefore does to them and reads of them, and which bytes are valid content. -/

namespace Sys2Proof.Machine

/-! ## Every step keeps the RAM canonical -/

theorem waitFor_storeOk {n : Nat} {s : State} (h : storeOk s.dev = true) : storeOk (waitFor n s).dev = true := by
  rw [waitFor_dev]; exact devElapse_storeOk h

theorem sendByte_storeOk {b : Byte} {s : State} (h : storeOk s.dev = true) : storeOk (sendByte b s).dev = true :=
  List.foldlRecOn (motive := fun s : State => storeOk s.dev = true) _ _ h fun _ hs _ _ =>
    driveClk_storeOk (waitFor_storeOk (driveClk_storeOk (b := true) (waitFor_storeOk hs)))

theorem recvByte_storeOk {s : State} (h : storeOk s.dev = true) : storeOk (recvByte s).dev = true :=
  waitFor_storeOk (List.foldlRecOn (motive := fun s : State => storeOk s.dev = true) _ _ h fun _ hs _ _ =>
    driveClk_storeOk (waitFor_storeOk (driveClk_storeOk (b := true) (waitFor_storeOk (waitFor_storeOk hs)))))

theorem accept_storeOk {sp : Space} {a : Addr} {d : Dir} {w : Byte} {s : State} (h : storeOk s.dev = true) :
    storeOk (accept sp a d w s).dev = true :=
  driveRst_storeOk h

theorem recoverIdle_storeOk {s : State} (h : storeOk s.dev = true) : storeOk (recoverIdle s).dev = true :=
  devPass_storeOk (waitFor_storeOk h)

/-- A transaction keeps the RAM canonical from every state, at rest or not. -/
theorem transaction_storeOk {sp : Space} {a : Addr} {d : Dir} {w : Byte} {s : State} (h : storeOk s.dev = true) :
    storeOk (transaction sp a d w s).dev = true := by
  have begins : storeOk (begun sp a d w s).dev = true := waitFor_storeOk (accept_storeOk h)
  cases d with
  | write =>
    exact recoverIdle_storeOk (driveRst_storeOk (waitFor_storeOk (sendByte_storeOk (sendByte_storeOk begins))))
  | read =>
    exact recoverIdle_storeOk (driveRst_storeOk (waitFor_storeOk (recvByte_storeOk (sendByte_storeOk begins))))

theorem deviceActs_storeOk {f : Nat → Device → Device} {s : State} (h : storeOk s.dev = true)
    (hf : storeOk (f s.draws s.dev) = true) : storeOk (deviceActs f s).dev = true := by
  unfold deviceActs
  split
  · exact hf
  · exact h

theorem whenTaken_storeOk {f : State → State} {s t : State} (h : storeOk s.dev = true) (hf : storeOk (f s).dev = true)
    (he : whenTaken f s = .next t) : storeOk t.dev = true := by
  obtain ⟨-, ⟨-, rfl⟩ | ⟨-, he⟩⟩ := whenTaken_cases he
  · exact hf
  · exact edge_storeOk h he

theorem exec_storeOk {i : Instr} {s t : State} (h : storeOk s.dev = true) (he : exec i s = .next t) :
    storeOk t.dev = true := by
  cases i with
  | reserved x => exact whenTaken_storeOk (f := fun s => advance (refuse s)) h (devPass_storeOk h) he
  | cmdClkWrite a | cmdRamWrite a => cases he; exact deviceActs_storeOk h (devCommit_storeOk h)
  | cmdClkRead a | cmdRamRead a => cases he; exact deviceActs_storeOk h (devDrive_storeOk h)
  | cmdNeverSent x => cases he; exact deviceActs_storeOk h (havoc_storeOk _ _)
  | sendByte b => cases he; exact sendByte_storeOk h
  | recvByte x => cases he; exact recvByte_storeOk h
  | _ => exact whenTaken_storeOk h (transaction_storeOk h) he

@[simp] theorem taken_dev (s : State) : (taken s).dev = s.dev := by
  unfold taken
  split
  · rfl
  · split <;> rfl

/-- Settles O50: every device operation keeps the canonical form, so every instruction, edge and loss of power does, and the
host's own moves do not touch the device. -/
theorem ramCanonical : Obligations.RamCanonical := by
  intro s t h hs
  cases step_moves hs with
  | performs i hf =>
    have he : exec i (taken s) = .next t := by simpa only [step, hf] using hs
    exact exec_storeOk ((taken_dev s).symm ▸ h) he
  | edge p ms he => exact edge_storeOk (s := { s with agenda := ms }) h he
  | ready => exact h
  | software op ms => obtain ⟨v, ms', e⟩ := software_form op { s with agenda := ms }; rw [e]; exact h
  | call c ms => obtain ⟨v, ms', e⟩ := call_form c { s with agenda := ms }; rw [e]; exact h
  | powerUp b ms => exact powerUp_storeOk (s := { s with agenda := ms }) h

/-! ## What an access does to the contents -/

theorem devWrite_ram {a : Addr} (h : a.toNat < 31) (n : Nat) (v : Byte) (d : Device) :
    devWrite n .ram a v d = { d with ram := memWrite d.ram a.toNat v } := by
  simp [devWrite, locate_ram h]

theorem devWrite_clk (n : Nat) (r : ClkReg) (v : Byte) (d : Device) :
    devWrite n .clk r.addr v d
      = { d with clk := clkSet d.clk r (if validContent r v then v else Config.freeByte .badContent n) } := by
  simp only [devWrite, locate_clk]
  split <;> rfl

theorem devWrite_undocumented {sp : Space} {a : Addr} (h : locate sp a = .undocumented) (n : Nat) (v : Byte) (d : Device) :
    devWrite n sp a v d = havoc n d := by
  simp [devWrite, h]

theorem devReadAfter_documented {sp : Space} {a : Addr} (h : locate sp a ≠ .undocumented) (n : Nat) (d : Device) :
    devReadAfter n sp a d = d := by
  unfold devReadAfter
  split
  · rfl
  · rfl
  · next hu => exact absurd hu h

theorem devReadAfter_undocumented {sp : Space} {a : Addr} (h : locate sp a = .undocumented) (n : Nat) (d : Device) :
    devReadAfter n sp a d = havoc n d := by
  simp [devReadAfter, h]

theorem devReadByte_ram {a : Addr} (h : a.toNat < 31) (n : Nat) (d : Device) :
    devReadByte n .ram a d = memRead d.ram a.toNat := by
  simp [devReadByte, locate_ram h]

theorem devReadByte_clk (n : Nat) (r : ClkReg) (d : Device) : devReadByte n .clk r.addr d = clkGet d.clk r := by
  simp [devReadByte, locate_clk]

theorem devReadByte_undocumented {sp : Space} {a : Addr} (h : locate sp a = .undocumented) (n : Nat) (d : Device) :
    devReadByte n sp a d = Config.freeByte .undocRead n := by
  simp [devReadByte, h]

theorem locate_ram_documented {a : Addr} (h : a.toNat < 31) : locate .ram a ≠ .undocumented := by
  rw [locate_ram h]; simp

theorem locate_clk_documented (r : ClkReg) : locate .clk r.addr ≠ .undocumented := by
  rw [locate_clk]; simp

theorem storeOk_iff {d : Device} : storeOk d = true ↔ Memory.wf d.ram = true ∧ memBelow 31 d.ram = true := by
  rw [storeOk, Bool.and_eq_true]

/-! ## Requests (20_memory R46 to R50, R58) -/

/-- A named calendar write is the numbered one (30_encoding R75). -/
theorem exec_writeInstr_named (r : ClkReg) (v : Byte) (s : State) :
    exec (r.writeInstr v) s = exec (writeInstr .clk r.addr v) s := by
  cases r <;> rfl

/-- A named calendar read is the numbered one (30_encoding R75). -/
theorem exec_readInstr_named (r : ClkReg) (x : Byte) (s : State) :
    exec (r.readInstr x) s = exec (readInstr .clk r.addr x) s := by
  cases r <;> rfl

/-- Settles O24: the device commits the byte once, to contents that have only aged, and afterwards only ages. -/
theorem writeRam : Obligations.WriteRam := by
  intro a v s hs hc hm ha
  obtain ⟨e, he, hd⟩ := devWritten_timely hc s.draws .ram a v s.dev
  rw [devWrite_ram ha] at hd
  have hread (b : Nat) : memRead (devWritten s.cfg s.draws (cmdGen .ram a .write) v s.dev).ram b
      = if b = a.toNat then v else memRead s.dev.ram b := by
    rw [hd.ram, he.ram, memRead_memWrite (storeOk_iff.mp hm).1]
  have hage : SameStore { s.dev with ram := memWrite s.dev.ram a.toNat v } { e with ram := memWrite e.ram a.toNat v } :=
    ⟨by rw [he.ram], he.undoc, he.ch, he.clk⟩
  have hall := hage.trans hd
  exact ⟨_, exec_write (sp := .ram) hs, by simp [hread], fun b hb => by simp [hread, hb], hall.undoc, hall.ch, hall.clk,
    devWritten_seq ..⟩

/-- Settles O25: the commit is the store at the register's own address. -/
theorem writeClock : Obligations.WriteClock := by
  intro r v s hs hc
  obtain ⟨e, he, hd⟩ := devWritten_timely hc s.draws .clk r.addr v s.dev
  have hrun := exec_write (sp := .clk) (a := r.addr) (v := v) hs
  exact ⟨_, e, _, _, hrun, (exec_writeInstr_named r v s).trans hrun, he, by rw [devWrite_clk], by rw [devWrite_clk],
    by rw [devWrite_clk], hd, devWritten_seq ..⟩

/-- Settles O26: the commit at an undocumented address is a havoc. -/
theorem writeUndocumented : Obligations.WriteUndocumented := by
  intro sp a v s hs hc ha
  obtain ⟨e, -, hd⟩ := devWritten_timely hc s.draws sp a v s.dev
  rw [devWrite_undocumented (locate_undocumented ha)] at hd
  exact ⟨_, e, _, exec_write hs, hd, devWritten_seq ..⟩

/-- Settles O27: the byte received is that of the RAM at one moment, and the RAM does not age. -/
theorem readRam : Obligations.ReadRam := by
  intro a x s hs ht ha
  obtain ⟨e, he, hb, hd⟩ := devReadDone_timely ht s.draws .ram a s.dev
  rw [devReadByte_ram ha, he.ram] at hb
  rw [devReadAfter_documented (locate_ram_documented ha)] at hd
  exact ⟨_, hb ▸ exec_read (sp := .ram) hs, he.trans hd, devReadDone_seq ..⟩

/-- Settles O28: the byte received is the register's at the moment `e`; a halted clock does not age. -/
theorem readClock : Obligations.ReadClock := by
  intro r x s hs ht
  obtain ⟨e, he, hb, hd⟩ := devReadDone_timely ht s.draws .clk r.addr s.dev
  rw [devReadByte_clk] at hb
  rw [devReadAfter_documented (locate_clk_documented r)] at hd
  have hrun := hb ▸ exec_read (sp := .clk) (a := r.addr) (x := x) hs
  exact ⟨e, _, hrun, (exec_readInstr_named r x s).trans hrun, he, hd, devReadDone_seq .., fun hh => by rw [he.clk hh]⟩

/-- Settles O29: both the byte and the contents are those of a read that reaches nothing documented. -/
theorem readUndocumented : Obligations.ReadUndocumented := by
  intro sp a x s hs ht ha
  have hu := locate_undocumented ha
  obtain ⟨e, -, hb, hd⟩ := devReadDone_timely ht s.draws sp a s.dev
  rw [devReadByte_undocumented hu] at hb
  rw [devReadAfter_undocumented hu] at hd
  exact ⟨_, e, _, hb ▸ exec_read hs, hd, devReadDone_seq ..⟩

/-- Settles O30: the block runs as always, the samples are free, and the contents are free once RST has fallen, or, with no
device, only age. -/
theorem timingViolated : Obligations.TimingViolated := by
  refine fun sp a v s hs => ⟨fun ho => ?_, fun hn => ?_⟩
  · obtain ⟨n, e, hw⟩ := devWritten_untimely ho s.draws (cmdGen sp a .write) v s.dev
    obtain ⟨m, f, hr⟩ := devReadDone_untimely ho s.draws (cmdGen sp a .read) s.dev
    exact ⟨⟨n, e, _, exec_write hs, hw, devWritten_seq ..⟩,
      ⟨_, m, f, _, exec_read hs, readByte_free (inContract_of_outOfTime ho) _ _ _, hr, devReadDone_seq ..⟩⟩
  · exact ⟨⟨_, exec_write hs, devWritten_absent hn .., devWritten_seq ..⟩,
      ⟨_, _, exec_read hs, readByte_free (absent_of_attached hn).1 _ _ _, devReadDone_absent hn .., devReadDone_seq ..⟩⟩

/-! ## One request after another (20_memory R46, R59) -/

theorem clkGet_clkSet (c : ClkRegs) (r : ClkReg) (v : Byte) : clkGet (clkSet c r v) r = v := by
  cases r <;> rfl

/-- A write of a calendar register keeps a clock halted, unless it clears CH (10_state R29). -/
theorem halted_clkSet {c : ClkRegs} {r : ClkReg} {v : Byte} (h : halted c = true) (hv : r = .seconds → v.getLsbD 7 = true) :
    halted (clkSet c r v) = true := by
  cases r with
  | seconds => exact hv rfl
  | _ => exact h

/-- The pair of RAM requests, by what each of them does. -/
theorem ram_reads_back {a : Addr} {v : Byte} (x : Byte) {s : State} (hs : AtRest s) (ht : Timely s.cfg)
    (hm : ramOk s = true) (ha : a.toNat < 31) :
    ∃ t u, exec (.wrram a v) s = .next t ∧ exec (.rdram a x) t = .next u ∧ u.rdata = v ∧ u.rvalid = true
      ∧ (halted s.dev.clk = true → u.dev.clk = s.dev.clk) := by
  obtain ⟨d, hw, hv, -, -, hch, hclk, -⟩ := writeRam a v s hs ht.1 hm ha
  obtain ⟨e, hr, hage, -⟩ := readRam a x _ (written_atRest (d := d) hs) ht ha
  exact ⟨_, _, hw, hr, hv, rfl, fun hh => (hage.clk (hch.trans hh)).trans (hclk hh)⟩

/-- The pair of calendar requests on a halted clock, which stays halted and so does not age. -/
theorem clock_reads_back {r : ClkReg} {v : Byte} (x : Byte) {s : State} (hs : AtRest s) (ht : Timely s.cfg)
    (hh : halted s.dev.clk = true) (hv : validContent r v = true) (hch : r = .seconds → v.getLsbD 7 = true) :
    ∃ t u, exec (r.writeInstr v) s = .next t ∧ exec (r.readInstr x) t = .next u ∧ u.rdata = v ∧ u.rvalid = true
      ∧ u.dev.clk = clkSet s.dev.clk r v := by
  obtain ⟨n, e, f, d, -, hw, he, hf, -, -, hd, -⟩ := writeClock r v s hs ht.1
  rw [if_pos hv, he.clk hh] at hf
  have hfh : halted f.clk = true := hf ▸ halted_clkSet hh hch
  have hdc : d.clk = clkSet s.dev.clk r v := (hd.clk hfh).trans hf
  obtain ⟨g, u, -, hr, hg, hu, -, hget⟩ := readClock r x _ (written_atRest (d := d) hs) ht
  have hdh : halted d.clk = true := hd.ch.trans hfh
  have hbyte : clkGet g.clk r = v := by rw [hget hdh]; exact hdc ▸ clkGet_clkSet ..
  exact ⟨_, _, hw, hr, hbyte, rfl, ((hg.trans hu).clk hdh).trans hdc⟩

/-- Settles O34: by the statements of the two requests, put one after the other. -/
theorem readsBack : Obligations.ReadsBack :=
  ⟨fun _ _ x _ hs ht hm ha => ram_reads_back x hs ht hm ha, fun _ _ x _ hs ht hh hv hch => clock_reads_back x hs ht hh hv hch⟩

/-! ## Valid content is what the codec encodes (20_memory R49, 48_client_layer R107 to R110) -/

/-- Two decimal digits, one in each half of the byte. -/
theorem encodeBCD_toNat {n : Nat} (h : n ≤ 99) : (encodeBCD n).toNat = 16 * (n / 10) + n % 10 := by
  have e : (n / 10) <<< 4 ||| n % 10 = 16 * (n / 10) + n % 10 := by
    rw [← Nat.shiftLeft_add_eq_or_of_lt (by omega : n % 10 < 2 ^ 4), Nat.shiftLeft_eq]; omega
  rw [encodeBCD, e, BitVec.toNat_ofNat]
  omega

/-- The byte is two decimal digits that make a value of `lo..hi`. -/
def Digits (lo hi : Nat) (v : Byte) : Prop :=
  v.toNat % 16 ≤ 9 ∧ lo ≤ 10 * (v.toNat / 16) + v.toNat % 16 ∧ 10 * (v.toNat / 16) + v.toNat % 16 ≤ hi

theorem digits_iff {lo hi : Nat} (h : hi ≤ 99) (v : Byte) : Digits lo hi v ↔ ∃ n, lo ≤ n ∧ n ≤ hi ∧ v = encodeBCD n := by
  constructor
  · rintro ⟨h9, hlo, hhi⟩
    exact ⟨_, hlo, hhi, BitVec.eq_of_toNat_eq (by rw [encodeBCD_toNat (by omega)]; omega)⟩
  · rintro ⟨n, hlo, hhi, rfl⟩
    have e := encodeBCD_toNat (hhi.trans h)
    refine ⟨?_, ?_, ?_⟩ <;> omega

theorem digits_zero_iff {hi : Nat} (h : hi ≤ 99) (v : Byte) : Digits 0 hi v ↔ ∃ n ≤ hi, v = encodeBCD n := by
  simp [digits_iff h]

/-- No bit from `k` up is set in a byte below `2 ^ k`. -/
theorem getBits_high_eq_zero {v : Byte} {k : Nat} (hk : k ≤ 7) : getBits v k 7 = 0 ↔ v.toNat < 2 ^ k := by
  have hv : v.toNat < 2 ^ k * 2 ^ (8 - k) := by rw [← Nat.pow_add, Nat.add_sub_cancel' (by omega)]; exact v.isLt
  rw [getBits, Nat.shiftRight_eq_div_pow, Nat.mod_eq_of_lt (Nat.div_lt_of_lt_mul hv),
    Nat.div_eq_zero_iff_lt (Nat.two_pow_pos k)]

/-- The tens digit in bits `4..th` is the whole upper half where the bits above it are zero, as they are in every value that
the digit can hold. -/
theorem bcdField_iff {v : Byte} {th lo hi : Nat} (h4 : 4 ≤ th) (h7 : th < 7) (hhi : hi < 10 * 2 ^ (th - 3)) :
    (decide (getBits v (th + 1) 7 = 0) && bcdWithin v th lo hi) = true ↔ Digits lo hi v := by
  rw [Bool.and_eq_true, decide_eq_true_eq, getBits_high_eq_zero h7]
  simp only [bcdWithin, getBits, Digits, Nat.shiftRight_eq_div_pow, Bool.and_eq_true, decide_eq_true_eq]
  interval_cases th <;> omega

theorem bcdByte_iff {v : Byte} {lo hi : Nat} : bcdWithin v 7 lo hi = true ↔ Digits lo hi v := by
  have := v.isLt
  simp only [bcdWithin, getBits, Digits, Nat.shiftRight_eq_div_pow, Bool.and_eq_true, decide_eq_true_eq]
  omega

/-- The halt bit stands above the two digits (48_client_layer R108). -/
theorem encodeSeconds_toNat {n : Nat} (h : n ≤ 59) (run : Bool) :
    (encodeSeconds n run).toNat = (if run then 0 else 128) + (16 * (n / 10) + n % 10) := by
  have e := encodeBCD_toNat (n := n) (by omega)
  cases run with
  | true => simp [encodeSeconds, e]
  | false =>
    have e7 := Nat.shiftLeft_add_eq_or_of_lt (by omega : 16 * (n / 10) + n % 10 < 2 ^ 7) 1
    rw [Nat.or_comm] at e7
    simpa [encodeSeconds, BitVec.toNat_or, e] using e7.symm

theorem validContent_seconds_iff (v : Byte) :
    validContent .seconds v = true ↔ ∃ n ≤ 59, ∃ run : Bool, v = encodeSeconds n run := by
  have hv := v.isLt
  simp only [validContent, bcdWithin, getBits, Nat.shiftRight_eq_div_pow, Bool.and_eq_true, decide_eq_true_eq]
  constructor
  · rintro ⟨⟨h9, -⟩, hhi⟩
    refine ⟨_, hhi, decide (v.toNat < 128), BitVec.eq_of_toNat_eq ?_⟩
    rw [encodeSeconds_toNat hhi]
    simp only [decide_eq_true_eq]
    split <;> omega
  · rintro ⟨n, hn, run, rfl⟩
    rw [encodeSeconds_toNat hn]
    split <;> omega

theorem validContent_day_iff (v : Byte) : validContent .day v = true ↔ ∃ n ≤ 6, v = encodeDay n := by
  simp only [validContent, Bool.and_eq_true, decide_eq_true_eq]
  constructor
  · rintro ⟨h1, h7⟩
    exact ⟨v.toNat - 1, by omega, BitVec.eq_of_toNat_eq (by rw [encodeDay, BitVec.toNat_ofNat]; omega)⟩
  · rintro ⟨n, hn, rfl⟩
    rw [encodeDay, BitVec.toNat_ofNat]
    omega

theorem validContent_year_iff (v : Byte) :
    validContent .year v = true ↔ ∃ n, 2000 ≤ n ∧ n ≤ 2099 ∧ v = encodeYear n := by
  refine (bcdByte_iff.trans (digits_zero_iff (by decide) v)).trans ⟨?_, ?_⟩
  · rintro ⟨n, hn, rfl⟩
    exact ⟨2000 + n, by omega, by omega, by rw [encodeYear, Nat.add_sub_cancel_left]⟩
  · rintro ⟨n, -, hn, rfl⟩
    exact ⟨n - 2000, by omega, rfl⟩

/-- Settles O45: valid content is two decimal digits within the range, with no bit set above the tens digit's field. -/
theorem validContent_iff_encoded : Obligations.ValidContent :=
  ⟨validContent_seconds_iff,
    fun v => (bcdField_iff (by decide) (by decide) (by decide)).trans (digits_zero_iff (by decide) v),
    fun v => (bcdField_iff (by decide) (by decide) (by decide)).trans (digits_zero_iff (by decide) v),
    fun v => (bcdField_iff (by decide) (by decide) (by decide)).trans (digits_iff (by decide) v),
    fun v => (bcdField_iff (by decide) (by decide) (by decide)).trans (digits_iff (by decide) v),
    validContent_day_iff, validContent_year_iff⟩

end Sys2Proof.Machine
end

section
/-! SUPPORT. The device on its lines (20_memory R45, R51 to R57): what a command byte, a level on a line, a system-clock period, a
data byte sent and one edge of the block do to its contents. -/

namespace Sys2Proof.Machine

/-! ## Command bytes at the device (20_memory R53, R55 to R58) -/

theorem devCommit_inContract {c : Config} (h : inContract c = true) (n : Nat) (sp : Space) (a : Addr) (v : Byte)
    (d : Device) : devCommit c n sp a v d = devWrite n sp a v d := by
  rw [devCommit, if_pos h]

/-- A read of a documented address under the contract only makes the device drive. -/
theorem devDrive_documented {c : Config} (h : inContract c = true) {sp : Space} {a : Addr}
    (hl : locate sp a ≠ .undocumented) (n : Nat) (d : Device) :
    devDrive c n sp a d = { d with seq := { d.seq with dout := some (devReadByte n sp a d) } } := by
  rw [devDrive, if_pos h, devReadAfter_documented hl]

/-- The two reasons for which a command leaves an attached device's contents free (20_memory R50, R58). -/
def LeavesFree (c : Config) (sp : Space) (a : Addr) : Prop :=
  outOfTime c = true ∨ (inContract c = true ∧ locate sp a = .undocumented)

theorem leavesFree_of_attached {c : Config} {sp : Space} {a : Addr} (h : c.attached = true)
    (hl : premise c = false ∨ locate sp a = .undocumented) : LeavesFree c sp a := by
  cases hp : premise c with
  | false => exact .inl (by simp [outOfTime, h, hp])
  | true =>
    rw [hp] at hl
    exact .inr ⟨by simp [inContract, h, hp], hl.resolve_left (by simp)⟩

theorem LeavesFree.commit {c : Config} {sp : Space} {a : Addr} (h : LeavesFree c sp a) (n : Nat) (v : Byte) (d : Device) :
    devCommit c n sp a v d = havoc n d := by
  rcases h with ho | ⟨hc, hl⟩
  · simp [devCommit, inContract_of_outOfTime ho, ho]
  · rw [devCommit_inContract hc, devWrite_undocumented hl]

theorem LeavesFree.drive {c : Config} {sp : Space} {a : Addr} (h : LeavesFree c sp a) (n : Nat) (d : Device) :
    SameStore (havoc n d) (devDrive c n sp a d) := by
  rcases h with ho | ⟨hc, hl⟩
  · simp only [devDrive, inContract_of_outOfTime ho, ho]
    exact .of_seq _ _
  · simp only [devDrive, hc, devReadAfter_undocumented hl]
    exact .of_seq _ _

/-- In an open frame an attached device acts, and one drawing is used up. -/
theorem deviceActs_attached {s : State} (hr : s.rstO = true) (ha : s.cfg.attached = true) (f : Nat → Device → Device) :
    deviceActs f s = { s with dev := f s.draws s.dev, draws := s.draws + 1 } := by
  simp [deviceActs, hr, ha]

/-- Outside a frame, and with no device attached, nothing acts. -/
theorem deviceActs_unheard {s : State} (h : s.rstO = false ∨ s.cfg.attached = false) (f : Nat → Device → Device) :
    deviceActs f s = s := by
  rcases h with h | h <;> simp [deviceActs, h]

theorem attached_of_inContract {c : Config} (h : inContract c = true) : c.attached = true :=
  (Bool.and_eq_true _ _ ▸ h).1

/-- The write command of any address of either space (30_encoding R64). -/
def commandWriteInstr : Space → Addr → Instr
  | .clk, a => .cmdClkWrite a
  | .ram, a => .cmdRamWrite a

/-- The read command of any address of either space (30_encoding R64). -/
def commandReadInstr : Space → Addr → Instr
  | .clk, a => .cmdClkRead a
  | .ram, a => .cmdRamRead a

theorem exec_commandWrite (sp : Space) (a : Addr) {s : State} (hr : s.rstO = true) (ha : s.cfg.attached = true) :
    ∃ q, exec (commandWriteInstr sp a) s = .next { s with
      dev := devCommit s.cfg s.draws sp a s.dev.seq.din { s.dev with seq := q }, draws := s.draws + 1 } := by
  cases sp with
  | clk | ram => exact ⟨_, congrArg _ (deviceActs_attached hr ha _)⟩

theorem exec_commandRead (sp : Space) (a : Addr) {s : State} (hr : s.rstO = true) (ha : s.cfg.attached = true) :
    ∃ q, exec (commandReadInstr sp a) s = .next { s with
      dev := devDrive s.cfg s.draws sp a { s.dev with seq := q }, draws := s.draws + 1 } := by
  cases sp with
  | clk | ram => exact ⟨_, congrArg _ (deviceActs_attached hr ha _)⟩

/-- Settles O40: the commit is the store at the command's own address; its progress is no part of the contents. -/
theorem commandWrites : Obligations.CommandWrites := by
  refine ⟨fun a s hr hc hm ha => ?_, fun r s hr hc => ?_⟩
  · obtain ⟨q, hrun⟩ := exec_commandWrite .ram a hr (attached_of_inContract hc)
    rw [devCommit_inContract hc, devWrite_ram ha] at hrun
    have hread := memRead_memWrite (storeOk_iff.mp hm).1 a.toNat s.dev.seq.din
    exact ⟨_, hrun, by simp [hread], fun b hb => by simp [hread, hb], rfl, rfl⟩
  · obtain ⟨q, hrun⟩ := exec_commandWrite .clk r.addr hr (attached_of_inContract hc)
    rw [devCommit_inContract hc, devWrite_clk] at hrun
    exact ⟨_, _, hrun, rfl, rfl, rfl⟩

/-- Settles O41: at a documented address the device only starts to drive. -/
theorem commandReads : Obligations.CommandReads := by
  refine ⟨fun a s hr hc ha => ?_, fun r s hr hc => ?_⟩
  · obtain ⟨q, hrun⟩ := exec_commandRead .ram a hr (attached_of_inContract hc)
    rw [devDrive_documented hc (locate_ram_documented ha), devReadByte_ram ha] at hrun
    exact ⟨_, hrun, rfl, rfl, rfl, rfl⟩
  · obtain ⟨q, hrun⟩ := exec_commandRead .clk r.addr hr (attached_of_inContract hc)
    rw [devDrive_documented hc (locate_clk_documented r), devReadByte_clk] at hrun
    exact ⟨_, hrun, rfl, rfl, rfl, rfl⟩

/-- The two commands of an address that leave the contents free. -/
theorem LeavesFree.commands {sp : Space} {a : Addr} {s : State} (h : LeavesFree s.cfg sp a) (hr : s.rstO = true)
    (ha : s.cfg.attached = true) :
    (∃ n e d, exec (commandWriteInstr sp a) s = .next { s with dev := d, draws := s.draws + 1 } ∧ SameStore (havoc n e) d)
    ∧ (∃ n e d, exec (commandReadInstr sp a) s = .next { s with dev := d, draws := s.draws + 1 }
      ∧ SameStore (havoc n e) d) := by
  obtain ⟨q, hw⟩ := exec_commandWrite sp a hr ha
  obtain ⟨p, hd⟩ := exec_commandRead sp a hr ha
  rw [h.commit] at hw
  exact ⟨⟨_, _, _, hw, .refl _⟩, ⟨_, _, _, hd, h.drive _ _⟩⟩

/-- Settles O42: each reason makes the commit, and the start of driving, a havoc. -/
theorem commandsHavoc : Obligations.CommandsHavoc := by
  refine ⟨fun a s hr ha h => ?_, fun a s hr ha h => ?_, fun x s hr ha => ?_⟩
  · exact (leavesFree_of_attached ha (h.imp_right fun h7 => locate_undocumented (.inl ⟨rfl, h7⟩))).commands (sp := .clk) hr ha
  · exact (leavesFree_of_attached ha (h.imp_right fun h31 => locate_undocumented (.inr ⟨rfl, h31⟩))).commands (sp := .ram) hr ha
  · exact ⟨_, _, _, congrArg _ (deviceActs_attached hr ha _), .refl _⟩

/-! ## The lines, with no frame or no device (20_memory R53, R57) -/

theorem driveClk_absent {s : State} (h : s.cfg.attached = false) (b : Bool) : SameStore s.dev (driveClk b s).dev := by
  unfold driveClk
  split
  · exact devRise_absent h _ _ _
  · split
    · exact devFall_absent h _ _
    · exact .refl _

theorem devClose_sameStore {c : Config} (h : outOfTime c = false) (n : Nat) (d : Device) : SameStore d (devClose c n d) := by
  rw [devClose_keeps h]; exact .of_seq _ _

theorem devOpen_sameStore (d : Device) : SameStore d (devOpen d) := .of_seq _ _

theorem driveRst_absent {s : State} (h : s.cfg.attached = false) (b : Bool) : SameStore s.dev (driveRst b s).dev := by
  unfold driveRst
  split
  · exact devOpen_sameStore _
  · split
    · exact devClose_sameStore (absent_of_attached h).2 _ _
    · exact .refl _

/-- Settles O43: the device sees CLK and command bytes in a frame only, and an absent one has no contents to change. -/
theorem deviceNeedsFrame : Obligations.DeviceNeedsFrame := by
  refine fun s => ⟨fun hr => ?_, fun hr => ?_, fun h => ?_, fun h => ⟨driveClk_absent h, driveRst_absent h⟩⟩
  · rw [driveRst_rise_dev hr]
    exact ⟨fun b => driveClk_outside_dev b hr, fun b => driveIo_dev b s, rfl, devOpen_sameStore _⟩
  · rw [driveRst_fall_dev hr, devClose_seq]
  · have hs := fun f => congrArg (Host.Outcome.next (φ := Fault) (ρ := Refusal)) (deviceActs_unheard h f)
    exact ⟨fun a => ⟨hs _, hs _, hs _, hs _⟩, fun x => hs _⟩

/-! ## Timekeeping (20_memory R51) -/

theorem tick_running {c : ClkRegs} (h : halted c = false) (n : Nat) :
    tick n c = { drawnClk .tick n with seconds := putBit (drawnClk .tick n).seconds 7 false } := by
  simp [tick, h]

/-- Settles O44: a period offers the device one tick, which keeps CH. -/
theorem timekeeping : Obligations.Timekeeping := by
  intro s
  obtain ⟨hram, hundoc, hch, hclk⟩ := devPass_sameStore s.draws s.dev
  refine ⟨hram, hundoc, hch, hclk, fun hh => ⟨s.draws, ?_⟩⟩
  have e : (advance s).dev.clk = _ := tick_running hh s.draws
  rw [e]
  refine ⟨fun j hj => ?_, rfl, rfl, rfl, rfl, rfl, rfl⟩
  exact (bitOf_putBit _ 7 j false (by omega) (by omega)).trans (if_neg (by omega))

/-! ## The data byte of a write (20_memory R55) -/

/-- Settles O37: the frame holds the command and no data bit yet, so the byte sent is committed whole. -/
theorem sendDataByte : Obligations.SendDataByte := by
  intro b v s hr hc ho hp hf hri hfa hcmd hm hw
  have h0 : Taking b v 0 s.dev s.dev := ⟨hf, hri, hfa, hcmd, sentSoFar_zero _ _, .refl _⟩
  obtain ⟨e, he, hd, -⟩ := h0.commit hm hw s.cfg s.draws
  rw [devCommit_inContract hp] at hd
  exact ⟨_, e, _, congrArg _ (sendByte_eq hr hc ho), he, hd⟩

/-! ## One edge at the device (20_memory R45, R50, R55, 41_sequencer R89) -/

/-- What one row of 41_sequencer R91 does to the device: nothing, or an edge of one of the lines. -/
inductive DeviceEdge (s : State) : Device → Prop
  | none (still : s.t = 1 → s.ph ≠ .txl ∧ s.ph ≠ .txh) : DeviceEdge s s.dev
  | opens (idle : s.ph = .idle) : DeviceEdge s (devOpen s.dev)
  | rises (low : s.ph = .txl ∨ s.ph = .rxl) (one : s.t = 1) : DeviceEdge s (devRise s.cfg s.draws (ioLevel s) s.dev)
  | falls (high : s.ph = .txh ∨ s.ph = .rxh) (one : s.t = 1) : DeviceEdge s (devFall s.cfg s.draws s.dev)
  | closes (hold : s.ph = .hold) : DeviceEdge s (devClose s.cfg s.draws s.dev)

theorem row16_dev (s : State) : (row16 s).dev = (driveRst false s).dev := by unfold row16; split <;> rfl

theorem rowAction_device {p : Ports} {s t : State} (hl : linesOk s = true) (he : rowAction p s = .next t) :
    DeviceEdge s t.dev := by
  obtain ⟨hr, hc, -, -⟩ := linesOk_iff.mp hl
  have hrise (h : s.ph = .txl ∨ s.ph = .rxl) (h1 : s.t = 1) : DeviceEdge s (driveClk true s).dev := by
    rw [driveClk_rise_dev (by rcases h with h | h <;> simp [hr, h, Phase.active])
      (by rcases h with h | h <;> simp [hc, h, Phase.clockHigh])]
    exact .rises h h1
  have hfall (h : s.ph = .txh ∨ s.ph = .rxh) (h1 : s.t = 1) : DeviceEdge s (driveClk false s).dev := by
    rw [driveClk_fall_dev (by rcases h with h | h <;> simp [hr, h, Phase.active])
      (by rcases h with h | h <;> simp [hc, h, Phase.clockHigh])]
    exact .falls h h1
  have hopen (w : ReqWord) (h : s.ph = .idle) : DeviceEdge s (row5 w s).dev := by
    rw [row5, accept_dev _ _ _ _ (by simp [hr, h, Phase.active])]
    exact .opens h
  have hnone {ph : Phase} (h : s.ph = ph) (hne : ph ≠ .txl ∧ ph ≠ .txh) : DeviceEdge s s.dev := .none fun _ => h ▸ hne
  have hclose (h : s.ph = .hold) : DeviceEdge s (row16 s).dev := by
    rw [row16_dev, driveRst_fall_dev (by simp [hr, h, Phase.active])]
    exact .closes h
  rcases rowAction_cases he with ⟨-, more, rfl⟩ | ⟨hp, rfl⟩ | ⟨hp, -, rfl⟩ | ⟨hp, -, rfl⟩ | ⟨hp, -, -, rfl⟩ | ⟨hp, -, -, rfl⟩
    | ⟨hp, -, rfl⟩ | ⟨hp, h1, rfl⟩ | ⟨hp, h1, -, rfl⟩ | ⟨hp, h1, -, -, -, rfl⟩ | ⟨hp, h1, -, -, -, rfl⟩ | ⟨hp, h1, -, -, rfl⟩
    | ⟨hp, -, -, rfl⟩ | ⟨hp, -, -, rfl⟩ | ⟨hp, h1, rfl⟩ | ⟨hp, h1, rfl⟩ | ⟨hp, -, rfl⟩
  · exact .none fun h1 => absurd h1 (Nat.ne_of_gt more)
  · exact hnone hp (by decide)
  · exact hnone hp (by decide)
  · exact hnone hp (by decide)
  · exact hnone hp (by decide)
  · exact hopen _ hp
  · exact hnone hp (by decide)
  · exact hrise (.inl hp) h1
  · exact hfall (.inl hp) h1
  · exact hfall (.inl hp) h1
  · exact hfall (.inl hp) h1
  · exact hfall (.inl hp) h1
  · exact hnone hp (by decide)
  · exact hnone hp (by decide)
  · exact hrise (.inr hp) h1
  · exact hfall (.inr hp) h1
  · exact hclose hp

theorem DeviceEdge.eq_rise {s : State} {d : Device} (h : DeviceEdge s d) (hp : s.ph = .txl) (h1 : s.t = 1) :
    d = devRise s.cfg s.draws (ioLevel s) s.dev := by
  cases h with
  | none still => exact absurd hp (still h1).1
  | opens ph | falls ph | closes ph => simp [hp] at ph
  | rises => rfl

theorem DeviceEdge.eq_fall {s : State} {d : Device} (h : DeviceEdge s d) (hp : s.ph = .txh) (h1 : s.t = 1) :
    d = devFall s.cfg s.draws s.dev := by
  cases h with
  | none still => exact absurd hp (still h1).2
  | opens ph | rises ph | closes ph => simp [hp] at ph
  | falls => rfl

/-- With no device attached no line changes the contents (41_sequencer R89). -/
theorem DeviceEdge.absent {s : State} {d : Device} (h : DeviceEdge s d) (hn : s.cfg.attached = false) :
    SameStore s.dev d := by
  cases h with
  | none => exact .refl _
  | opens => exact devOpen_sameStore _
  | rises => exact devRise_absent hn ..
  | falls => exact devFall_absent hn ..
  | closes => exact devClose_sameStore (absent_of_attached hn).2 ..

/-! ### What the invariant says of the device at a CLK edge -/

theorem MachineInv.selOk {s : State} (h : MachineInv s) (hi : s.inited = true) : selOk s = true :=
  ((inv_iff hi).mp ⟨h.1, h.2.1⟩).2.2.2.1

theorem MachineInv.indexOk {s : State} (h : MachineInv s) (hi : s.inited = true) : indexOk s = true :=
  ((inv_iff hi).mp ⟨h.1, h.2.1⟩).2.2.1

theorem MachineInv.syncOk {s : State} (h : MachineInv s) (hi : s.inited = true) : syncOk s = true :=
  ((inv_iff hi).mp ⟨h.1, h.2.1⟩).2.2.2.2.2

/-- Once eight bits have been sent the device holds the command byte (20_memory R54). -/
theorem cmd_of_progress {s : State} {r f : Nat} (h : progress s r f = true) (hr : 8 ≤ r) : s.dev.seq.cmd = s.cmdr :=
  let ⟨_, _, _, hc, _⟩ := progress_iff.mp h
  sentSoFar_eight hr hc

/-- A rising edge that neither ends a command byte with bit 7 = 0 nor ends the data byte of a write changes no contents. -/
theorem devRise_sameStore {c : Config} {n : Nat} {lvl : Bool} {d : Device}
    (hm : d.seq.rises = 7 → cmdMarker (putBit d.seq.cmd 7 lvl) = true)
    (hw : d.seq.rises = 15 → isRead d.seq.cmd = true) : SameStore d (devRise c n lvl d) := by
  by_cases h8 : d.seq.rises < 8
  · rcases Nat.lt_or_eq_of_le (Nat.le_of_lt_succ h8) with h | h
    · rw [devRise_command h]; exact .of_seq _ _
    · rw [devRise_command_last h (hm h)]; exact .of_seq _ _
  · simp only [devRise, if_neg h8]
    split
    · next h => rw [if_neg (fun h15 => by simp [hw h15] at h)]; exact .of_seq _ _
    · exact .of_seq _ _

/-- Under the contract a falling edge changes contents only where a read of an undocumented address starts (20_memory R50). -/
theorem devFall_sameStore {c : Config} (hc : inContract c = true) {n : Nat} {d : Device}
    (h : d.seq.falls = 7 → isRead d.seq.cmd = true → locate (cmdSpace d.seq.cmd) (cmdAddr d.seq.cmd) ≠ .undocumented) :
    SameStore d (devFall c n d) := by
  by_cases hf : d.seq.falls = 7 ∧ cmdMarker d.seq.cmd = true ∧ isRead d.seq.cmd = true
  · obtain ⟨h7, hm, hr⟩ := hf
    rw [devFall_read h7 hm hr, devDrive_documented hc (h h7 hr)]
    exact .of_seq d _
  · rw [devFall_plain (fun h7 hm hr => hf ⟨h7, hm, hr⟩)]
    exact .of_seq d _

/-- The progress of a transaction is no part of what a write does to the contents. -/
theorem devWrite_setSeq (n : Nat) (sp : Space) (a : Addr) (v : Byte) (d : Device) (q : DevSeq) :
    devWrite n sp a v { d with seq := q } = { devWrite n sp a v d with seq := q } := by
  cases hl : locate sp a with
  | ram i => simp only [devWrite, hl]
  | clk r => simp only [devWrite, hl]; split <;> rfl
  | undocumented => simp only [devWrite, hl, havoc]

theorem MachineInv.marker_of_tx {s : State} (h : MachineInv s) (hi : s.inited = true) (hp : s.ph = .txl ∨ s.ph = .txh) :
    cmdMarker s.cmdr = true ∧ (s.sel = .cmd ∨ isRead s.cmdr = false) := by
  have := h.selOk hi
  rcases hp with hp | hp <;> simpa [Machine.selOk, hp] using this

theorem MachineInv.sync_txl {s : State} (h : MachineInv s) (hi : s.inited = true) (hp : s.ph = .txl) :
    progress s (slotBase s) (slotBase s) = true ∧ s.ioO = bitOf (selectedByte s) s.k.toNat := by
  simpa [Machine.syncOk, hp] using h.syncOk hi

theorem MachineInv.sync_txh {s : State} (h : MachineInv s) (hi : s.inited = true) (hp : s.ph = .txh) :
    progress s (slotBase s + 1) (slotBase s) = true := by
  have := h.syncOk hi
  simp only [Machine.syncOk, hp, Bool.and_eq_true] at this
  exact this.1

/-- In a transmitting phase IO carries the block's own level (10_state R13, R15). -/
theorem MachineInv.ioLevel_txl {s : State} (h : MachineInv s) (hi : s.inited = true) (hp : s.ph = .txl) :
    ioLevel s = bitOf (selectedByte s) s.k.toNat := by
  obtain ⟨-, -, ho, -⟩ := linesOk_iff.mp (h.linesOk hi)
  rw [ioLevel, if_pos (by simp [ho, hp, Phase.receiving]), (h.sync_txl hi hp).2]

/-! ### The edge at which each kind of transaction touches the contents -/

/-- The sixteenth rising edge of a write. -/
def CommitEdge (s : State) : Prop :=
  s.ph = .txl ∧ s.t = 1 ∧ s.sel = .data ∧ s.k = 7#4

/-- The eighth falling edge of a read of an undocumented address. -/
def FreeReadEdge (s : State) : Prop :=
  s.ph = .txh ∧ s.t = 1 ∧ s.sel = .cmd ∧ s.k = 7#4 ∧ isRead s.cmdr = true
    ∧ locate (cmdSpace s.cmdr) (cmdAddr s.cmdr) = .undocumented

/-- The device has received the whole data byte, and stores it (20_memory R55). -/
theorem MachineInv.devRise_commit {s : State} (h : MachineInv s) (hi : s.inited = true) (hc : inContract s.cfg = true)
    (hp : s.ph = .txl) (hs : s.sel = .data) (hk : s.k = 7#4) :
    s.dev.seq.rises = 15
      ∧ devRise s.cfg s.draws (ioLevel s) s.dev = { devWrite s.draws (cmdSpace s.cmdr) (cmdAddr s.cmdr) s.wdr s.dev with
          seq := { s.dev.seq with din := s.wdr, rises := 16 } } := by
  obtain ⟨hm, hd⟩ := h.marker_of_tx hi (.inl hp)
  have hw : isRead s.cmdr = false := hd.resolve_left (by simp [hs])
  have hslot : slotBase s = 15 := by simp [slotBase, hs, hk]
  have hprog := (h.sync_txl hi hp).1
  rw [hslot] at hprog
  obtain ⟨-, hrises, -, -, hdin⟩ := progress_iff.mp hprog
  have hcmd := cmd_of_progress hprog (by omega)
  have hbyte : putBit s.dev.seq.din 7 (ioLevel s) = s.wdr := by
    rw [h.ioLevel_txl hi hp, hk]
    simp only [selectedByte, hs]
    exact sentSoFar_eight (Nat.le_refl 8) (sentSoFar_putBit (by omega) (hdin.resolve_left (by simp [hw])))
  refine ⟨hrises, ?_⟩
  rw [devRise_data_last hrises (hcmd ▸ hm) (hcmd ▸ hw), hbyte, hcmd, devCommit_inContract hc, devWrite_setSeq]

/-- Any other rising edge of a byte sent changes no contents. -/
theorem MachineInv.devRise_txl {s : State} (h : MachineInv s) (hi : s.inited = true) (hp : s.ph = .txl)
    (hn : ¬ (s.sel = .data ∧ s.k = 7#4)) : SameStore s.dev (devRise s.cfg s.draws (ioLevel s) s.dev) := by
  have hk : s.k.toNat ≤ 7 := by simpa [Machine.indexOk, hp] using h.indexOk hi
  have hk7 : s.k.toNat = 7 → s.k = 7#4 := fun e => BitVec.eq_of_toNat_eq e
  obtain ⟨-, hrises, -⟩ := progress_iff.mp (h.sync_txl hi hp).1
  cases hs : s.sel with
  | cmd =>
    rw [slotBase, hs, Nat.zero_add] at hrises
    refine devRise_sameStore (fun h7 => ?_) (fun h15 => by omega)
    have hlvl : ioLevel s = true := by
      rw [h.ioLevel_txl hi hp, ← hrises, h7, selectedByte, hs]
      exact (h.marker_of_tx hi (.inl hp)).1
    exact (bitOf_putBit _ 7 7 _ (by omega) (by omega)).trans ((if_pos rfl).trans hlvl)
  | data =>
    have hbase : slotBase s = 8 + s.k.toNat := by rw [slotBase, hs]
    exact devRise_sameStore (fun h7 => by omega) (fun h15 => absurd ⟨hs, hk7 (by omega)⟩ hn)

/-- Any rising edge of a byte received changes no contents. -/
theorem MachineInv.devRise_rxl {s : State} (h : MachineInv s) (hi : s.inited = true) (hp : s.ph = .rxl) (n : Nat)
    (lvl : Bool) : SameStore s.dev (devRise s.cfg n lvl s.dev) := by
  have hprog : progress s (slotBase s) (slotBase s) = true := by simpa [Machine.syncOk, hp] using h.syncOk hi
  have hsel := h.selOk hi
  simp only [Machine.selOk, hp, Bool.and_eq_true, decide_eq_true_eq] at hsel
  obtain ⟨⟨-, hs⟩, hr⟩ := hsel
  have h8 : 8 ≤ slotBase s := by simp [slotBase, hs]
  obtain ⟨-, hrises, -⟩ := progress_iff.mp hprog
  exact devRise_sameStore (fun h7 => by omega) (fun _ => by rw [cmd_of_progress hprog h8, hr])

/-- The eighth falling edge is the last of the command byte, which the device then holds (20_memory R56). -/
theorem MachineInv.eighth_fall {s : State} (h : MachineInv s) (hi : s.inited = true) (hp : s.ph = .txh ∨ s.ph = .rxh)
    (h7 : s.dev.seq.falls = 7) :
    s.ph = .txh ∧ s.sel = .cmd ∧ s.k = 7#4 ∧ s.dev.seq.cmd = s.cmdr := by
  have hsel := h.selOk hi
  have hprog : progress s (slotBase s + 1) (slotBase s) = true := by
    rcases hp with hp | hp
    · exact h.sync_txh hi hp
    · simpa [Machine.syncOk, hp] using h.syncOk hi
  obtain ⟨-, -, hfalls, -⟩ := progress_iff.mp hprog
  have hs : s.sel = .cmd := by
    cases hs : s.sel with
    | cmd => rfl
    | data => rw [slotBase, hs] at hfalls; dsimp only at hfalls; omega
  have hph : s.ph = .txh := hp.resolve_right fun hr => by simp [Machine.selOk, hr, hs] at hsel
  have hk : s.k.toNat = 7 := by rw [slotBase, hs] at hfalls; dsimp only at hfalls; omega
  exact ⟨hph, hs, BitVec.eq_of_toNat_eq hk, cmd_of_progress hprog (by omega)⟩

/-- A falling edge changes contents only at the start of a read of an undocumented address. -/
theorem MachineInv.devFall_keeps {s : State} (h : MachineInv s) (hi : s.inited = true) (hc : inContract s.cfg = true)
    (h1 : s.t = 1) (hp : s.ph = .txh ∨ s.ph = .rxh) (hn : ¬ FreeReadEdge s) (n : Nat) :
    SameStore s.dev (devFall s.cfg n s.dev) := by
  refine devFall_sameStore hc fun h7 hr hl => hn ?_
  obtain ⟨hph, hs, hk, hcmd⟩ := h.eighth_fall hi hp h7
  rw [hcmd] at hr hl
  exact ⟨hph, h1, hs, hk, hr, hl⟩

/-- There its contents become free (20_memory R50, log 15). -/
theorem MachineInv.devFall_free {s : State} (h : MachineInv s) (hi : s.inited = true) (hc : inContract s.cfg = true)
    (hf : FreeReadEdge s) (n : Nat) :
    s.dev.seq.falls = 7 ∧ ∃ e, SameStore (havoc n e) (devFall s.cfg n s.dev) := by
  obtain ⟨hp, -, hs, hk, hr, hl⟩ := hf
  have hprog := h.sync_txh hi hp
  have hbase : slotBase s = 7 := by simp [slotBase, hs, hk]
  obtain ⟨-, -, hfalls, -⟩ := progress_iff.mp hprog
  have hcmd := cmd_of_progress hprog (by omega)
  rw [hbase] at hfalls
  refine ⟨hfalls, ?_⟩
  rw [devFall_read hfalls (hcmd ▸ (h.marker_of_tx hi (.inr hp)).1) (hcmd ▸ hr), hcmd]
  exact ⟨_, LeavesFree.drive (.inr ⟨hc, hl⟩) n _⟩

/-- At every other edge of a line the contents stay as they are. -/
theorem DeviceEdge.keeps {s : State} {d : Device} (he : DeviceEdge s d) (h : MachineInv s) (hi : s.inited = true)
    (hc : inContract s.cfg = true) (hw : ¬ CommitEdge s) (hf : ¬ FreeReadEdge s) : SameStore s.dev d := by
  cases he with
  | none => exact .refl _
  | opens => exact devOpen_sameStore _
  | rises low one =>
    rcases low with hp | hp
    · exact h.devRise_txl hi hp fun ⟨hs, hk⟩ => hw ⟨hp, one, hs, hk⟩
    · exact h.devRise_rxl hi hp ..
  | falls high one => exact h.devFall_keeps hi hc one high hf _
  | closes => exact devClose_sameStore (outOfTime_of_inContract hc) ..

/-- Settles O35: of the edges of the lines only two touch the contents, and the invariant places both in their transactions. -/
theorem contentsChangeOnce : Obligations.ContentsChangeOnce := by
  intro p s t h hi hp he
  obtain ⟨u, hu, rfl⟩ := edge_next hp hi he
  have hd := rowAction_device (h.linesOk hi) hu
  refine ⟨fun hc => ?_, fun hn => (hd.absent hn).trans (devPass_sameStore _ _)⟩
  have hpass := devPass_seq u.draws u.dev
  split
  · next hw =>
    obtain ⟨hph, h1, hs, hk⟩ := hw
    obtain ⟨hrises, hcommit⟩ := h.devRise_commit hi hc hph hs hk
    have hu := (hd.eq_rise hph h1).trans hcommit
    refine ⟨hrises, hpass.2.1.trans (by rw [hu]), SameStore.trans ?_ (devPass_sameStore _ _)⟩
    rw [hu]
    exact .of_seq _ _
  · next hw =>
    split
    · next hf =>
      obtain ⟨hfalls, e, hfree⟩ := h.devFall_free hi hc hf s.draws
      have hu := hd.eq_fall hf.1 hf.2.1
      refine ⟨hfalls, ?_, _, e, (hu ▸ hfree).trans (devPass_sameStore _ _)⟩
      rw [advance_dev, hpass.2.2.1, hu, (devFall_seq ..).2.2.1, hfalls]
    · next hf => exact (hd.keeps h hi hc hw hf).trans (devPass_sameStore _ _)

end Sys2Proof.Machine
end

section
/-! SUPPORT. The three encodings (30_encoding R64 to R75): the fields of a word, the word of given fields, and what the
decoder and a step make of it. -/

namespace Sys2Proof.Machine

/-! ## Fields of one bit -/

theorem extractLsb'_one {n : Nat} (x : BitVec n) (i : Nat) : x.extractLsb' i 1 = BitVec.ofBool (x.getLsbD i) := by
  apply BitVec.eq_of_getLsbD_eq
  intro j hj
  obtain rfl : j = 0 := by omega
  simp

theorem bit_spaceOfBit {n : Nat} (x : BitVec n) (i : Nat) : (spaceOfBit (x.getLsbD i)).bit = x.extractLsb' i 1 := by
  rw [extractLsb'_one]
  cases x.getLsbD i <;> rfl

theorem bit_dirOfBit {n : Nat} (x : BitVec n) (i : Nat) : (dirOfBit (x.getLsbD i)).bit = x.extractLsb' i 1 := by
  rw [extractLsb'_one]
  cases x.getLsbD i <;> rfl

theorem spaceOfBit_eq_ram_iff (b : Bool) : spaceOfBit b = .ram ↔ b = true := by
  cases b <;> simp [spaceOfBit]

/-- A word is its highest bit and the rest: what the words told by that bit alone are made of (30_encoding R66, R71, R73). -/
theorem zero_append_low {n : Nat} {x : BitVec (1 + n)} (h : x.getLsbD n = false) : 0#1 ++ x.extractLsb' 0 n = x := by
  rw [show 0#1 = x.extractLsb' n 1 by rw [extractLsb'_one, h]; rfl]
  exact BitVec.extractLsb'_append_extractLsb'

theorem one_append_low {n : Nat} {x : BitVec (1 + n)} (h : x.getLsbD n = true) : 1#1 ++ x.extractLsb' 0 n = x := by
  rw [show 1#1 = x.extractLsb' n 1 by rw [extractLsb'_one, h]; rfl]
  exact BitVec.extractLsb'_append_extractLsb'

theorem zero_append_top {n : Nat} (x : BitVec n) : ¬ (0#1 ++ x).getLsbD n = true := by
  rw [BitVec.getLsbD_append]
  simp

theorem one_append_top {n : Nat} (x : BitVec n) : (1#1 ++ x).getLsbD n = true := by
  rw [BitVec.getLsbD_append]
  simp

/-! ## Command bytes -/

theorem cmdDir_cmdGen (sp : Space) (a : Addr) (d : Dir) : cmdDir (cmdGen sp a d) = d := by
  revert a; cases sp <;> cases d <;> decide

/-- A command byte with bit 7 set is the one generated from its fields (30_encoding R64). -/
theorem cmdGen_fields {b : Byte} (h : cmdMarker b = true) : cmdGen (cmdSpace b) (cmdAddr b) (cmdDir b) = b := by
  have h7 : (1#1 : BitVec 1) = b.extractLsb' 7 1 := by rw [extractLsb'_one]; exact congrArg BitVec.ofBool h.symm
  simp only [cmdGen, commandByte, cmdSpace, cmdAddr, cmdDir, bit_spaceOfBit, bit_dirOfBit]
  calc (1#1 ++ b.extractLsb' 6 1 ++ b.extractLsb' 1 5 ++ b.extractLsb' 0 1 : Byte)
    _ = b.extractLsb' 6 2 ++ b.extractLsb' 1 5 ++ b.extractLsb' 0 1 := by
      rw [h7, BitVec.extractLsb'_append_extractLsb'_eq_extractLsb' (show 7 = 6 + 1 from rfl)]
    _ = b.extractLsb' 1 7 ++ b.extractLsb' 0 1 := by
      rw [BitVec.extractLsb'_append_extractLsb'_eq_extractLsb' (show 6 = 1 + 5 from rfl)]
    _ = b := BitVec.extractLsb'_append_extractLsb'

/-- The mask of R65 drops the address and nothing else. -/
theorem cmdGen_mask (sp : Space) (a : Addr) (d : Dir) : cmdGen sp a d &&& 0xC1#8 = cmdGen sp 0#5 d := by
  revert a; cases sp <;> cases d <;> decide

/-- The instruction of a command byte with bit 7 set, by its fields (30_encoding R65). -/
def commandInstr (sp : Space) (a : Addr) : Dir → Instr
  | .write => commandWriteInstr sp a
  | .read => commandReadInstr sp a

theorem decodeCommand_fields {b : Byte} (h : cmdMarker b = true) :
    decodeCommand b = commandInstr (cmdSpace b) (cmdAddr b) (cmdDir b) := by
  have h7 : b.getLsbD 7 = true := h
  simp only [decodeCommand, cmdDir, cmdSpace, h7, if_true]
  cases spaceOfBit (b.getLsbD 6) <;> cases dirOfBit (b.getLsbD 0) <;> rfl

theorem decodeCommand_cmdGen (sp : Space) (a : Addr) (d : Dir) : decodeCommand (cmdGen sp a d) = commandInstr sp a d := by
  rw [decodeCommand_fields (cmdMarker_cmdGen ..), cmdDir_cmdGen, cmdSpace_cmdGen, cmdAddr_cmdGen]

theorem encode_commandInstr (sp : Space) (a : Addr) (d : Dir) : encode (commandInstr sp a d) = .cmd (cmdGen sp a d) := by
  cases sp <;> cases d <;> rfl

theorem wellFormed_commandInstr (sp : Space) (a : Addr) (d : Dir) : (commandInstr sp a d).wellFormed = true := by
  cases sp <;> cases d <;> rfl

/-! ## The software's command formula (30_encoding R67) -/

/-- The formula's bits: those of the command format, with the address bits taken from the address of any size. -/
theorem softwareCommand_bit (sp : Space) (addr : Nat) (d : Dir) (j : Nat) (h : j < 8) :
    (softwareCommand sp addr d).getLsbD j =
      if j = 0 then d.bit.getLsbD 0 else if j < 6 then addr.testBit (j - 1)
      else if j = 6 then sp.bit.getLsbD 0 else true := by
  have hs : (BitVec.ofNat 8 (addr * 2)).getLsbD j = (decide (1 ≤ j) && addr.testBit (j - 1)) := by
    rw [BitVec.getLsbD_ofNat, decide_eq_true h, Bool.true_and, show addr * 2 = 2 ^ 1 * addr by omega, Nat.testBit_two_pow_mul]
  cases sp with
  | clk | ram =>
    cases d with
    | write | read =>
      simp only [softwareCommand, BitVec.getLsbD_or, BitVec.getLsbD_and, hs]
      interval_cases j <;> simp [Space.bit, Dir.bit]

theorem softwareCommand_eq_cmdGen (sp : Space) (addr : Nat) (d : Dir) :
    softwareCommand sp addr d = cmdGen sp (BitVec.ofNat 5 (addr % 32)) d := by
  apply BitVec.eq_of_getLsbD_eq
  intro j hj
  have ha (i : Nat) (hi : i < 5) : (BitVec.ofNat 5 (addr % 32)).getLsbD i = addr.testBit i := by
    rw [BitVec.getLsbD_ofNat, show 32 = 2 ^ 5 from rfl, Nat.testBit_mod_two_pow]
    simp [hi]
  rw [softwareCommand_bit _ _ _ _ hj, cmdGen, Laws.commandByte_bit _ _ _ _ hj]
  split_ifs with h0 h6
  · rfl
  · rw [ha _ (by omega)]
  all_goals rfl

/-- Settles O16: the formula and the command format have the same bits, of which bit 6 is the space. -/
theorem softwareCommandAliases : Obligations.SoftwareCommandAliases := by
  refine fun sp addr d => ⟨softwareCommand_eq_cmdGen sp addr d, ?_⟩
  rw [softwareCommand_eq_cmdGen, ← spaceOfBit_eq_ram_iff]
  exact Eq.congr_left (cmdSpace_cmdGen ..)

/-! ## Request words: the command byte above the data byte (41_sequencer R85) -/

theorem requestWord_eq (sp : Space) (a : Addr) (d : Dir) (w : Byte) : requestWord sp a d w = cmdGen sp a d ++ w := rfl

theorem reqMarker_append (b v : Byte) : reqMarker (b ++ v) = cmdMarker b := BitVec.getLsbD_append
theorem reqSpace_append (b v : Byte) : reqSpace (b ++ v) = cmdSpace b := congrArg spaceOfBit BitVec.getLsbD_append
theorem reqDir_append (b v : Byte) : reqDir (b ++ v) = cmdDir b := congrArg dirOfBit BitVec.getLsbD_append
theorem reqAddr_append (b v : Byte) : reqAddr (b ++ v) = cmdAddr b := BitVec.extractLsb'_append_eq_of_le (by decide)
theorem reqData_append (b v : Byte) : reqData (b ++ v) = v := BitVec.extractLsb'_append_eq_right

theorem upper_append_reqData (w : ReqWord) : w.extractLsb' 8 8 ++ reqData w = w :=
  BitVec.extractLsb'_append_extractLsb' (w := 8) (len := 8)

/-- A request word with M = 1 is the one of its fields (30_encoding R68). -/
theorem requestWord_fields {w : ReqWord} (h : reqMarker w = true) :
    requestWord (reqSpace w) (reqAddr w) (reqDir w) (reqData w) = w := by
  rw [← upper_append_reqData w] at h ⊢
  generalize w.extractLsb' 8 8 = b at h ⊢
  rw [reqMarker_append] at h
  rw [reqSpace_append, reqAddr_append, reqDir_append, reqData_append, requestWord_eq, cmdGen_fields h]

/-- The mask of R69 drops the address and the data and nothing else. -/
theorem requestWord_mask (sp : Space) (a : Addr) (d : Dir) (w : Byte) :
    requestWord sp a d w &&& 0xC100#16 = requestWord sp 0#5 d 0#8 := by
  calc requestWord sp a d w &&& 0xC100#16
    _ = (cmdGen sp a d &&& 0xC1#8) ++ (w &&& 0#8) := BitVec.and_append (x₂ := 0xC1#8) (y₂ := 0#8)
    _ = requestWord sp 0#5 d 0#8 := by rw [cmdGen_mask, BitVec.and_zero, requestWord_eq]

/-! ## Calendar addresses (30_encoding R75) -/

theorem addr_named_or_seven_le (a : Addr) : (∃ r : ClkReg, a = r.addr) ∨ 7 ≤ a.toNat := by
  obtain ⟨a, ha⟩ := a
  by_cases h : 7 ≤ a
  · exact .inr h
  · left
    interval_cases a
    exacts [⟨.seconds, rfl⟩, ⟨.minutes, rfl⟩, ⟨.hours, rfl⟩, ⟨.date, rfl⟩, ⟨.month, rfl⟩, ⟨.day, rfl⟩, ⟨.year, rfl⟩]

/-- The instruction of a calendar register's name. -/
def namedInstr (r : ClkReg) : Dir → Byte → Instr
  | .write => r.writeInstr
  | .read => r.readInstr

/-- The instruction of an address by its number. -/
def numberedInstr (sp : Space) (a : Addr) : Dir → Byte → Instr
  | .write => writeInstr sp a
  | .read => readInstr sp a

theorem decodeClock_named (r : ClkReg) (d : Dir) (w : Byte) : decodeClock r.addr d w = namedInstr r d w := by
  cases d <;> cases r <;> rfl

theorem decodeClock_numbered {a : Addr} (h : 7 ≤ a.toNat) (d : Dir) (w : Byte) :
    decodeClock a d w = numberedInstr .clk a d w := by
  obtain ⟨a, ha⟩ := a
  have h : 7 ≤ a := h
  cases d <;> interval_cases a <;> rfl

theorem encode_namedInstr (r : ClkReg) (d : Dir) (w : Byte) :
    encode (namedInstr r d w) = .req (requestWord .clk r.addr d w) := by
  cases d <;> cases r <;> rfl

theorem encode_numberedInstr (sp : Space) (a : Addr) (d : Dir) (w : Byte) :
    encode (numberedInstr sp a d w) = .req (requestWord sp a d w) := by
  cases sp <;> cases d <;> rfl

theorem wellFormed_namedInstr (r : ClkReg) (d : Dir) (w : Byte) : (namedInstr r d w).wellFormed = true := by
  cases d <;> cases r <;> rfl

theorem wellFormed_numberedInstr {sp : Space} {a : Addr} (h : sp = .clk → 7 ≤ a.toNat) (d : Dir) (w : Byte) :
    (numberedInstr sp a d w).wellFormed = true := by
  cases sp with
  | clk => cases d <;> exact decide_eq_true (h rfl)
  | ram => cases d <;> rfl

/-! ## Decoding a request -/

/-- The instruction of a request word with M = 1, by its fields (30_encoding R69, R75). -/
def requestInstr : Space → Addr → Dir → Byte → Instr
  | .clk => decodeClock
  | .ram => decodeRam

theorem requestInstr_cases (sp : Space) (a : Addr) (d : Dir) (w : Byte) :
    (∃ r : ClkReg, sp = .clk ∧ a = r.addr ∧ requestInstr sp a d w = namedInstr r d w)
    ∨ (sp = .clk → 7 ≤ a.toNat) ∧ requestInstr sp a d w = numberedInstr sp a d w := by
  cases sp with
  | clk =>
    obtain ⟨r, rfl⟩ | h := addr_named_or_seven_le a
    · exact .inl ⟨r, rfl, rfl, decodeClock_named ..⟩
    · exact .inr ⟨fun _ => h, decodeClock_numbered h ..⟩
  | ram => exact .inr ⟨nofun, by cases d <;> rfl⟩

theorem encode_requestInstr (sp : Space) (a : Addr) (d : Dir) (w : Byte) :
    encode (requestInstr sp a d w) = .req (requestWord sp a d w) := by
  obtain ⟨r, rfl, rfl, e⟩ | ⟨-, e⟩ := requestInstr_cases sp a d w
  · rw [e, encode_namedInstr]
  · rw [e, encode_numberedInstr]

theorem wellFormed_requestInstr (sp : Space) (a : Addr) (d : Dir) (w : Byte) :
    (requestInstr sp a d w).wellFormed = true := by
  obtain ⟨r, -, -, e⟩ | ⟨h, e⟩ := requestInstr_cases sp a d w
  · rw [e, wellFormed_namedInstr]
  · rw [e, wellFormed_numberedInstr h]

theorem decodeRequest_fields {w : ReqWord} (h : reqMarker w = true) :
    decodeRequest w = requestInstr (reqSpace w) (reqAddr w) (reqDir w) (reqData w) := by
  have h15 : w.getLsbD 15 = true := h
  rw [decodeRequest, if_pos h15, reqSpace]
  cases spaceOfBit (w.getLsbD 14) <;> rfl

theorem decodeRequest_requestWord (sp : Space) (a : Addr) (d : Dir) (w : Byte) :
    decodeRequest (requestWord sp a d w) = requestInstr sp a d w := by
  rw [requestWord_eq, decodeRequest_fields ((reqMarker_append ..).trans (cmdMarker_cmdGen ..)), reqSpace_append,
    reqAddr_append, reqDir_append, reqData_append, cmdSpace_cmdGen, cmdAddr_cmdGen, cmdDir_cmdGen]

theorem decodeRequest_reserved (x : BitVec 15) : decodeRequest (0#1 ++ x) = .reserved x := by
  rw [decodeRequest, if_neg (zero_append_top x), BitVec.extractLsb'_append_eq_right]

theorem decodeCommand_neverSent (x : BitVec 7) : decodeCommand (0#1 ++ x) = .cmdNeverSent x := by
  rw [decodeCommand, if_neg (zero_append_top x), BitVec.extractLsb'_append_eq_right]

theorem decodeXop_send (b : Byte) : decodeXop (0#1 ++ b) = .sendByte b := by
  rw [decodeXop, if_neg (zero_append_top b), BitVec.extractLsb'_append_eq_right]

theorem decodeXop_receive (x : Byte) : decodeXop (1#1 ++ x) = .recvByte x := by
  rw [decodeXop, if_pos (one_append_top x), BitVec.extractLsb'_append_eq_right]

/-! ## Decoding and encoding -/

/-- Settles O18: each field is read back from its place in the word. -/
theorem decodeEncode : Obligations.DecodeEncode := by
  intro i hi
  cases i with
  | wrclk a v => exact (decodeRequest_requestWord ..).trans (decodeClock_numbered (of_decide_eq_true hi) .write v)
  | rdclk a x => exact (decodeRequest_requestWord ..).trans (decodeClock_numbered (of_decide_eq_true hi) .read x)
  | reserved x => exact decodeRequest_reserved x
  | cmdClkWrite a | cmdClkRead a | cmdRamWrite a | cmdRamRead a => exact decodeCommand_cmdGen ..
  | cmdNeverSent x => exact decodeCommand_neverSent x
  | sendByte b => exact decodeXop_send b
  | recvByte x => exact decodeXop_receive x
  | _ => exact decodeRequest_requestWord ..

/-- Settles O19: a word with its marker set is that of its fields, and any other is its highest bit and the rest. -/
theorem encodeDecode : Obligations.EncodeDecode := by
  intro w
  cases w with
  | req w =>
    cases hm : reqMarker w with
    | true =>
      rw [decode, decodeRequest_fields hm, encode_requestInstr, requestWord_fields hm]
      exact ⟨wellFormed_requestInstr .., rfl⟩
    | false =>
      rw [← zero_append_low (n := 15) hm, decode, decodeRequest_reserved]
      exact ⟨rfl, rfl⟩
  | cmd b =>
    cases hm : cmdMarker b with
    | true =>
      rw [decode, decodeCommand_fields hm, encode_commandInstr, cmdGen_fields hm]
      exact ⟨wellFormed_commandInstr .., rfl⟩
    | false =>
      rw [← zero_append_low (n := 7) hm, decode, decodeCommand_neverSent]
      exact ⟨rfl, rfl⟩
  | xop w =>
    cases hm : w.getLsbD 8 with
    | true =>
      rw [← one_append_low (n := 8) hm, decode, decodeXop_receive]
      exact ⟨rfl, rfl⟩
    | false =>
      rw [← zero_append_low (n := 8) hm, decode, decodeXop_send]
      exact ⟨rfl, rfl⟩

/-! ## Classes of words (30_encoding R65, R69) -/

theorem reserved_mask (x : BitVec 15) : (0#1 ++ x) &&& 0x8000#16 = 0x0000#16 := by
  calc (0#1 ++ x) &&& 0x8000#16
    _ = (0#1 &&& 1#1) ++ (x &&& 0#15) := BitVec.and_append (x₂ := 1#1) (y₂ := 0#15)
    _ = 0x0000#16 := by rw [BitVec.and_zero]; rfl

/-- Settles O20: with the marker set, the mask keeps the space and the direction, which name the class; a clock address is a
calendar register's or is read by its number. -/
theorem wordClasses : Obligations.WordClasses := by
  constructor
  · intro b hb
    have hmask : b &&& 0xC1#8 = cmdGen (cmdSpace b) 0#5 (cmdDir b) := by
      conv_lhs => rw [← cmdGen_fields hb, cmdGen_mask]
    have hdec := decodeCommand_fields hb
    generalize cmdSpace b = sp at hmask hdec
    generalize cmdDir b = d at hmask hdec
    cases sp with
    | clk =>
      cases d with
      | write => exact .inl ⟨hmask, hdec⟩
      | read => exact .inr (.inl ⟨hmask, hdec⟩)
    | ram =>
      cases d with
      | write => exact .inr (.inr (.inl ⟨hmask, hdec⟩))
      | read => exact .inr (.inr (.inr ⟨hmask, hdec⟩))
  · intro w
    cases hm : reqMarker w with
    | false =>
      left
      rw [← zero_append_low (n := 15) hm]
      exact ⟨reserved_mask _, _, decodeRequest_reserved _⟩
    | true =>
      right
      have hmask : w &&& 0xC100#16 = requestWord (reqSpace w) 0#5 (reqDir w) 0#8 := by
        conv_lhs => rw [← requestWord_fields hm, requestWord_mask]
      have hdec := decodeRequest_fields hm
      generalize reqSpace w = sp at hmask hdec
      generalize reqDir w = d at hmask hdec
      cases sp with
      | clk =>
        obtain ⟨r, -, ha, e⟩ | ⟨-, e⟩ := requestInstr_cases .clk (reqAddr w) d (reqData w)
        · cases d with
          | write => exact .inl ⟨hmask, _, .inr ⟨r, ha, hdec.trans e⟩⟩
          | read => exact .inr (.inl ⟨hmask, _, .inr ⟨r, ha, hdec.trans e⟩⟩)
        · cases d with
          | write => exact .inl ⟨hmask, _, .inl (hdec.trans e)⟩
          | read => exact .inr (.inl ⟨hmask, _, .inl (hdec.trans e)⟩)
      | ram =>
        cases d with
        | write => exact .inr (.inr (.inl ⟨hmask, hdec⟩))
        | read => exact .inr (.inr (.inr ⟨hmask, hdec⟩))

/-! ## Words written out -/

/-- Settles O21: each word's fields are literals. -/
theorem sampleWords : Obligations.SampleWords :=
  ⟨rfl, rfl, rfl, rfl, rfl, rfl, rfl, rfl, rfl, rfl, rfl, rfl⟩

/-- Settles O17: a name is a clock address, and the table's upper byte the command byte of that address. -/
theorem namedRequests : Obligations.NamedRequests :=
  ⟨fun r v x s => ⟨exec_writeInstr_named r v s, exec_readInstr_named r x s⟩,
    fun _ => ⟨rfl, rfl, rfl, rfl, rfl, rfl, rfl⟩, rfl, rfl, rfl, rfl, rfl, rfl, rfl⟩

/-! ## The W field of a read (30_encoding R70, 10_state R20) -/

/-- Settles O31: the byte received and the device depend on the command byte and the state before, not on W. -/
theorem readIgnoresData : Obligations.ReadIgnoresData := by
  intro sp a x y s t hs he
  rw [exec_read hs] at he
  cases he
  exact ⟨rfl, exec_read hs⟩

/-! ## A step runs the decoded word -/

theorem step_of_fetch {s : State} {i : Instr} (h : fetch s = some i) : step s = exec i (taken s) := by
  rw [step, h]

theorem step_xop {w : XopWord} {s : State} (h : s.probe = some (.xop w)) :
    step s = exec (decodeXop w) { s with probe := none } := by
  rw [step_of_fetch (by rw [fetch, h]), taken, h]

theorem step_cmd {b : Byte} {s : State} (h : s.probe = some (.cmd b)) :
    step s = exec (decodeCommand b) { s with probe := none } := by
  rw [step_of_fetch (by rw [fetch, h]), taken, h]

theorem canTake_iff (s : State) : canTake s = true ↔ s.inited = true ∧ s.ph = .idle := by
  rw [canTake, Bool.and_eq_true, ready_iff]

theorem step_request {w : ReqWord} {ms : List Move} {s : State} (hq : s.probe = none) (ha : s.agenda = .request w :: ms) :
    step s = exec (decodeRequest w) (if s.inited = true ∧ s.ph = .idle then { s with agenda := ms } else s) := by
  rw [step_of_fetch (by rw [fetch, hq, ha]), taken, hq, ha]
  simp only [canTake_iff, List.tail_cons]

/-- A word given as a number of bits and a value is placed as that word. -/
theorem withFetchWord_bits (w : TableWord) (s : State) : s.withFetchWord w.bits.1 w.bits.2 = place w s := by
  rw [State.withFetchWord, placeBits, Laws.tableWord_bits]

/-- Settles O22: what a step fetches from each interface, and where `place` puts a word. -/
theorem stepRunsDecoded : Obligations.StepRunsDecoded := by
  refine ⟨fun _ _ => step_xop, fun _ _ => step_cmd, fun _ _ _ => step_request, fun w s => ?_, fun b s => ?_, fun w s => ?_⟩
  · exact (congrArg step (withFetchWord_bits (.req w) s)).trans (step_request (s := place (.req w) s) rfl rfl)
  · exact (congrArg step (withFetchWord_bits (.cmd b) s)).trans (step_cmd (s := place (.cmd b) s) rfl)
  · exact (congrArg step (withFetchWord_bits (.xop w) s)).trans (step_xop (s := place (.xop w) s) rfl)

end Sys2Proof.Machine
end

section
/-! SUPPORT. The transceiver's two operations (40_transceiver R80, R81, R83): what a command byte leaves at the device, what RXR
receives, and what either operation does from any state. -/

namespace Sys2Proof.Machine

/-! ## A command byte sent (20_memory R54, R56) -/

/-- The eighth falling edge leaves the command byte with the device; only for a read does more happen there. -/
theorem Received.fall {b : Byte} {d0 e : Device} (h : Received b d0 e) (c : Config) (n : Nat) :
    (devFall c n e).seq.inFrame = true ∧ (devFall c n e).seq.rises = 8 ∧ (devFall c n e).seq.falls = 8
      ∧ (devFall c n e).seq.cmd = b
      ∧ (isRead b = false → SameStore d0 (devFall c n e) ∧ (devFall c n e).seq.dout = none) := by
  obtain ⟨hframe, hrises, hfalls, hcmd, -⟩ := devFall_seq c n e
  refine ⟨hframe.trans h.inFrame, hrises.trans h.rises, by rw [hfalls, h.falls], hcmd.trans h.cmd, fun hw => ?_⟩
  rw [devFall_plain (by rw [h.cmd, hw]; simp)]
  exact ⟨h.store.trans (.of_seq _ _), h.dout⟩

/-- Settles O36: seven bits, the eighth rise and the eighth fall, from a device in which no bit has been sent. -/
theorem sendCommandByte : Obligations.SendCommandByte := by
  intro b s hr hc ho hframe hrises hfalls hdout hm
  have h0 : Commanded b 0 s.dev s.dev := ⟨hframe, hrises, hfalls, sentSoFar_zero _ _, hdout, .refl _⟩
  obtain ⟨e, he, hd⟩ := (h0.bits s.cfg s.draws 7 (by omega)).lastBit hm s.cfg (s.draws + 7 * bitCycles s.cfg)
  refine ⟨_, congrArg _ (sendByte_eq hr hc ho), ?_⟩
  rw [devSendBits, hd]
  exact he.fall _ _

/-! ## A byte received (20_memory R56, R58) -/

/-- While time passes the device goes on driving its byte. -/
theorem Driving.elapse {b w : Byte} {j : Nat} {d0 d : Device} (h : Driving b w j d0 d) (n m : Nat) :
    Driving b w j d0 (devElapse n m d) := by
  have e := devElapse_seq_open n m d h.inFrame
  exact ⟨by rw [e]; exact h.inFrame, by rw [e]; exact h.rises, by rw [e]; exact h.falls, by rw [e]; exact h.cmd,
    by rw [e]; exact h.dout, h.store.trans (devElapse_sameStore n m d)⟩

/-- Settles O38: the samples of a driving device assemble its byte, and those of no device, or of an untimely one, are free. -/
theorem receiveByte : Obligations.ReceiveByte := by
  refine ⟨fun x w s hr hc ho ht hframe hrises hfalls hread hdout => ?_, fun x s hr hc ho hp => ?_⟩
  · have h0 : Driving s.dev.seq.cmd w 0 s.dev s.dev := ⟨hframe, hrises, hfalls, rfl, hdout, .refl _⟩
    have hrxr : samples s.cfg s.draws s.dev 0x00#8 8 = w := by
      rw [h0.samples_eq hread ht.1 (cycles_covers _ ht.2) s.draws 8 le_rfl, assemble_eight]
    have hrun : exec (.recvByte x) s = .next (received s) := congrArg _ (recvByte_eq hr hc ho)
    rw [received, hrxr] at hrun
    have h8 := (h0.bits hread s.cfg s.draws 8).elapse (nCDD s.cfg) (s.draws + 8 * (nCDD s.cfg + bitCycles s.cfg))
    exact ⟨_, hrun, h8.store, h8.rises, h8.falls⟩
  · exact ⟨_, _, congrArg _ (recvByte_eq hr hc ho), samples_free hp _ _ _ 8 le_rfl,
      fun ha => (devRecvBits_absent ha _ _ 8).trans (devElapse_sameStore _ _ _)⟩

/-! ## From any state (40_transceiver R83) -/

/-- `n` edges pass from `s` to `t`, and RST, the direction of IO, the registers a request loads or the host reads, and the
block's surroundings are as they were. -/
structure Transfers (n : Nat) (s t : State) : Prop where
  edges : t.edges = s.edges + n
  rstO : t.rstO = s.rstO
  ioOE : t.ioOE = s.ioOE
  registers : SameRegisters s t
  surroundings : Surroundings s t

theorem SameRegisters.trans {s t u : State} (h : SameRegisters s t) (g : SameRegisters t u) : SameRegisters s u :=
  ⟨g.cmdr.trans h.cmdr, g.wdr.trans h.wdr, g.rdata.trans h.rdata, g.rvalid.trans h.rvalid, g.err.trans h.err⟩

theorem Transfers.refl (s : State) : Transfers 0 s s :=
  ⟨rfl, rfl, rfl, ⟨rfl, rfl, rfl, rfl, rfl⟩, ⟨rfl, rfl, rfl, rfl⟩⟩

theorem Transfers.trans {n m : Nat} {s t u : State} (h : Transfers n s t) (g : Transfers m t u) : Transfers (n + m) s u :=
  ⟨by rw [g.edges, h.edges, Nat.add_assoc], g.rstO.trans h.rstO, g.ioOE.trans h.ioOE, h.registers.trans g.registers,
    h.surroundings.trans g.surroundings⟩

/-- Operations that each take `m` edges, one after another. -/
theorem Transfers.foldl {f : State → Nat → State} {m : Config → Nat} (h : ∀ k s, Transfers (m s.cfg) s (f s k))
    (ks : List Nat) (s : State) : Transfers (ks.length * m s.cfg) s (ks.foldl f s) := by
  induction ks generalizing s with
  | nil => simpa using Transfers.refl s
  | cons k ks ih =>
    have hrest := ih (f s k)
    rw [(h k s).surroundings.cfg] at hrest
    rw [List.length_cons, Nat.succ_mul, Nat.add_comm]
    exact (h k s).trans hrest

theorem sendBit_transfers (b : Byte) (k : Nat) (s : State) : Transfers (bitCycles s.cfg) s (sendBit b k s) := by
  refine ⟨?_, ?_, ?_, ⟨?_, ?_, ?_, ?_, ?_⟩, ⟨?_, ?_, ?_, ?_⟩⟩ <;> simp [sendBit, bitCycles, Nat.add_assoc]

theorem recvBit_transfers (j : Nat) (s : State) : Transfers (nCDD s.cfg + bitCycles s.cfg) s (recvBit j s) := by
  refine ⟨?_, ?_, ?_, ⟨?_, ?_, ?_, ?_, ?_⟩, ⟨?_, ?_, ?_, ?_⟩⟩ <;> simp [recvBit, bitCycles, Nat.add_assoc]

theorem sendByte_transfers (b : Byte) (s : State) : Transfers (8 * bitCycles s.cfg) s (sendByte b s) :=
  Transfers.foldl (sendBit_transfers b) [0, 1, 2, 3, 4, 5, 6, 7] s

theorem waitFor_transfers (n : Nat) (k : BitVec 4) (p : Phase) (s : State) :
    Transfers n s (waitFor n { s with k := k, ph := p }) := by
  refine ⟨?_, ?_, ?_, ⟨?_, ?_, ?_, ?_, ?_⟩, ⟨?_, ?_, ?_, ?_⟩⟩ <;> simp

/-- RXR is cleared, eight bits are received, and the propagation delay after the eighth pulse passes. -/
theorem recvByte_transfers (s : State) : Transfers (9 * nCDD s.cfg + 8 * bitCycles s.cfg) s (recvByte s) := by
  have hclear : Transfers 0 s { s with rxr := 0x00#8 } := ⟨rfl, rfl, rfl, ⟨rfl, rfl, rfl, rfl, rfl⟩, ⟨rfl, rfl, rfl, rfl⟩⟩
  have hbits := Transfers.foldl (f := fun s j => recvBit j s) (m := fun c => nCDD c + bitCycles c) recvBit_transfers
    [0, 1, 2, 3, 4, 5, 6, 7] { s with rxr := 0x00#8 }
  have hcount : 9 * nCDD s.cfg + 8 * bitCycles s.cfg = 0 + 8 * (nCDD s.cfg + bitCycles s.cfg) + nCDD s.cfg := by ring
  rw [hcount]
  exact (hclear.trans hbits).trans (waitFor_transfers (nCDD s.cfg) 8#4 .rxd _)

@[simp] theorem sendBit_clkO (b : Byte) (k : Nat) (s : State) : (sendBit b k s).clkO = false := by simp [sendBit]
@[simp] theorem sendBit_ioO (b : Byte) (k : Nat) (s : State) : (sendBit b k s).ioO = bitOf b k := by simp [sendBit]
@[simp] theorem sendBit_rxr (b : Byte) (k : Nat) (s : State) : (sendBit b k s).rxr = s.rxr := by simp [sendBit]
@[simp] theorem recvBit_clkO (j : Nat) (s : State) : (recvBit j s).clkO = false := by simp [recvBit]
@[simp] theorem recvBit_ioO (j : Nat) (s : State) : (recvBit j s).ioO = s.ioO := by simp [recvBit]

/-- Settles O39: each bit takes its edges and keeps the registers; the last one leaves CLK low and, when sent, IO at its level. -/
theorem transceiverRuns : Obligations.TransceiverRuns := by
  refine ⟨fun b s => ⟨_, rfl, ?_⟩, fun x s => ⟨_, rfl, ?_⟩⟩
  · obtain ⟨hedges, hrst, hdir, ⟨hcmdr, hwdr, hrdata, hrvalid, herr⟩, hcfg, hhost, hagenda, -⟩ := sendByte_transfers b s
    exact ⟨hedges, by simp [sendByte], hrst, hdir, by simp [sendByte, bitOf], hrdata, hrvalid, herr, hcmdr, hwdr,
      by simp [sendByte], hcfg, hhost, hagenda⟩
  · obtain ⟨hedges, hrst, hdir, ⟨hcmdr, hwdr, hrdata, hrvalid, herr⟩, hcfg, hhost, hagenda, -⟩ := recvByte_transfers s
    exact ⟨by rw [hedges, ← Nat.add_assoc, bitCycles], by simp [recvByte], hrst, hdir, by simp [recvByte], hrdata, hrvalid, herr,
      hcmdr, hwdr, hcfg, hhost, hagenda⟩

end Sys2Proof.Machine
end

section
/-! SUPPORT. The sequencer (41_sequencer R85 to R93): the command byte, the rows of its table, what they leave of the lines, and
the line events of a whole transaction. -/

namespace Sys2Proof.Machine

/-- Settles O48: whatever a step does keeps the invariant, an edge by the rows of R91 and a request by the state it ends in. -/
theorem invariantKept : Obligations.InvariantKept := fun _ _ h hs => machineInv_step h hs

/-! ## Command generation -/

/-- The bits of the command format, for each of the 32 addresses in either space and direction. -/
theorem cmdGen_formula (sp : Space) (a : Addr) (d : Dir) :
    cmdGen sp a d = 0x80#8 ||| (sp.bit.setWidth 8 <<< 6) ||| (a.setWidth 8 <<< 1) ||| d.bit.setWidth 8 := by
  revert a; cases sp <;> cases d <;> decide

theorem cmdGen_bit_six (sp : Space) (a : Addr) (d : Dir) : (cmdGen sp a d).getLsbD 6 = true ↔ sp = .ram := by
  rw [← spaceOfBit_eq_ram_iff]
  exact Eq.congr_left (cmdSpace_cmdGen ..)

/-- The command byte of a request word is its upper byte. -/
theorem cmdGen_request {w : ReqWord} (h : reqMarker w = true) :
    cmdGen (reqSpace w) (reqAddr w) (reqDir w) = w.extractLsb' 8 8 := by
  obtain ⟨b, v, rfl⟩ : ∃ b v : Byte, b ++ v = w := ⟨_, _, upper_append_reqData w⟩
  rw [reqMarker_append] at h
  rw [reqSpace_append, reqAddr_append, reqDir_append, cmdGen_fields h, BitVec.extractLsb'_append_eq_left]

/-- Settles O15: the formula bit by bit; a marked word is its own fields put together again. -/
theorem commandByte_formula : Obligations.CommandByte :=
  ⟨fun sp a d => ⟨cmdGen_formula sp a d, cmdMarker_cmdGen sp a d, cmdGen_bit_six sp a d⟩, fun _ h => cmdGen_request h⟩

/-! ## One edge, row by row -/

theorem edge_row {p : Ports} {s t : State} (hr : p.resetIn = false) (hi : s.inited = true) (h : rowAction p s = .next t) :
    edge p s = .next (advance t) := by
  rw [edge_run hr hi, h]
  rfl

theorem rowAction_unasked {p : Ports} {s : State} (hp : s.ph = .idle) (hv : p.reqValid = false) : rowAction p s = .next s := by
  simp [rowAction, hp, hv]

theorem rowAction_reserved {p : Ports} {s : State} (hp : s.ph = .idle) (hv : p.reqValid = true)
    (hm : reqMarker p.req = false) : rowAction p s = .next (row4 s) := by
  simp [rowAction, hp, hv, hm]

theorem rowAction_request {p : Ports} {s : State} (hp : s.ph = .idle) (hv : p.reqValid = true)
    (hm : reqMarker p.req = true) : rowAction p s = .next (row5 p.req s) := by
  simp [rowAction, hp, hv, hm]

/-- Settles O6: the acceptance of R86 register by register; a reserved word and no request are equations of next states. -/
theorem idleEdge : Obligations.IdleEdge := by
  refine fun p s hr hi hp => ⟨fun hv hm => ⟨_, edge_row hr hi (rowAction_request hp hv hm), ?_⟩,
    fun hv hm => edge_row hr hi (rowAction_reserved hp hv hm), fun hv => edge_row hr hi (rowAction_unasked hp hv)⟩
  simp [row5, reqSpace, reqAddr, reqDir, reqData, ready, Phase.isIdle]

theorem whenTaken_busy {f : State → State} {s : State} (hi : s.inited = true) (hp : s.ph ≠ .idle) :
    whenTaken f s = edge quiet s := by
  simp [whenTaken, hi, ready_iff, hp]

/-- Settles O7: only the row of IDLE looks at the request inputs, and a request outside IDLE is an edge with none. -/
theorem portsIgnoredOutsideIdle : Obligations.PortsIgnoredOutsideIdle := by
  refine ⟨fun p q s hr hq hi hp => ?_, fun i s hq hi hp => ?_⟩
  · rw [edge_run hr hi, edge_run hq hi, rowAction_busy hp p q]
  · cases i with
    | cmdClkWrite | cmdClkRead | cmdRamWrite | cmdRamRead | cmdNeverSent | sendByte | recvByte => cases hq
    | reserved x => exact whenTaken_busy (f := fun s => advance (refuse s)) hi hp
    | _ => exact whenTaken_busy hi hp

/-! ## The rows as register updates: where one moves RST or CLK, the device reacts -/

theorem row5_form (w : ReqWord) (s : State) : ∃ d, row5 w s = { s with
    cmdr := cmdGen (reqSpace w) (reqAddr w) (reqDir w), wdr := reqData w, rxr := 0x00#8
    rvalid := false, k := 0#4, sel := .cmd, rstO := true, t := nCC s.cfg, ph := .setup, dev := d } :=
  driveRst_form true _

theorem row7_form (s : State) : ∃ d, row7 s = { s with clkO := true, t := nCH s.cfg, ph := .txh, dev := d } :=
  let ⟨d, hd⟩ := driveClk_form true s
  ⟨d, by rw [row7, hd]⟩

theorem row8_form (s : State) : ∃ d, row8 s = { s with
    clkO := false, k := s.k + 1#4, t := nCL s.cfg, ph := .txl, dev := d
    ioO := bitOf (selectedByte s) (s.k.toNat + 1) } :=
  let ⟨d, hd⟩ := driveClk_form false s
  ⟨d, by rw [row8, hd, driveIo]⟩

theorem row9_form (s : State) : ∃ d, row9 s = { s with
    clkO := false, k := 0#4, sel := .data, ioO := bitOf s.wdr 0, t := nCL s.cfg, ph := .txl, dev := d } :=
  let ⟨d, hd⟩ := driveClk_form false s
  ⟨d, by rw [row9, hd, driveIo]⟩

theorem row10_form (s : State) : ∃ d, row10 s = { s with
    clkO := false, k := 0#4, sel := .data, ioOE := false, t := nCDD s.cfg, ph := .rxd, dev := d } :=
  let ⟨d, hd⟩ := driveClk_form false s
  ⟨d, by rw [row10, hd, setDir]⟩

theorem row11_form (s : State) : ∃ d, row11 s = { s with clkO := false, t := nCCH s.cfg, ph := .hold, dev := d } :=
  let ⟨d, hd⟩ := driveClk_form false s
  ⟨d, by rw [row11, hd]⟩

theorem row14_form (s : State) : ∃ d, row14 s = { s with clkO := true, t := nCH s.cfg, ph := .rxh, dev := d } :=
  let ⟨d, hd⟩ := driveClk_form true s
  ⟨d, by rw [row14, hd]⟩

theorem row15_form (s : State) : ∃ d, row15 s = { s with
    clkO := false, k := s.k + 1#4, t := nCDD s.cfg, ph := .rxd, dev := d } :=
  let ⟨d, hd⟩ := driveClk_form false s
  ⟨d, by rw [row15, hd]⟩

theorem row16_form (s : State) : ∃ d, row16 s = { s with
    rstO := false, t := nCWH s.cfg, ph := .recover, dev := d
    rdata := if isRead s.cmdr then s.rxr else s.rdata, rvalid := isRead s.cmdr || s.rvalid } := by
  obtain ⟨d, hd⟩ := driveRst_form false s
  refine ⟨d, ?_⟩
  rw [row16, hd]
  cases hr : isRead s.cmdr <;> simp [deliver]

/-- An edge whose row is `t` up to the device's reaction. -/
theorem edge_row_form {p : Ports} {s t : State} {f : Device → State} (hr : p.resetIn = false) (hi : s.inited = true)
    (h : rowAction p s = .next t) (hf : ∃ d, t = f d) : ∃ d, edge p s = .next (advance (f d)) :=
  let ⟨d, hd⟩ := hf
  ⟨d, hd ▸ edge_row hr hi h⟩

/-! ## Leaving TXH and RXD -/

theorem leaveTxh_next {s : State} (hk : s.k.toNat < 7) : leaveTxh s = .next (row8 s) := by
  simp [leaveTxh, hk]

theorem leaveTxh_write {s : State} (hk : s.k.toNat = 7) (hs : s.sel = .cmd) (hd : isRead s.cmdr = false) :
    leaveTxh s = .next (row9 s) := by
  simp [leaveTxh, hk, hs, hd]

theorem leaveTxh_read {s : State} (hk : s.k.toNat = 7) (hs : s.sel = .cmd) (hd : isRead s.cmdr = true) :
    leaveTxh s = .next (row10 s) := by
  simp [leaveTxh, hk, hs, hd]

theorem leaveTxh_data {s : State} (hk : s.k.toNat = 7) (hs : s.sel = .data) : leaveTxh s = .next (row11 s) := by
  simp [leaveTxh, hk, hs]

theorem leaveRxd_sample {s : State} (hk : s.k.toNat ≤ 7) : leaveRxd s = .next (row12 s) := by
  simp [leaveRxd, hk]

theorem leaveRxd_end {s : State} (hk : s.k.toNat = 8) : leaveRxd s = .next (row13 s) := by
  simp [leaveRxd, hk]

/-- Settles O10: the row of each phase and condition, as an update of the registers it names. -/
theorem rowTable : Obligations.RowTable := by
  intro p s hr hi
  have edge_txh {t : State} (hp : s.ph = .txh) (h1 : s.t = 1) (h : leaveTxh s = .next t) : rowAction p s = .next t :=
    (rowAction_txh hp h1).trans h
  have edge_rxd {t : State} (hp : s.ph = .rxd) (h1 : s.t = 1) (h : leaveRxd s = .next t) : rowAction p s = .next t :=
    (rowAction_rxd hp h1).trans h
  exact ⟨
    fun ht h1 => edge_count hr hi ht h1,
    fun hp => edge_row hr hi (rowAction_reset hp),
    fun hp h1 => edge_row hr hi (rowAction_recover hp h1),
    fun hp hv => edge_row hr hi (rowAction_unasked hp hv),
    fun hp hv hm => edge_row hr hi (rowAction_reserved hp hv hm),
    fun hp hv hm => edge_row_form hr hi (rowAction_request hp hv hm) (row5_form p.req s),
    fun hp h1 => edge_row hr hi (rowAction_setup hp h1),
    fun hp h1 => edge_row_form hr hi (rowAction_txl hp h1) (row7_form s),
    fun hp h1 hk => edge_row_form hr hi (edge_txh hp h1 (leaveTxh_next hk)) (row8_form s),
    fun hp h1 hk hs hd => edge_row_form hr hi (edge_txh hp h1 (leaveTxh_write hk hs hd)) (row9_form s),
    fun hp h1 hk hs hd => edge_row_form hr hi (edge_txh hp h1 (leaveTxh_read hk hs hd)) (row10_form s),
    fun hp h1 hk hs => edge_row_form hr hi (edge_txh hp h1 (leaveTxh_data hk hs)) (row11_form s),
    fun hp h1 hk => edge_row hr hi (edge_rxd hp h1 (leaveRxd_sample hk)),
    fun hp h1 hk => ⟨_, heldIndex_le s.draws, edge_row hr hi (edge_rxd hp h1 (leaveRxd_end hk))⟩,
    fun hp h1 => edge_row_form hr hi (rowAction_rxl hp h1) (row14_form s),
    fun hp h1 => edge_row_form hr hi (rowAction_rxh hp h1) (row15_form s),
    fun hp h1 => edge_row_form hr hi (rowAction_hold hp h1) (row16_form s)⟩

/-! ## CLK while RST and IO change -/

/-- What a row does to the lines: it keeps RST and IO, or keeps RST and leaves CLK low, or starts and ends with CLK low
(41_sequencer R92 (f), (g)). -/
inductive LineChange (s t : State) : Prop
  | steady (rst : t.rstO = s.rstO) (io : t.ioO = s.ioO) (dir : t.ioOE = s.ioOE)
  | falls (rst : t.rstO = s.rstO) (low : t.clkO = false)
  | low (phase : s.ph.clockHigh = false) (clk : t.clkO = s.clkO)

theorem rowAction_lineChange {p : Ports} {s t : State} (he : rowAction p s = .next t) : LineChange s t := by
  rcases rowAction_cases he with ⟨-, -, rfl⟩ | ⟨-, rfl⟩ | ⟨-, -, rfl⟩ | ⟨-, -, rfl⟩ | ⟨-, -, -, rfl⟩ | ⟨hp, -, -, rfl⟩
    | ⟨hp, -, rfl⟩ | ⟨-, -, rfl⟩ | ⟨-, -, -, rfl⟩ | ⟨-, -, -, -, -, rfl⟩ | ⟨-, -, -, -, -, rfl⟩ | ⟨-, -, -, -, rfl⟩
    | ⟨-, -, -, rfl⟩ | ⟨hp, -, -, rfl⟩ | ⟨-, -, rfl⟩ | ⟨-, -, rfl⟩ | ⟨hp, -, rfl⟩
  · exact .steady rfl rfl rfl
  · exact .steady rfl rfl rfl
  · exact .steady rfl rfl rfl
  · exact .steady rfl rfl rfl
  · exact .steady rfl rfl rfl
  · exact .low (by rw [hp]; rfl) (by simp [row5])
  · exact .low (by rw [hp]; rfl) rfl
  · exact .steady (by simp [row7]) (by simp [row7]) (by simp [row7])
  · exact .falls (by simp [row8]) (by simp [row8])
  · exact .falls (by simp [row9]) (by simp [row9])
  · exact .falls (by simp [row10]) (by simp [row10])
  · exact .falls (by simp [row11]) (by simp [row11])
  · exact .steady rfl rfl rfl
  · exact .low (by rw [hp]; rfl) rfl
  · exact .steady (by simp [row14]) (by simp [row14]) (by simp [row14])
  · exact .falls (by simp [row15]) (by simp [row15])
  · exact .low (by rw [hp]; rfl) (by unfold row16; split <;> simp [deliver])

/-- Settles O11: RST changes only in a row that starts and ends with CLK low, IO in such a row or one that ends so. -/
theorem linesChangeClockLow : Obligations.LinesChangeClockLow := by
  intro p s t hr hi hb he
  obtain ⟨u, hu, rfl⟩ := edge_next hr hi he
  have hl : s.clkO = s.ph.clockHigh := by
    simp only [blockOk, hi, Bool.not_true, Bool.false_or, Bool.and_eq_true, and_assoc] at hb
    exact (linesOk_iff.mp hb.1).2.1
  cases rowAction_lineChange hu with
  | steady rst io dir => exact ⟨fun h => absurd rst h, fun h => absurd io (h.resolve_right (not_not.mpr dir))⟩
  | falls rst low => exact ⟨fun h => absurd rst h, fun _ => low⟩
  | low phase clk =>
    have hs : s.clkO = false := hl.trans phase
    exact ⟨fun _ => ⟨hs, clk.trans hs⟩, fun _ => clk.trans hs⟩

/-! ## The block during a transaction -/

theorem rowAction_inited {p : Ports} {s t : State} (he : rowAction p s = .next t) : t.inited = s.inited := by
  rcases rowAction_cases he with ⟨-, -, rfl⟩ | ⟨-, rfl⟩ | ⟨-, -, rfl⟩ | ⟨-, -, rfl⟩ | ⟨-, -, -, rfl⟩ | ⟨-, -, -, rfl⟩
    | ⟨-, -, rfl⟩ | ⟨-, -, rfl⟩ | ⟨-, -, -, rfl⟩ | ⟨-, -, -, -, -, rfl⟩ | ⟨-, -, -, -, -, rfl⟩ | ⟨-, -, -, -, rfl⟩
    | ⟨-, -, -, rfl⟩ | ⟨-, -, -, rfl⟩ | ⟨-, -, rfl⟩ | ⟨-, -, rfl⟩ | ⟨-, -, rfl⟩
  all_goals simp [row1, row2, row4, row5, row6, row7, row8, row9, row10, row11, row12, row13, row14, row15, row16_eq,
    ended_inited]

/-- The block and the device are in order (41_sequencer R92). -/
def InOrder (s : State) : Prop := blockOk s = true ∧ deviceOk s = true

theorem InOrder.lines {s : State} (h : InOrder s) (hi : s.inited = true) : linesOk s = true := ((inv_iff hi).mp h).1

theorem InOrder.elapse {s : State} (h : InOrder s) (n : Nat) : InOrder (elapse n s) := by
  induction n generalizing s with
  | zero => exact h
  | succ n ih => exact ih ⟨(blockOk_advance s).trans h.1, (deviceOk_advance s).trans h.2⟩

theorem InOrder.waitFor {s : State} (h : InOrder s) (hi : s.inited = true) (n : Nat) : InOrder (waitFor n s) := by
  refine InOrder.elapse (s := { s with t := 1 }) ?_ n
  obtain ⟨hl, -, hrest⟩ := (inv_iff hi).mp h
  have ht : timerOk { s with t := 1 } = true := by
    have := nCL_pos s.cfg
    have := nCL_le s.cfg
    simp only [timerOk, Bool.or_eq_true, Bool.and_eq_true, decide_eq_true_eq]
    exact .inr ⟨Nat.le_refl 1, by omega⟩
  exact (inv_iff (s := { s with t := 1 }) hi).mpr ⟨hl, ht, hrest⟩

/-- The registers an acceptance writes over, at values in order: index, RVALID and the device's progress. -/
def tidied (s : State) : State :=
  { s with k := 0#4, rvalid := false, dev := { s.dev with seq := .closed }, probe := none }

/-- Acceptance writes over what a block at rest may hold out of order. -/
theorem row5_tidied {s : State} (hr : s.rstO = false) (w : ReqWord) :
    row5 w s = { row5 w (tidied s) with probe := s.probe } := by
  simp [row5, accept, tidied, driveRst, clearValid, hr, devOpen]

/-- A block at rest is accepted into a transaction in order. -/
theorem row5_inOrder {s : State} (hs : AtRest s) (w : ReqWord) : InOrder (row5 w s) := by
  have hinv : MachineInv (tidied s) := machineInv_of_atRest hs rfl rfl (by simp [tidied]) rfl
  obtain ⟨hi, hp, hr, -⟩ := hs
  rw [row5_tidied hr]
  exact keeps_row5 (s := tidied s) (w := w) hi hp ⟨hinv.1, hinv.2.1⟩

/-- A transaction's block as a row leaves it that enters a phase at edge `e`: command byte `cmd`, data byte `v`. -/
structure Entered (c : Config) (cmd v : Byte) (ph : Phase) (e : Nat) (s : State) : Prop where
  inited : s.inited = true
  inOrder : InOrder s
  cfg : s.cfg = c
  cmdr : s.cmdr = cmd
  wdr : s.wdr = v
  phase : s.ph = ph
  count : ph.isTimed = true → s.t = entryCount c ph
  edge : s.edges = e

/-- Any `n` edges without a reset that follow the one a row performed lead to the row that leaves `t`, and show the events `es`. -/
def Shows (n : Nat) (s : State) (es : List TraceItem) (t : State) : Prop :=
  ∀ ps : List Ports, noReset ps = true → ps.length = n →
    runEdges ps (advance s) = .next (advance t) ∧ traceEdges ps (advance s) = es

theorem Shows.refl (s : State) : Shows 0 s [] s := by
  intro ps _ hn
  rw [List.eq_nil_of_length_eq_zero hn]
  exact ⟨rfl, rfl⟩

theorem Shows.trans {n m : Nat} {s t u : State} {es fs : List TraceItem} (h : Shows n s es t) (g : Shows m t fs u) :
    Shows (n + m) s (es ++ fs) u := by
  intro ps hr hn
  obtain ⟨p, q, rfl, hp, hq⟩ := split_list hn
  rw [noReset_append, Bool.and_eq_true] at hr
  obtain ⟨hrun, htrace⟩ := h p hr.1 hp
  obtain ⟨hrun', htrace'⟩ := g q hr.2 hq
  rw [runEdges_append hrun, traceEdges_append hrun, htrace, htrace']
  exact ⟨hrun', rfl⟩

/-- The events of one edge, at that edge. -/
def atEdge (e : Nat) (es : List LineEvent) : List TraceItem := es.map (⟨e, ·⟩)

theorem entryCount_pos (c : Config) {ph : Phase} (h : ph.isTimed = true) : 1 ≤ entryCount c ph := by
  cases ph <;> simp_all [entryCount, Phase.isTimed, nCL_pos, nCH_pos, nCDD_pos, nCC_pos, nCCH_pos, nCWH_pos]

theorem Phase.isTimed_of_active {ph : Phase} (h : ph.active = true) : ph.isTimed = true := by
  cases ph <;> simp_all [Phase.active, Phase.isTimed]

/-- A phase shows the events of the row that leaves it. -/
theorem Entered.shows {c : Config} {cmd v : Byte} {ph : Phase} {e : Nat} {s t : State} (h : Entered c cmd v ph e s)
    (ht : ph.isTimed = true) (hr : rowAction quiet (waitFor s.t s) = .next t) :
    Shows (entryCount c ph) s (atEdge (e + entryCount c ph) (eventsBetween (waitFor s.t s) (advance t))) t := by
  intro ps hps hn
  have hs : s.ph.isTimed = true := by rw [h.phase]; exact ht
  have hc : s.t = entryCount c ph := h.count ht
  have h1 : 1 ≤ s.t := hc ▸ entryCount_pos c ht
  exact ⟨runEdges_row hps h.inited hs h1 (hn.trans hc.symm) hr,
    by rw [traceEdges_row hps h.inited hs h1 (hn.trans hc.symm) hr, h.edge, hc]; rfl⟩

/-- The row that leaves an active phase enters the next one in order, with the same request. -/
theorem Entered.next {c : Config} {cmd v : Byte} {ph ph' : Phase} {e : Nat} {s t : State} (h : Entered c cmd v ph e s)
    (ha : ph.active = true) (hr : rowAction quiet (waitFor s.t s) = .next t) (hp : t.ph = ph') :
    Entered c cmd v ph' (e + entryCount c ph) t := by
  have ht := Phase.isTimed_of_active ha
  have hi : (waitFor s.t s).inited = true := by simp [h.inited]
  have hw : (waitFor s.t s).ph = ph := by simp [h.phase]
  have hrow := rowAction_effect hr
  obtain ⟨hsur, hedges, -⟩ := rowAction_surroundings hr
  obtain ⟨hcmdr, hwdr⟩ := hrow.request_registers (by rw [hw]; exact ha)
  have hleave : t.ph ≠ (waitFor s.t s).ph := hrow.leaves_phase (by rw [hw]; exact ht) (by simp)
  refine ⟨(rowAction_inited hr).trans hi, keeps_rowAction hi (h.inOrder.waitFor h.inited _) hr, ?_, ?_, ?_, hp,
    fun ht' => ?_, ?_⟩
  · rw [hsur.cfg, waitFor_cfg, h.cfg]
  · rw [hcmdr, waitFor_cmdr, h.cmdr]
  · rw [hwdr, waitFor_wdr, h.wdr]
  · rw [hrow.loads_count hleave (by rw [hp]; exact ht'), waitFor_cfg, h.cfg, hp]
  · rw [hedges, waitFor_edges, h.edge, h.count ht]

/-- In order, the lines follow the phases, and so do their events. -/
theorem Entered.events {c : Config} {cmd v : Byte} {ph ph' : Phase} {e e' : Nat} {s t : State} (h : Entered c cmd v ph e s)
    (g : Entered c cmd v ph' e' t) :
    eventsBetween (waitFor s.t s) (advance t) = levelChange .rstRise .rstFall ph.active ph'.active
      ++ levelChange .clkRise .clkFall ph.clockHigh ph'.clockHigh
      ++ levelChange .ioDrive .ioRelease (!ph.receiving) (!ph'.receiving)
      ++ (if ph' = .txl ∧ ph ≠ .txl then [.bit t.ioO] else [])
      ++ (if ph' = .rxl ∧ ph ≠ .rxl then [.sample s.k.toNat] else [])
      ++ (if !s.rvalid && t.rvalid then [.result t.rdata] else [])
      ++ levelChange .readyRise .readyFall ph.isIdle ph'.isIdle := by
  obtain ⟨hr, hc, ho, -⟩ := linesOk_iff.mp (h.inOrder.lines h.inited)
  obtain ⟨hr', hc', ho', -⟩ := linesOk_iff.mp (g.inOrder.lines g.inited)
  simp only [eventsBetween, ready, waitFor_rstO, waitFor_clkO, waitFor_ioOE, waitFor_ph, waitFor_k, waitFor_rvalid,
    advance_rstO, advance_clkO, advance_ioOE, advance_ioO, advance_ph, advance_rvalid, advance_rdata,
    hr, hc, ho, hr', hc', ho', h.phase, g.phase]

/-- RVALID = 0 during a transaction. -/
theorem InOrder.rvalid {s : State} (h : InOrder s) (hi : s.inited = true) (ha : s.ph.active = true) : s.rvalid = false := by
  obtain ⟨-, -, -, -, hr, -⟩ := (inv_iff hi).mp h
  simpa [responseOk, ha] using hr

/-- What an edge from one active phase to another shows; a bit slot carries `b`, a sample goes into `RXR[j]`. -/
def activeEvents (ph ph' : Phase) (b : Bool) (j : Nat) : List LineEvent :=
  levelChange .clkRise .clkFall ph.clockHigh ph'.clockHigh
    ++ levelChange .ioDrive .ioRelease (!ph.receiving) (!ph'.receiving)
    ++ (if ph' = .txl ∧ ph ≠ .txl then [.bit b] else [])
    ++ (if ph' = .rxl ∧ ph ≠ .rxl then [.sample j] else [])

/-- One active phase of a transaction, up to the next. -/
theorem Entered.row {c : Config} {cmd v : Byte} {ph ph' : Phase} {e : Nat} {s t : State} (h : Entered c cmd v ph e s)
    (ha : ph.active = true) (hr : rowAction quiet (waitFor s.t s) = .next t) (hp : t.ph = ph') (ha' : ph'.active = true) :
    Shows (entryCount c ph) s (atEdge (e + entryCount c ph) (activeEvents ph ph' t.ioO s.k.toNat)) t
      ∧ Entered c cmd v ph' (e + entryCount c ph) t := by
  have g := h.next ha hr hp
  have hidle {ph : Phase} (h : ph.active = true) : ph.isIdle = false := by cases ph <;> simp_all [Phase.active, Phase.isIdle]
  have hv : t.rvalid = false := g.inOrder.rvalid g.inited (by rw [hp]; exact ha')
  have e1 : eventsBetween (waitFor s.t s) (advance t) = activeEvents ph ph' t.ioO s.k.toNat := by
    simp [h.events g, ha, ha', hidle, hv, levelChange_same, activeEvents]
  exact ⟨e1 ▸ h.shows (Phase.isTimed_of_active ha) hr, g⟩

/-! ## Bits sent -/

/-- The block is at bit `i` of the sixteen a write sends: 0 to 7 the command byte, 8 to 15 the data byte. -/
structure AtBit (i : Nat) (s : State) : Prop where
  index : s.k.toNat = i % 8
  byte : s.sel = if i < 8 then .cmd else .data

/-- In a bit slot IO carries the bit the block is at. -/
theorem Entered.bit {c : Config} {cmd v : Byte} {e i : Nat} {s : State} (h : Entered c cmd v .txl e s) (hb : AtBit i s)
    (hi : i < 16) : s.ioO = writeSlot cmd v i := by
  obtain ⟨-, -, -, -, -, hsync⟩ := (inv_iff h.inited).mp h.inOrder
  simp only [syncOk, h.phase, Bool.and_eq_true, beq_iff_eq] at hsync
  rw [hsync.2, hb.index, selectedByte, hb.byte, writeSlot]
  by_cases h8 : i < 8
  · simp [h8, Nat.mod_eq_of_lt h8, h.cmdr]
  · simp [h8, h.wdr, show i % 8 = i - 8 by omega]

section Transaction

variable {c : Config} {cmd v : Byte} {e i j n : Nat} {s : State}

/-- SETUP, up to the first bit slot. -/
theorem Entered.setup (h : Entered c cmd v .setup e s) (hb : AtBit 0 s) :
    ∃ t, Shows (nCC c) s [⟨e + nCC c, .bit (writeSlot cmd v 0)⟩] t ∧ Entered c cmd v .txl (e + nCC c) t ∧ AtBit 0 t := by
  obtain ⟨hs, g⟩ := h.row rfl (rowAction_setup (by simp [h.phase]) (by simp)) rfl rfl
  have hb' : AtBit 0 (row6 (waitFor s.t s)) := ⟨by simpa [row6] using hb.index, by simpa [row6] using hb.byte⟩
  rw [g.bit hb' (by omega)] at hs
  exact ⟨_, hs, g, hb'⟩

/-- A bit slot, up to the rise of CLK. -/
theorem Entered.rise (h : Entered c cmd v .txl e s) (hb : AtBit i s) :
    ∃ t, Shows (nCL c) s [⟨e + nCL c, .clkRise⟩] t ∧ Entered c cmd v .txh (e + nCL c) t ∧ AtBit i t := by
  obtain ⟨hs, g⟩ := h.row rfl (rowAction_txl (by simp [h.phase]) (by simp)) rfl rfl
  exact ⟨_, hs, g, by simpa [row7] using hb.index, by simpa [row7] using hb.byte⟩

/-- The high time of a bit, up to the fall of CLK and the next bit slot; after bit 7 that is the data byte's, in a write. -/
theorem Entered.fall (h : Entered c cmd v .txh e s) (hb : AtBit i s) (hi : i < 15) (hd : i = 7 → isRead cmd = false) :
    ∃ t, Shows (nCH c) s [⟨e + nCH c, .clkFall⟩, ⟨e + nCH c, .bit (writeSlot cmd v (i + 1))⟩] t
      ∧ Entered c cmd v .txl (e + nCH c) t ∧ AtBit (i + 1) t := by
  obtain ⟨hindex, hbyte⟩ := hb
  obtain ⟨t, hr, hp, hb'⟩ : ∃ t, leaveTxh (waitFor s.t s) = .next t ∧ t.ph = .txl ∧ AtBit (i + 1) t := by
    by_cases h7 : i = 7
    · exact ⟨_, leaveTxh_write (by simp [hindex, h7]) (by simp [hbyte, h7]) (by simp [h.cmdr, hd h7]), rfl,
        by simp [row9, h7], by simp [row9, h7]⟩
    · refine ⟨_, leaveTxh_next (by simp only [waitFor_k, hindex]; omega), rfl, ?_, ?_⟩
      · rw [row8, waitFor_k, BitVec.toNat_add, hindex]
        show (i % 8 + 1) % 16 = (i + 1) % 8
        omega
      · simp [row8, hbyte, show i + 1 < 8 ↔ i < 8 by omega]
  obtain ⟨hs, g⟩ := h.row rfl ((rowAction_txh (by simp [h.phase]) (by simp)).trans hr) hp rfl
  rw [g.bit hb' (by omega)] at hs
  exact ⟨_, hs, g, hb'⟩

/-- The high time of a write's last bit, up to the fall of CLK. -/
theorem Entered.lastFall (h : Entered c cmd v .txh e s) (hb : AtBit 15 s) :
    ∃ t, Shows (nCH c) s [⟨e + nCH c, .clkFall⟩] t ∧ Entered c cmd v .hold (e + nCH c) t := by
  obtain ⟨hindex, hbyte⟩ := hb
  have hr : leaveTxh (waitFor s.t s) = _ := leaveTxh_data (by simp [hindex]) (by simp [hbyte])
  exact ⟨_, h.row rfl ((rowAction_txh (by simp [h.phase]) (by simp)).trans hr) rfl rfl⟩

/-- The high time of the last command bit of a read, up to the fall of CLK at which the block lets go of IO. -/
theorem Entered.release (h : Entered c cmd v .txh e s) (hb : AtBit 7 s) (hd : isRead cmd = true) :
    ∃ t, Shows (nCH c) s [⟨e + nCH c, .clkFall⟩, ⟨e + nCH c, .ioRelease⟩] t
      ∧ Entered c cmd v .rxd (e + nCH c) t ∧ t.k.toNat = 0 := by
  obtain ⟨hindex, hbyte⟩ := hb
  have hr : leaveTxh (waitFor s.t s) = _ :=
    leaveTxh_read (by simp [hindex]) (by simp [hbyte]) (by simpa [h.cmdr] using hd)
  obtain ⟨hs, g⟩ := h.row rfl ((rowAction_txh (by simp [h.phase]) (by simp)).trans hr) rfl rfl
  exact ⟨_, hs, g, rfl⟩

/-- A bit slot and its clock pulse, up to the next bit slot. -/
theorem Entered.pulse (h : Entered c cmd v .txl e s) (hb : AtBit i s) (hi : i < 15) (hd : i = 7 → isRead cmd = false) :
    ∃ t, Shows (bitCycles c) s [⟨e + nCL c, .clkRise⟩, ⟨e + bitCycles c, .clkFall⟩,
        ⟨e + bitCycles c, .bit (writeSlot cmd v (i + 1))⟩] t
      ∧ Entered c cmd v .txl (e + bitCycles c) t ∧ AtBit (i + 1) t := by
  obtain ⟨t, hs, g, hb⟩ := h.rise hb
  obtain ⟨u, hs', g', hb'⟩ := g.fall hb hi hd
  rw [Nat.add_assoc] at hs' g'
  exact ⟨u, hs.trans hs', g', hb'⟩

/-- The first `n` bit slots of a transaction whose first one is entered at edge `b0`, up to the next (41_sequencer R93). -/
def pulseTrace (c : Config) (cmd v : Byte) (b0 n : Nat) : List TraceItem :=
  (List.range n).flatMap (fun k => [⟨b0 + k * bitCycles c + nCL c, .clkRise⟩, ⟨b0 + (k + 1) * bitCycles c, .clkFall⟩]
    ++ [⟨b0 + (k + 1) * bitCycles c, .bit (writeSlot cmd v (k + 1))⟩])

/-- The edge of bit slot `k + 1` is one period after that of bit slot `k`. -/
theorem add_succ_mul (b k a : Nat) : b + (k + 1) * a = b + k * a + a := by rw [Nat.succ_mul, Nat.add_assoc]

theorem Entered.pulses (h : Entered c cmd v .txl e s) (hb : AtBit 0 s) (hn : n ≤ 15) (hd : n ≤ 7 ∨ isRead cmd = false) :
    ∃ t, Shows (n * bitCycles c) s (pulseTrace c cmd v e n) t ∧ Entered c cmd v .txl (e + n * bitCycles c) t ∧ AtBit n t := by
  induction n with
  | zero => simpa using ⟨s, Shows.refl s, h, hb⟩
  | succ n ih =>
    obtain ⟨t, hs, g, hb⟩ := ih (by omega) (hd.imp_left (by omega))
    obtain ⟨u, hs', g', hb'⟩ := g.pulse hb (by omega) (fun h7 => hd.resolve_left (by omega))
    rw [← add_succ_mul] at hs' g'
    refine ⟨u, ?_, g', hb'⟩
    rw [Nat.succ_mul, pulseTrace, List.range_succ, List.flatMap_append]
    exact hs.trans hs'

/-! ## Bits received -/

/-- The propagation wait before sample `j`, up to the sample. -/
theorem Entered.sample (h : Entered c cmd v .rxd e s) (hk : s.k.toNat = j) (hj : j < 8) :
    ∃ t, Shows (nCDD c) s [⟨e + nCDD c, .sample j⟩] t ∧ Entered c cmd v .rxl (e + nCDD c) t ∧ t.k.toNat = j := by
  subst hk
  have hr : leaveRxd (waitFor s.t s) = _ := leaveRxd_sample (by rw [waitFor_k]; omega)
  obtain ⟨hs, g⟩ := h.row rfl ((rowAction_rxd (by simp [h.phase]) (by simp)).trans hr) rfl rfl
  exact ⟨_, hs, g, by simp [row12]⟩

theorem Entered.readRise (h : Entered c cmd v .rxl e s) (hk : s.k.toNat = j) :
    ∃ t, Shows (nCL c) s [⟨e + nCL c, .clkRise⟩] t ∧ Entered c cmd v .rxh (e + nCL c) t ∧ t.k.toNat = j := by
  obtain ⟨hs, g⟩ := h.row rfl (rowAction_rxl (by simp [h.phase]) (by simp)) rfl rfl
  exact ⟨_, hs, g, by simpa [row14] using hk⟩

theorem Entered.readFall (h : Entered c cmd v .rxh e s) (hk : s.k.toNat = j) (hj : j < 8) :
    ∃ t, Shows (nCH c) s [⟨e + nCH c, .clkFall⟩] t ∧ Entered c cmd v .rxd (e + nCH c) t ∧ t.k.toNat = j + 1 := by
  obtain ⟨hs, g⟩ := h.row rfl (rowAction_rxh (by simp [h.phase]) (by simp)) rfl rfl
  refine ⟨_, hs, g, ?_⟩
  rw [row15, waitFor_k, BitVec.toNat_add, hk]
  show (j + 1) % 16 = j + 1
  omega

/-- The propagation wait after the eighth pulse, up to the edge at which the block drives IO again. -/
theorem Entered.drive (h : Entered c cmd v .rxd e s) (hk : s.k.toNat = 8) :
    ∃ t, Shows (nCDD c) s [⟨e + nCDD c, .ioDrive⟩] t ∧ Entered c cmd v .hold (e + nCDD c) t := by
  have hr : leaveRxd (waitFor s.t s) = _ := leaveRxd_end (by simpa using hk)
  exact ⟨_, h.row rfl ((rowAction_rxd (by simp [h.phase]) (by simp)).trans hr) rfl rfl⟩

/-- The wait, the sample and the clock pulse of bit `j`, up to the next wait. -/
theorem Entered.readPulse (h : Entered c cmd v .rxd e s) (hk : s.k.toNat = j) (hj : j < 8) :
    ∃ t, Shows (nCDD c + bitCycles c) s [⟨e + nCDD c, .sample j⟩, ⟨e + nCDD c + nCL c, .clkRise⟩,
        ⟨e + (nCDD c + bitCycles c), .clkFall⟩] t
      ∧ Entered c cmd v .rxd (e + (nCDD c + bitCycles c)) t ∧ t.k.toNat = j + 1 := by
  obtain ⟨t, hs, g, hk⟩ := h.sample hk hj
  obtain ⟨u, hs', g', hk'⟩ := g.readRise hk
  obtain ⟨w, hs'', g'', hk''⟩ := g'.readFall hk' hj
  simp only [Nat.add_assoc] at hs' hs'' g'' ⊢
  exact ⟨w, hs.trans (hs'.trans hs''), g'', hk''⟩

/-- The first `n` bits of a read's data byte, the first wait being entered at edge `q` (41_sequencer R93). -/
def readPulseTrace (c : Config) (q n : Nat) : List TraceItem :=
  (List.range n).flatMap (fun j => [⟨q + nCDD c + j * (nCDD c + bitCycles c), .sample j⟩,
    ⟨q + nCDD c + j * (nCDD c + bitCycles c) + nCL c, .clkRise⟩, ⟨q + (j + 1) * (nCDD c + bitCycles c), .clkFall⟩])

theorem Entered.readPulses (h : Entered c cmd v .rxd e s) (hk : s.k.toNat = 0) (hn : n ≤ 8) :
    ∃ t, Shows (n * (nCDD c + bitCycles c)) s (readPulseTrace c e n) t
      ∧ Entered c cmd v .rxd (e + n * (nCDD c + bitCycles c)) t ∧ t.k.toNat = n := by
  induction n with
  | zero => simpa using ⟨s, Shows.refl s, h, hk⟩
  | succ n ih =>
    obtain ⟨t, hs, g, hk⟩ := ih (by omega)
    obtain ⟨u, hs', g', hk'⟩ := g.readPulse hk (by omega)
    rw [← add_succ_mul, Nat.add_right_comm e] at hs'
    rw [← add_succ_mul] at g'
    refine ⟨u, ?_, g', hk'⟩
    rw [Nat.succ_mul, readPulseTrace, List.range_succ, List.flatMap_append]
    exact hs.trans hs'

/-! ## The end of a transaction -/

/-- HOLD, up to the fall of RST, at which a read delivers its byte. -/
theorem Entered.finish (h : Entered c cmd v .hold e s) :
    ∃ t, Shows (nCCH c) s (⟨e + nCCH c, .rstFall⟩ :: if isRead cmd then [⟨e + nCCH c, .result t.rdata⟩] else []) t
      ∧ Entered c cmd v .recover (e + nCCH c) t := by
  have hr : rowAction quiet (waitFor s.t s) = .next (row16 (waitFor s.t s)) :=
    rowAction_hold (by simp [h.phase]) (by simp)
  have g := h.next rfl hr (ph' := .recover) rfl
  have hv : s.rvalid = false := h.inOrder.rvalid h.inited (by rw [h.phase]; rfl)
  have he : eventsBetween (waitFor s.t s) (advance (row16 (waitFor s.t s)))
      = .rstFall :: if isRead cmd then [.result (row16 (waitFor s.t s)).rdata] else [] := by
    simp [h.events g, row16_rvalid, h.cmdr, hv, levelChange, Phase.active, Phase.clockHigh, Phase.receiving, Phase.isIdle]
  have hs := h.shows rfl hr
  rw [he, atEdge, List.map_cons, apply_ite (List.map _)] at hs
  exact ⟨_, hs, g⟩

/-- The recovery wait, up to READY. -/
theorem Entered.settle (h : Entered c cmd v .recover e s) :
    ∃ t, Shows (nCWH c) s [⟨e + nCWH c, .readyRise⟩] t ∧ t.rdata = s.rdata := by
  have hr : rowAction quiet (waitFor s.t s) = .next (row2 (waitFor s.t s)) :=
    rowAction_recover (by simp [h.phase]) (by simp)
  have hs := h.shows rfl hr
  have he : eventsBetween (waitFor s.t s) (advance (row2 (waitFor s.t s))) = [.readyRise] := by
    simp [eventsBetween, row2, ready, h.phase, Phase.isIdle, levelChange]
  rw [he] at hs
  exact ⟨_, hs, by simp [row2]⟩

/-- HOLD and the recovery wait, up to READY. -/
theorem Entered.windUp (h : Entered c cmd v .hold e s) :
    ∃ t, Shows (nCCH c + nCWH c) s (⟨e + nCCH c, .rstFall⟩ :: (if isRead cmd then [⟨e + nCCH c, .result t.rdata⟩] else [])
      ++ [⟨e + nCCH c + nCWH c, .readyRise⟩]) t := by
  obtain ⟨t, hs, g⟩ := h.finish
  obtain ⟨u, hs', hd⟩ := g.settle
  exact ⟨u, hd ▸ hs.trans hs'⟩

/-! ## Whole transactions -/

/-- A table row that ends differently the last time. -/
theorem flatMap_range_last {α : Type} (f g : Nat → List α) (l : List α) (n : Nat) :
    (List.range (n + 1)).flatMap (fun k => f k ++ if k < n then g k else l)
      = (List.range n).flatMap (fun k => f k ++ g k) ++ (f n ++ l) := by
  rw [List.range_succ, List.flatMap_append]
  refine congrArg₂ _ (List.flatMap_congr fun k hk => ?_) (by simp)
  rw [if_pos (List.mem_range.mp hk)]

/-- The sixteen bit slots of a write, up to the hold wait. -/
theorem Entered.writeBits (h : Entered c cmd v .txl e s) (hb : AtBit 0 s) (hd : isRead cmd = false) :
    ∃ t, Shows (16 * bitCycles c) s ((List.range 16).flatMap (fun k =>
        [⟨e + k * bitCycles c + nCL c, .clkRise⟩, ⟨e + (k + 1) * bitCycles c, .clkFall⟩]
          ++ if k < 15 then [⟨e + (k + 1) * bitCycles c, .bit (writeSlot cmd v (k + 1))⟩] else [])) t
      ∧ Entered c cmd v .hold (e + 16 * bitCycles c) t := by
  obtain ⟨t, hs, g, hb⟩ := h.pulses hb (Nat.le_refl 15) (.inr hd)
  obtain ⟨u, hs', g', hb'⟩ := g.rise hb
  obtain ⟨w, hs'', g''⟩ := g'.lastFall hb'
  have he : e + 15 * bitCycles c + nCL c + nCH c = e + 16 * bitCycles c := by unfold bitCycles; omega
  rw [he] at hs'' g''
  refine ⟨w, ?_, g''⟩
  have hall := hs.trans (hs'.trans hs'')
  rw [show 15 * bitCycles c + (nCL c + nCH c) = 16 * bitCycles c from (Nat.succ_mul ..).symm] at hall
  rw [flatMap_range_last]
  exact hall

/-- The eight bit slots of a read's command byte, up to the wait for the first sample. -/
theorem Entered.readCommand (h : Entered c cmd v .txl e s) (hb : AtBit 0 s) (hd : isRead cmd = true) :
    ∃ t, Shows (8 * bitCycles c) s ((List.range 8).flatMap (fun k =>
        [⟨e + k * bitCycles c + nCL c, .clkRise⟩, ⟨e + (k + 1) * bitCycles c, .clkFall⟩]
          ++ if k < 7 then [⟨e + (k + 1) * bitCycles c, .bit (bitOf cmd (k + 1))⟩]
            else [⟨e + 8 * bitCycles c, .ioRelease⟩])) t
      ∧ Entered c cmd v .rxd (e + 8 * bitCycles c) t ∧ t.k.toNat = 0 := by
  obtain ⟨t, hs, g, hb⟩ := h.pulses hb (n := 7) (by omega) (.inl (Nat.le_refl 7))
  obtain ⟨u, hs', g', hb'⟩ := g.rise hb
  obtain ⟨w, hs'', g'', hk⟩ := g'.release hb' hd
  have he : e + 7 * bitCycles c + nCL c + nCH c = e + 8 * bitCycles c := by unfold bitCycles; omega
  rw [he] at hs'' g''
  refine ⟨w, ?_, g'', hk⟩
  have hp : pulseTrace c cmd v e 7 = (List.range 7).flatMap (fun k =>
      [⟨e + k * bitCycles c + nCL c, .clkRise⟩, ⟨e + (k + 1) * bitCycles c, .clkFall⟩]
        ++ [⟨e + (k + 1) * bitCycles c, .bit (bitOf cmd (k + 1))⟩]) := rfl
  have hall := hs.trans (hs'.trans hs'')
  rw [hp, show 7 * bitCycles c + (nCL c + nCH c) = 8 * bitCycles c from (Nat.succ_mul ..).symm] at hall
  rw [flatMap_range_last]
  exact hall

/-- The eight bits of a read's data byte, up to the hold wait. -/
theorem Entered.readData (h : Entered c cmd v .rxd e s) (hk : s.k.toNat = 0) :
    ∃ t, Shows (8 * bitCycles c + 9 * nCDD c) s
        (readPulseTrace c e 8 ++ [⟨e + 9 * nCDD c + 8 * bitCycles c, .ioDrive⟩]) t
      ∧ Entered c cmd v .hold (e + 9 * nCDD c + 8 * bitCycles c) t := by
  obtain ⟨t, hs, g, hk⟩ := h.readPulses hk (Nat.le_refl 8)
  obtain ⟨u, hs', g'⟩ := g.drive hk
  have he : e + 8 * (nCDD c + bitCycles c) + nCDD c = e + 9 * nCDD c + 8 * bitCycles c := by omega
  rw [he] at hs' g'
  refine ⟨u, ?_, g'⟩
  rw [show 8 * bitCycles c + 9 * nCDD c = 8 * (nCDD c + bitCycles c) + nCDD c by omega]
  exact hs.trans hs'

end Transaction

/-- The edge that accepts a request at rest enters SETUP before bit 0, with the request's upper byte as its command. -/
theorem accept_entered {w : ReqWord} {s : State} (hs : AtRest s) (hm : reqMarker w = true) :
    Entered s.cfg (w.extractLsb' 8 8) (reqData w) .setup s.edges (row5 w s) ∧ AtBit 0 (row5 w s) := by
  refine ⟨⟨?_, row5_inOrder hs w, ?_, ?_, ?_, ?_, fun _ => ?_, ?_⟩, ?_, ?_⟩ <;>
    simp [row5, hs.1, cmdGen_request hm, entryCount]

/-- It shows the rise of RST and the fall of READY. -/
theorem accept_events {s : State} (hs : AtRest s) (w : ReqWord) :
    eventsBetween s (advance (row5 w s)) = [.rstRise, .readyFall] := by
  obtain ⟨-, hp, hr, hc, ho⟩ := hs
  simp [eventsBetween, row5, ready, Phase.isIdle, levelChange, hp, hr, hc, ho]

/-- What follows the acceptance of a request, at line level. -/
theorem traceEdges_accept {w : ReqWord} {s t : State} {n : Nat} {es : List TraceItem} (hs : AtRest s)
    (hm : reqMarker w = true) (h : Shows n (row5 w s) es t) {ps : List Ports} (hps : noReset ps = true)
    (hn : ps.length = n) :
    runEdges (present w :: ps) s = .next (advance t)
      ∧ traceEdges (present w :: ps) s = [⟨s.edges, .rstRise⟩, ⟨s.edges, .readyFall⟩] ++ es := by
  have he := edge_present_idle hs.1 hs.2.1 hm
  obtain ⟨hrun, htrace⟩ := h ps hps hn
  rw [runEdges_cons he, traceEdges, he]
  refine ⟨hrun, ?_⟩
  show (eventsBetween s (advance (row5 w s))).map _ ++ traceEdges ps (advance (row5 w s)) = _
  rw [accept_events hs, htrace]
  rfl

theorem isRead_upper {w : ReqWord} (hm : reqMarker w = true) : isRead (w.extractLsb' 8 8) = (reqDir w == .read) := by
  rw [← cmdGen_request hm, isRead_cmdGen]

/-- A write shows the write table of R93. -/
theorem write_shows {w : ReqWord} {s : State} (hs : AtRest s) (hm : reqMarker w = true) (hd : reqDir w = .write)
    {ps : List Ports} (hps : noReset ps = true) (hn : ps.length = writeCycles s.cfg) :
    traceEdges (present w :: ps) s = writeTrace s.cfg s.edges (w.extractLsb' 8 8) (reqData w) := by
  have hr : isRead (w.extractLsb' 8 8) = false := by rw [isRead_upper hm, hd]; rfl
  obtain ⟨g, hb⟩ := accept_entered hs hm
  obtain ⟨t, h1, g, hb⟩ := g.setup hb
  obtain ⟨u, h2, g⟩ := g.writeBits hb hr
  obtain ⟨x, h3⟩ := g.windUp
  rw [hr] at h3
  have h := traceEdges_accept hs hm (h1.trans (h2.trans h3)) hps (by rw [hn, writeCycles]; omega)
  rw [h.2, writeTrace]
  simp only [List.append_assoc]
  rfl

/-- A read shows the read table of R93, with the byte it delivers. -/
theorem read_shows {w : ReqWord} {s : State} (hs : AtRest s) (hm : reqMarker w = true) (hd : reqDir w = .read)
    {ps : List Ports} (hps : noReset ps = true) (hn : ps.length = readCycles s.cfg) :
    ∃ t, runEdges (present w :: ps) s = .next t
      ∧ traceEdges (present w :: ps) s = readTrace s.cfg s.edges (w.extractLsb' 8 8) t.rdata := by
  have hr : isRead (w.extractLsb' 8 8) = true := by rw [isRead_upper hm, hd]; rfl
  obtain ⟨g, hb⟩ := accept_entered hs hm
  obtain ⟨t, h1, g, hb⟩ := g.setup hb
  obtain ⟨u, h2, g, hk⟩ := g.readCommand hb hr
  obtain ⟨x, h3, g⟩ := g.readData hk
  obtain ⟨y, h4⟩ := g.windUp
  rw [hr] at h4
  have h := traceEdges_accept hs hm (h1.trans (h2.trans (h3.trans h4))) hps (by rw [hn, readCycles]; omega)
  refine ⟨_, h.1, ?_⟩
  rw [h.2, readTrace]
  simp only [List.append_assoc]
  rfl

/-- Settles O33: the phases of a transaction, one after another, show the rows of the two tables. -/
theorem lineTraces : Obligations.LineTraces :=
  fun _ _ _ hs hm hps => ⟨fun hd hn => write_shows hs hm hd hps hn, fun hd hn => read_shows hs hm hd hps hn⟩

end Sys2Proof.Machine
end

section
/-! SUPPORT. The codec of the host software (48_client_layer R97 to R111): bit fields, and what decoding an encoding gives. -/

namespace Sys2Proof.Machine

/-! ## Formulas (R99 to R110) -/

theorem getBits_eq_extractLsb (b : Byte) {lo hi : Nat} (h : lo ≤ hi) : getBits b lo hi = (b.extractLsb hi lo).toNat := by
  rw [getBits, BitVec.extractLsb_toNat, Nat.sub_add_comm h]

/-- Packing is taken modulo 256 (48_client_layer R107). -/
theorem encodeBCD_toNat_mod (n : Nat) : (encodeBCD n).toNat = (16 * (n / 10) + n % 10) % 256 := by
  rw [encodeBCD, BitVec.toNat_ofNat, ← Nat.shiftLeft_add_eq_or_of_lt (by omega : n % 10 < 2 ^ 4), Nat.shiftLeft_eq,
    Nat.mul_comm]

/-- Settles O54: a bit field as a number is the extracted bits, and packing is addition modulo 256. -/
theorem codecFormulas : Obligations.CodecFormulas := by
  refine ⟨fun b => ?_, encodeBCD_toNat_mod, fun n => ⟨BitVec.or_zero, rfl⟩, fun d => BitVec.toNat_ofNat .., fun _ _ => rfl⟩
  simp only [decodeSeconds, decodeMinutes, decodeHours, decodeDate, decodeMonth, decodeDay, decodeYear,
    getBits_eq_extractLsb, Nat.zero_le, Nat.reduceLeDiff, and_self]

/-! ## Round trips (R111) -/

/-- Two packed digits are read back from any tens field, bits `4..th`, that can hold the tens digit. -/
theorem packed_encodeBCD {n th : Nat} (h4 : 4 ≤ th) (h7 : th ≤ 7) (ht : n < 10 * 2 ^ (th - 3)) (h : n ≤ 99) :
    10 * getBits (encodeBCD n) 4 th + getBits (encodeBCD n) 0 3 = n := by
  simp only [getBits, encodeBCD_toNat h, Nat.shiftRight_eq_div_pow]
  interval_cases th <;> omega

/-- The halt bit is no part of the value (R100). -/
theorem decodeSeconds_encodeSeconds {n : Nat} (run : Bool) (h : n ≤ 59) : decodeSeconds (encodeSeconds n run) = n := by
  simp only [decodeSeconds, getBits, encodeSeconds_toNat h, Nat.shiftRight_eq_div_pow]
  split <;> omega

theorem decodeMinutes_encodeBCD {n : Nat} (h : n ≤ 59) : decodeMinutes (encodeBCD n) = n :=
  packed_encodeBCD (by decide) (by decide) (by omega) (by omega)

theorem decodeHours_encodeBCD {n : Nat} (h : n ≤ 23) : decodeHours (encodeBCD n) = n :=
  packed_encodeBCD (by decide) (by decide) (by omega) (by omega)

theorem decodeDate_encodeBCD {n : Nat} (h : n ≤ 31) : decodeDate (encodeBCD n) = n :=
  packed_encodeBCD (by decide) (by decide) (by omega) (by omega)

theorem decodeMonth_encodeBCD {n : Nat} (h : n ≤ 12) : decodeMonth (encodeBCD n) = n :=
  packed_encodeBCD (by decide) (by decide) (by omega) (by omega)

theorem decodeDay_encodeDay {n : Nat} (h : n ≤ 6) : decodeDay (encodeDay n) = n := by
  simp only [decodeDay, encodeDay, getBits, BitVec.toNat_ofNat, Nat.shiftRight_eq_div_pow]
  omega

theorem decodeYear_encodeYear {n : Nat} (h : 2000 ≤ n) (h' : n ≤ 2099) : decodeYear (encodeYear n) = n := by
  have e := packed_encodeBCD (n := n - 2000) (th := 7) (by decide) (by decide) (by omega) (by omega)
  rw [decodeYear, encodeYear]
  omega

theorem Datetime.inRange_iff (t : Datetime) : t.inRange = true ↔
    2000 ≤ t.year ∧ t.year ≤ 2099 ∧ 1 ≤ t.month ∧ t.month ≤ 12 ∧ 1 ≤ t.date ∧ t.date ≤ 31
      ∧ 0 ≤ t.hours ∧ t.hours ≤ 23 ∧ 0 ≤ t.minutes ∧ t.minutes ≤ 59 ∧ 0 ≤ t.seconds ∧ t.seconds ≤ 59
      ∧ 0 ≤ t.day ∧ t.day ≤ 6 := by
  simp only [Datetime.inRange, Bool.and_eq_true, decide_eq_true_eq, and_assoc]

theorem decodeDatetime_encodeDatetime {t : Datetime} (run : Bool) (h : t.inRange = true) :
    decodeDatetime (encodeDatetime t run) = some t := by
  obtain ⟨hy, hy', hmo, hmo', hd, hd', hh, hh', hmi, hmi', hs, hs', hw, hw'⟩ := t.inRange_iff.mp h
  rw [encodeDatetime, decodeDatetime, decodeSeconds_encodeSeconds run (by omega), decodeMinutes_encodeBCD (by omega),
    decodeHours_encodeBCD (by omega), decodeDate_encodeBCD (by omega), decodeMonth_encodeBCD (by omega),
    decodeDay_encodeDay (by omega), decodeYear_encodeYear (by omega) (by omega)]
  repeat rw [Int.toNat_of_nonneg (by omega)]

/-- Settles O55, field by field. -/
theorem codecRoundTrip : Obligations.CodecRoundTrip :=
  ⟨fun _ run h => decodeSeconds_encodeSeconds run h, fun _ => decodeMinutes_encodeBCD, fun _ => decodeHours_encodeBCD,
    fun _ _ => decodeDate_encodeBCD, fun _ _ => decodeMonth_encodeBCD, fun _ => decodeDay_encodeDay,
    fun _ => decodeYear_encodeYear, fun _ run h => decodeDatetime_encodeDatetime run h⟩

end Sys2Proof.Machine
end

section
/-! SUPPORT. The facade's lines (48_client_layer R113 to R121): their request words, and what it rejects. -/

namespace Sys2Proof.Machine

/-! ## A step of the host -/

theorem step_call {c : FacadeCall} {ms : List Move} {s : State} (hq : s.probe = none) (ha : s.agenda = .call c :: ms) :
    step s = .next (call c { s with agenda := ms }) := by
  simp only [step, fetch, otherMove, hq, ha]

theorem step_software {op : HostOp} {ms : List Move} {s : State} (hq : s.probe = none) (ha : s.agenda = .software op :: ms) :
    step s = .next (software op { s with agenda := ms }) := by
  simp only [step, fetch, otherMove, hq, ha]

/-- The lines of an accepted call come next. -/
theorem step_call_accepted {c : FacadeCall} {ls ms : List Move} {s : State} (hq : s.probe = none)
    (ha : s.agenda = .call c :: ms) (hl : facadeLines s.host.running c = .ok ls) :
    step s = .next { s with host := { s.host with kept := [], rangeError := false }, agenda := ls ++ ms } := by
  rw [step_call hq ha, call]
  simp only [hl]

/-- A rejected call has no lines. -/
theorem step_call_rejected {c : FacadeCall} {e : RangeError} {ms : List Move} {s : State} (hq : s.probe = none)
    (ha : s.agenda = .call c :: ms) (he : facadeLines s.host.running c = .error e) :
    step s = .next { s with host := { s.host with kept := [], rangeError := true }, agenda := ms } := by
  rw [step_call hq ha, call]
  simp only [he]

/-! ## Ranges (R113) -/

theorem ramAddress_outside {a : Int} (h : ¬ (0 ≤ a ∧ a ≤ 30)) : ramAddress a = none := if_neg h

theorem ramAddress_ofNat {a : Nat} (h : a ≤ 30) : ramAddress a = some (BitVec.ofNat 5 a) :=
  if_pos ⟨by omega, by omega⟩

/-- Settles O56: the call's lines are a range error, so no line comes before those of the program. -/
theorem rangeChecked : Obligations.RangeChecked := by
  refine ⟨fun dt ms s hq ha hr => ?_, fun a v c ms s hq ha hc hr => ?_⟩
  · have he : facadeLines s.host.running (.setupDatetime dt) = .error .datetimeField :=
      if_neg (fun h => hr (dt.inRange_iff.mp h))
    exact step_call_rejected hq ha he
  · have he : facadeLines s.host.running c = .error .ramAddress := by
      rcases hc with rfl | rfl <;> simp only [facadeLines, ramAddress_outside hr]
    exact step_call_rejected hq ha he

/-! ## Request words (R114 to R121) -/

/-- A RAM request word by its fields. -/
theorem requestWord_ram (a : Addr) (d : Dir) (v : Byte) :
    requestWord .ram a d v = requestWord .ram 0#5 d 0#8 ||| (a.setWidth 16 <<< 9) ||| v.setWidth 16 := by
  have hc : (cmdGen .ram a d).setWidth 16 <<< 8 = requestWord .ram 0#5 d 0#8 ||| (a.setWidth 16 <<< 9) := by
    revert a; cases d <;> decide
  rw [requestWord_eq, ← hc, ← BitVec.setWidth_append_eq_shiftLeft_setWidth_or, BitVec.setWidth_eq]

theorem addr_setWidth {a : Nat} (h : a ≤ 30) : (BitVec.ofNat 5 a).setWidth 16 = BitVec.ofNat 16 a :=
  BitVec.setWidth_ofNat_of_le_of_lt (by decide) (by omega)

/-- Settles O57: the lines of each call, with each word as its command byte above its data byte. -/
theorem facadeRequests : Obligations.FacadeRequests := by
  intro run words
  refine ⟨rfl, fun dt h => ?_, fun a h => ?_, fun a v h => ?_, rfl, rfl, rfl, fun h => rfl, fun h s => rfl, fun s => rfl⟩
  · simp only [words, facadeLines, if_pos h]
    rfl
  · have e : requestWord .ram (BitVec.ofNat 5 a) .read 0#8 = 0xC100#16 ||| (BitVec.ofNat 16 a <<< 9) := by
      rw [requestWord_ram, addr_setWidth h]
      exact BitVec.or_zero
    simp only [words, facadeLines, ramAddress_ofNat h, e]
    rfl
  · have e : requestWord .ram (BitVec.ofNat 5 a) .write v = 0xC000#16 ||| (BitVec.ofNat 16 a <<< 9) ||| v.setWidth 16 := by
      rw [requestWord_ram, addr_setWidth h]
      rfl
    simp only [words, facadeLines, ramAddress_ofNat h, e]
    rfl

end Sys2Proof.Machine
end

section
/-! SUPPORT. Runs of the host's moves (48_client_layer R114 to R120): one step per line between two transactions, and the wait for
READY after a reset. -/

namespace Sys2Proof.Machine

/-! ## Runs of steps -/

/-- `n` steps lead from `s` to `t`. -/
def Runs (n : Nat) (s t : State) : Prop := Host.Core.run core n s = .next t

theorem Runs.refl (s : State) : Runs 0 s s := rfl

theorem runs_succ {n : Nat} {s t u : State} (h : step s = .next t) : Runs (n + 1) s u ↔ Runs n t u := by
  have e : core.step s = .next t := h
  simp only [Runs, Host.Core.run, e]

theorem step_of_runs_succ {n : Nat} {s u : State} (h : Runs (n + 1) s u) : ∃ t, step s = .next t ∧ Runs n t u := by
  cases hs : step s with
  | next t => exact ⟨t, rfl, (runs_succ hs).mp h⟩
  | fault f | refused r =>
    have e : core.step s = _ := hs
    simp [Runs, Host.Core.run, e] at h

theorem Runs.of_step {s t : State} (h : Machine.step s = .next t) : Runs 1 s t := (runs_succ h).mpr (.refl t)

theorem Runs.trans {n m : Nat} {s t u : State} (h : Runs n s t) (g : Runs m t u) : Runs (n + m) s u := by
  induction n generalizing s with
  | zero => cases h; rwa [Nat.zero_add]
  | succ n ih =>
    obtain ⟨v, hv, hr⟩ := step_of_runs_succ h
    rw [Nat.succ_add]
    exact (runs_succ hv).mpr (ih hr)

/-- One step more at the end. -/
theorem Runs.step {n : Nat} {s t u : State} (h : Runs n s t) (g : Machine.step t = .next u) : Runs (n + 1) s u :=
  h.trans (.of_step g)

/-! ## Between two transactions -/

/-- The block is at rest with right timing, and `ms` are the moves to come. -/
structure Awaits (ms : List Move) (s : State) : Prop where
  rest : AtRest s
  timely : Timely s.cfg
  noProbe : s.probe = none
  agenda : s.agenda = ms

theorem Awaits.runEnded {s : State} (h : Awaits [] s) : runEnded s = true := by
  simp [Machine.runEnded, h.agenda, h.noProbe, (ready_iff s).mpr h.rest.2.1]

/-- The host has taken a step of its own: its variables are now `v`, the moves to come `ms`, and the block and the device are as
they were. -/
structure HostActs (v : HostState) (ms : List Move) (s t : State) : Prop where
  steps : step s = .next t
  awaits : Awaits ms t
  host : t.host = v
  dev : t.dev = s.dev
  wdr : t.wdr = s.wdr
  rdata : t.rdata = s.rdata
  err : t.err = s.err

theorem Awaits.acts {ms ms' : List Move} {v : HostState} {s : State} (h : Awaits ms s)
    (hs : step s = .next { s with host := v, agenda := ms' }) : ∃ t, HostActs v ms' s t :=
  ⟨_, hs, ⟨h.rest, h.timely, h.noProbe, rfl⟩, rfl, rfl, rfl, rfl, rfl⟩

/-- The lines of an accepted call come first. -/
theorem Awaits.call {c : FacadeCall} {ls ms : List Move} {s : State} (h : Awaits (.call c :: ms) s)
    (hl : facadeLines s.host.running c = .ok ls) :
    ∃ t, HostActs { s.host with kept := [], rangeError := false } (ls ++ ms) s t :=
  h.acts (step_call_accepted h.noProbe h.agenda hl)

theorem Awaits.seedRunning {ms : List Move} {s : State} (h : Awaits (.software .seedRunning :: ms) s) :
    ∃ t, HostActs { s.host with running := !(bitOf s.rdata 7) } ms s t :=
  h.acts (step_software h.noProbe h.agenda)

theorem Awaits.keepRdata {ms : List Move} {s : State} (h : Awaits (.software .keepRdata :: ms) s) :
    ∃ t, HostActs { s.host with kept := s.host.kept ++ [s.rdata] } ms s t :=
  h.acts (step_software h.noProbe h.agenda)

theorem Awaits.writeHalt {b : Bool} {ms : List Move} {s : State} (h : Awaits (.software (.writeHalt b) :: ms) s) :
    ∃ t, HostActs s.host (writeLine .seconds (haltByte s.rdata b) :: ms) s t :=
  h.acts (step_software h.noProbe h.agenda)

theorem Awaits.setRunning {r : Bool} {ms : List Move} {s : State} (h : Awaits (.software (.setRunning r) :: ms) s) :
    ∃ t, HostActs { s.host with running := r } ms s t :=
  h.acts (step_software h.noProbe h.agenda)

/-! ## A transaction as one line -/

/-- A request line at rest is its whole transaction. -/
theorem Awaits.request {sp : Space} {a : Addr} {d : Dir} {w : Byte} {ms : List Move} {s : State}
    (h : Awaits (.request (requestWord sp a d w) :: ms) s) :
    step s = .next (transaction sp a d w { s with agenda := ms }) := by
  have hrest : AtRest { s with agenda := ms } := h.rest
  obtain ⟨hi, hp, -⟩ := h.rest
  rw [step_request h.noProbe h.agenda, if_pos ⟨hi, hp⟩, requestWord_eq,
    exec_decodeRequest ((reqMarker_append ..).trans (cmdMarker_cmdGen ..)), reqSpace_append, reqAddr_append, reqDir_append,
    reqData_append, cmdSpace_cmdGen, cmdAddr_cmdGen, cmdDir_cmdGen, whenTaken_atRest hrest]

/-- A read line of the register `r` has received the byte that the device held as `e`, and but for that only time has passed
(20_memory R48, R51). -/
structure LineRead (r : ClkReg) (ms : List Move) (s : State) (e : Device) (t : State) : Prop where
  steps : step s = .next t
  awaits : Awaits ms t
  host : t.host = s.host
  err : t.err = s.err
  before : SameStore s.dev e
  rdata : t.rdata = clkGet e.clk r
  after : SameStore e t.dev

theorem Awaits.read {r : ClkReg} {ms : List Move} {s : State}
    (h : Awaits (.request (requestWord .clk r.addr .read 0x00#8) :: ms) s) : ∃ e t, LineRead r ms s e t := by
  obtain ⟨e, he, hb, hd⟩ := devReadDone_timely h.timely s.draws .clk r.addr s.dev
  rw [devReadByte_clk] at hb
  rw [devReadAfter_documented (locate_clk_documented r)] at hd
  have hrest : AtRest { s with agenda := ms } := h.rest
  exact ⟨e, _, h.request.trans (congrArg _ (readTransaction_eq hrest)),
    ⟨readDone_atRest hrest, h.timely, h.noProbe, rfl⟩, rfl, rfl, he, hb, hd⟩

/-- A write line of the register `r` has stored `x` in the device as it stood at `e`, and but for that only time has passed. The
byte stored is the line's byte `v` if that is valid content (20_memory R47, R51). -/
structure LineWritten (r : ClkReg) (v : Byte) (ms : List Move) (s : State) (e : Device) (x : Byte) (t : State) : Prop where
  steps : step s = .next t
  awaits : Awaits ms t
  host : t.host = s.host
  wdr : t.wdr = v
  rdata : t.rdata = s.rdata
  before : SameStore s.dev e
  after : SameStore { e with clk := clkSet e.clk r x } t.dev
  valid : validContent r v = true → x = v

theorem Awaits.write {r : ClkReg} {v : Byte} {ms : List Move} {s : State} (h : Awaits (writeLine r v :: ms) s) :
    ∃ e x t, LineWritten r v ms s e x t := by
  obtain ⟨e, he, hd⟩ := devWritten_timely h.timely.1 s.draws .clk r.addr v s.dev
  rw [devWrite_clk] at hd
  have hrest : AtRest { s with agenda := ms } := h.rest
  exact ⟨e, _, _, h.request.trans (congrArg _ (writeTransaction_eq hrest)),
    ⟨written_atRest hrest, h.timely, h.noProbe, rfl⟩, rfl, rfl, rfl, he, hd, fun hv => if_pos hv⟩

/-! ## The halt bit (R120, conflict C4) -/

theorem haltByte_getLsbD_seven (b : Byte) (h : Bool) : (haltByte b h).getLsbD 7 = h := by
  cases h <;> simp [haltByte]

/-- The halt bit is no part of the valid content of the seconds register (20_memory R49). -/
theorem validContent_haltByte (b : Byte) (h : Bool) : validContent .seconds (haltByte b h) = validContent .seconds b := by
  revert b; cases h <;> decide

/-- Writing the halt bit to its own value changes nothing. -/
theorem haltByte_self {b : Byte} {h : Bool} (hb : b.getLsbD 7 = h) : haltByte b h = b := by
  subst hb
  revert b; decide

/-- Settles O59: a read, the write of the byte read with its halt bit replaced, and the cache. -/
theorem setClockHaltBit : Obligations.SetClockHaltBit := by
  intro h s hs ht hq ha
  have h0 : Awaits [.call (.setClockHaltBit h)] s := ⟨hs, ht, hq, ha⟩
  obtain ⟨s1, h1⟩ := h0.call rfl
  obtain ⟨e, s2, h2⟩ := h1.awaits.read (r := .seconds)
  obtain ⟨s3, h3⟩ := h2.awaits.writeHalt
  obtain ⟨f, x, s4, h4⟩ := h3.awaits.write
  obtain ⟨t, h5⟩ := h4.awaits.setRunning
  have hrun := ((((Runs.of_step h1.steps).step h2.steps).step h3.steps).step h4.steps).step h5.steps
  have hbyte : t.rdata = s2.rdata := h5.rdata.trans (h4.rdata.trans h3.rdata)
  have hbefore : SameStore s.dev e := h1.dev ▸ h2.before
  have hage : SameStore s.dev f := hbefore.trans (h2.after.trans (h3.dev ▸ h4.before))
  have hdev : SameStore { f with clk := clkSet f.clk .seconds x } t.dev := h5.dev ▸ h4.after
  have hx (hv : validContent .seconds t.rdata = true) : x = haltByte t.rdata h := by
    rw [hbyte] at hv ⊢
    exact h4.valid ((validContent_haltByte ..).trans hv)
  have hch (hv : validContent .seconds t.rdata = true) : halted t.dev.clk = h := by
    refine hdev.ch.trans ?_
    rw [hx hv]
    exact haltByte_getLsbD_seven ..
  refine ⟨t, hrun, h5.awaits.rest, h5.awaits.runEnded, congrArg HostState.running h5.host, hdev.ram.trans hage.ram,
    ?_, hch, fun hh hv => ?_⟩
  · rw [h5.wdr, h4.wdr, hbyte, haltByte]
  · have hheld : t.rdata = s.dev.clk.seconds := by rw [hbyte, h2.rdata, hbefore.clk hh]; rfl
    rw [← hheld] at hv
    refine ⟨hheld, hch hv, ?_⟩
    rintro rfl
    have hself : clkSet f.clk .seconds x = s.dev.clk := by
      rw [hx hv, hheld, haltByte_self hh, hage.clk hh]
      rfl
    exact (hdev.clk (hself ▸ hh)).trans hself

end Sys2Proof.Machine
end

section
/-! SUPPORT. A Datetime written and read back (48_client_layer R115, R116), and the start-up call (R114). -/

namespace Sys2Proof.Machine

/-! ## Lists of lines on a halted clock -/

/-- The read lines of the registers `rs` keep their bytes in that order; a halted clock is as before. -/
theorem Awaits.readAll {rs : List ClkReg} {ms : List Move} {s : State} (h : Awaits (rs.flatMap readLine ++ ms) s)
    (hh : halted s.dev.clk = true) :
    ∃ t, Runs (2 * rs.length) s t ∧ Awaits ms t ∧ t.dev.clk = s.dev.clk
      ∧ t.host.kept = s.host.kept ++ rs.map (clkGet s.dev.clk) := by
  induction rs generalizing s with
  | nil => exact ⟨s, .refl s, h, rfl, (List.append_nil _).symm⟩
  | cons r rs ih =>
    obtain ⟨e, s1, h1⟩ := Awaits.read (ms := .software .keepRdata :: (rs.flatMap readLine ++ ms)) h
    obtain ⟨s2, h2⟩ := h1.awaits.keepRdata
    have hbyte : s1.rdata = clkGet s.dev.clk r := by rw [h1.rdata, h1.before.clk hh]
    have hclk : s2.dev.clk = s.dev.clk := h2.dev ▸ (h1.before.trans h1.after).clk hh
    obtain ⟨t, hrun, ht, htclk, hkept⟩ := ih h2.awaits (hclk ▸ hh)
    refine ⟨t, ?_, ht, htclk.trans hclk, ?_⟩
    · rw [List.length_cons, Nat.mul_succ, Nat.add_comm]
      exact ((Runs.of_step h1.steps).step h2.steps).trans hrun
    · rw [hkept, h2.host, h1.host, hclk, hbyte, List.append_assoc]
      rfl

/-- The clock registers after the bytes `ws` are stored one after another. -/
def clkSetAll (c : ClkRegs) (ws : List (ClkReg × Byte)) : ClkRegs :=
  ws.foldl (fun c w => clkSet c w.1 w.2) c

/-- A valid byte for its register, which does not start the clock (10_state R29). -/
def KeepsHalted (w : ClkReg × Byte) : Prop :=
  validContent w.1 w.2 = true ∧ (w.1 = .seconds → w.2.getLsbD 7 = true)

/-- Write lines of valid bytes that do not start a halted clock store those bytes. -/
theorem Awaits.writeAll {ws : List (ClkReg × Byte)} {ms : List Move} {s : State}
    (h : Awaits (ws.map (fun w => writeLine w.1 w.2) ++ ms) s) (hh : halted s.dev.clk = true) (hw : ∀ w ∈ ws, KeepsHalted w) :
    ∃ t, Runs ws.length s t ∧ Awaits ms t ∧ t.host = s.host ∧ t.dev.clk = clkSetAll s.dev.clk ws
      ∧ halted t.dev.clk = true := by
  induction ws generalizing s with
  | nil => exact ⟨s, .refl s, h, rfl, rfl, hh⟩
  | cons w ws ih =>
    obtain ⟨e, x, s1, h1⟩ := Awaits.write (ms := ws.map (fun w => writeLine w.1 w.2) ++ ms) h
    obtain ⟨⟨hvalid, hch⟩, hws⟩ := List.forall_mem_cons.mp hw
    have hage := h1.after
    rw [h1.valid hvalid, h1.before.clk hh] at hage
    have hset := halted_clkSet hh hch
    have hclk : s1.dev.clk = clkSet s.dev.clk w.1 w.2 := hage.clk hset
    obtain ⟨t, hrun, ht, hhost, htclk, hth⟩ := ih h1.awaits (hclk ▸ hset) hws
    refine ⟨t, ?_, ht, hhost.trans h1.host, ?_, hth⟩
    · rw [List.length_cons, Nat.add_comm]
      exact (Runs.of_step h1.steps).trans hrun
    · rw [htclk, hclk]
      rfl

/-! ## A Datetime -/

/-- The bytes of a Datetime, each with its register. -/
def datetimeBytes (t : Datetime) (run : Bool) : List (ClkReg × Byte) := fieldOrder.zip (encodeDatetime t run)

/-- The encoder's bytes are valid content (20_memory R49), and with the cache saying halted the clock stays halted (R108). -/
theorem datetimeBytes_keepHalted {t : Datetime} (h : t.inRange = true) : ∀ w ∈ datetimeBytes t false, KeepsHalted w := by
  obtain ⟨hy, hy', hmo, hmo', hd, hd', hh, hh', hmi, hmi', hs, hs', hw, hw'⟩ := t.inRange_iff.mp h
  obtain ⟨vsec, vmin, vhour, vdate, vmon, vday, vyear⟩ := validContent_iff_encoded
  simp only [datetimeBytes, fieldOrder, encodeDatetime, List.zip_cons_cons, List.zip_nil_right, List.forall_mem_cons, KeepsHalted]
  refine ⟨⟨(vsec _).mpr ⟨_, by omega, false, rfl⟩, fun _ => by simp [encodeSeconds]⟩,
    ⟨(vmin _).mpr ⟨_, by omega, rfl⟩, nofun⟩, ⟨(vhour _).mpr ⟨_, by omega, rfl⟩, nofun⟩,
    ⟨(vdate _).mpr ⟨_, by omega, by omega, rfl⟩, nofun⟩, ⟨(vmon _).mpr ⟨_, by omega, by omega, rfl⟩, nofun⟩,
    ⟨(vday _).mpr ⟨_, by omega, rfl⟩, nofun⟩, ⟨(vyear _).mpr ⟨_, by omega, by omega, rfl⟩, nofun⟩, nofun⟩

theorem map_clkGet_clkSetAll (c : ClkRegs) (t : Datetime) (run : Bool) :
    fieldOrder.map (clkGet (clkSetAll c (datetimeBytes t run))) = encodeDatetime t run := rfl

/-- Settles O60: the seven writes store the encoded fields and the seven reads keep them, on a clock that stays halted. -/
theorem datetimeReadsBack : Obligations.DatetimeReadsBack := by
  intro dt s hs ht hq ha hrange hh hcache
  have h0 : Awaits [.call (.setupDatetime dt), .call .getDatetime] s := ⟨hs, ht, hq, ha⟩
  have hlines : facadeLines s.host.running (.setupDatetime dt)
      = .ok ((datetimeBytes dt false).map fun w => writeLine w.1 w.2) := by
    rw [hcache]; exact if_pos hrange
  obtain ⟨s1, h1⟩ := h0.call hlines
  obtain ⟨s2, hwrites, h2, -, hclk, hh2⟩ := h1.awaits.writeAll (h1.dev ▸ hh) (datetimeBytes_keepHalted hrange)
  obtain ⟨s3, h3⟩ := h2.call rfl
  obtain ⟨t, hreads, h4, htclk, hkept⟩ := h3.awaits.readAll (h3.dev ▸ hh2)
  have hrun := (((Runs.of_step h1.steps).trans hwrites).step h3.steps).trans hreads
  refine ⟨t, hrun, h4.runEnded, ?_, ?_⟩
  · rw [datetimeResult, hkept, h3.host, h3.dev, hclk, map_clkGet_clkSetAll]
    exact decodeDatetime_encodeDatetime false hrange
  · rw [htclk, h3.dev]; exact hh2

/-! ## Start-up (R114, 70_reset R139) -/

/-- While the host waits for READY a step is an edge with nothing asserted. -/
theorem step_waitReady_busy {ms : List Move} {s : State} (hq : s.probe = none) (ha : s.agenda = .waitReady :: ms)
    (hp : s.ph ≠ .idle) : step s = edge quiet s := by
  have hn : ¬ ready s = true := mt (ready_iff s).mp hp
  simp only [step, fetch, otherMove, hq, ha, if_neg hn]

theorem step_waitReady_ready {ms : List Move} {s : State} (hq : s.probe = none) (ha : s.agenda = .waitReady :: ms)
    (hp : s.ph = .idle) : step s = .next { s with agenda := ms } := by
  simp only [step, fetch, otherMove, hq, ha, if_pos ((ready_iff s).mpr hp)]

/-- A block `n` edges before IDLE on its way from a reset, its lines at rest, while the host waits for READY (70_reset R139). -/
structure Recovering (n : Nat) (ms : List Move) (s : State) : Prop where
  inited : s.inited = true
  ph : s.ph = .recover
  timer : s.t = n
  rst : s.rstO = false
  clk : s.clkO = false
  dir : s.ioOE = true
  err : s.err = false
  timely : Timely s.cfg
  noProbe : s.probe = none
  agenda : s.agenda = .waitReady :: ms

theorem Recovering.step_eq {n : Nat} {ms : List Move} {s : State} (h : Recovering n ms s) : step s = edge quiet s :=
  step_waitReady_busy h.noProbe h.agenda (by simp [h.ph])

/-- The recovery wait, one step per edge (41_sequencer R91 row 2). -/
theorem Recovering.runs {n : Nat} {ms : List Move} {s : State} (h : Recovering (n + 1) ms s) :
    ∃ t, Runs (n + 1) s t ∧ Awaits (.waitReady :: ms) t ∧ t.err = false := by
  induction n generalizing s with
  | zero =>
    have hstep := h.step_eq
    rw [edge_run rfl h.inited, rowAction_recover h.ph h.timer] at hstep
    exact ⟨_, .of_step hstep, ⟨⟨h.inited, rfl, h.rst, h.clk, h.dir⟩, h.timely, h.noProbe, h.agenda⟩, h.err⟩
  | succ n ih =>
    have hstep := h.step_eq
    have hcount : 1 < s.t := by rw [h.timer]; omega
    rw [edge_count rfl h.inited (by simp [h.ph, Phase.isTimed]) hcount] at hstep
    have hnext : Recovering (n + 1) ms (advance { s with t := s.t - 1 }) :=
      ⟨h.inited, h.ph, by simp [h.timer], h.rst, h.clk, h.dir, h.err, h.timely, h.noProbe, h.agenda⟩
    obtain ⟨t, hrun, ht⟩ := ih hnext
    exact ⟨t, (runs_succ hstep).mpr hrun, ht⟩

/-- Two edges after any state: the reset edge, and the edge that begins the recovery wait (70_reset R138, R139). -/
theorem reset_recovering {ms : List Move} {s : State} (ht : Timely s.cfg) (hq : s.probe = none) (ha : s.agenda = .reset :: ms) :
    ∃ t, Runs 2 s t ∧ Recovering (nCWH s.cfg) ms t := by
  obtain ⟨⟨hcfg, -, hms, hprobe⟩, -⟩ :=
    edge_surroundings (edge_reset (p := resetPorts) rfl { s with agenda := .waitReady :: ms })
  have h1 : step s = .next (advance (applyReset { s with agenda := .waitReady :: ms })) := by
    simp only [step, fetch, otherMove, hq, ha]
    exact edge_reset rfl _
  have h2 := step_waitReady_busy (hprobe.trans hq) hms nofun
  rw [edge_run rfl rfl, rowAction_reset rfl] at h2
  exact ⟨_, (Runs.of_step h1).step h2, rfl, rfl, congrArg nCWH hcfg, driveRst_rstO .., rfl, rfl, rfl,
    (congrArg Timely hcfg).mpr ht, hprobe.trans hq, hms⟩

/-- A reset line leaves any block at rest and ERR clear, N_CWH + 3 steps later. -/
theorem reset_runs {ms : List Move} {s : State} (ht : Timely s.cfg) (hq : s.probe = none) (ha : s.agenda = .reset :: ms) :
    ∃ t, Runs (nCWH s.cfg + 3) s t ∧ Awaits ms t ∧ t.err = false := by
  obtain ⟨u, h1, hu⟩ := reset_recovering ht hq ha
  obtain ⟨n, hn⟩ := Nat.exists_eq_add_of_le' (nCWH_pos s.cfg)
  rw [hn] at hu ⊢
  obtain ⟨v, h2, hv, herr⟩ := hu.runs
  have h3 := step_waitReady_ready hv.noProbe hv.agenda hv.rest.2.1
  have hrun := (h1.trans h2).step h3
  refine ⟨{ v with agenda := ms }, ?_, ⟨hv.rest, hv.timely, hv.noProbe, rfl⟩, herr⟩
  rwa [show n + 1 + 3 = 2 + (n + 1) + 1 by omega]

/-- Settles O58: a reset, the read of the seconds register, and the cache. -/
theorem startUp : Obligations.StartUp := by
  intro s ht hq ha
  obtain ⟨s1, h1, hcfg, hq1, ha1⟩ : ∃ t, step s = .next t ∧ t.cfg = s.cfg ∧ t.probe = none
      ∧ t.agenda = [.reset, .request (requestWord .clk ClkReg.seconds.addr .read 0x00#8), .software .seedRunning] :=
    ⟨_, step_call_accepted hq ha rfl, rfl, hq, rfl⟩
  obtain ⟨s2, hreset, h2, herr⟩ := reset_runs (hcfg ▸ ht) hq1 ha1
  obtain ⟨e, s3, h3⟩ := h2.read (r := .seconds)
  obtain ⟨t, h4⟩ := h3.awaits.seedRunning
  have hrun := (((Runs.of_step h1).trans hreset).step h3.steps).step h4.steps
  refine ⟨t, ?_, h4.awaits.rest, h4.awaits.runEnded, h4.err.trans (h3.err.trans herr), ?_⟩
  · rw [hcfg] at hrun
    rwa [show nCWH s.cfg + 6 = 1 + (nCWH s.cfg + 3) + 1 + 1 by omega]
  · have hch : halted t.dev.clk = halted e.clk := h4.dev ▸ h3.after.ch
    rw [h4.host, hch, h3.rdata]
    rfl

end Sys2Proof.Machine
end

section
/-! SUPPORT. The exceptions (60_exceptions R123, R124): the block reports nothing and stops for nothing. A reserved word is refused,
and a block that has been reset takes every step. -/

namespace Sys2Proof.Machine

/-! ## The refusal of a reserved word -/

theorem whenTaken_idle {f : State → State} {s : State} (hi : s.inited = true) (hp : s.ph = .idle) :
    whenTaken f s = .next (f s) := by
  simp [whenTaken, hi, ready_iff, hp]

theorem reqMarker_reserved (x : BitVec 15) : reqMarker (0#1 ++ x) = false :=
  Bool.eq_false_iff.mpr (zero_append_top x)

/-- Settles O23: in IDLE the instruction's effect and the row of R91 for a word with M = 0 are both the refusal. -/
theorem reservedRefused : Obligations.ReservedRefused :=
  fun x s hi hp => ⟨whenTaken_idle (f := fun s => advance (refuse s)) hi hp,
    edge_row rfl hi (rowAction_reserved hp rfl (reqMarker_reserved x))⟩

/-! ## A step always gives a next state -/

/-- Every request is an effect that waits until the block takes it (41_sequencer R86, R87). -/
theorem exec_request {i : Instr} (h : isRequest i = true) : ∃ f, ∀ s, exec i s = whenTaken f s := by
  cases i with
  | cmdClkWrite | cmdClkRead | cmdRamWrite | cmdRamRead | cmdNeverSent | sendByte | recvByte => cases h
  | reserved x => exact ⟨fun s => advance (refuse s), fun _ => rfl⟩
  | _ => exact ⟨_, fun _ => rfl⟩

/-- A request is performed in IDLE, and in any other phase an edge passes. -/
theorem exec_request_next {i : Instr} {s : State} (hr : isRequest i = true) (h : blockOk s = true) (hi : s.inited = true) :
    ∃ t, exec i s = .next t := by
  obtain ⟨f, hf⟩ := exec_request hr
  rw [hf]
  by_cases hp : s.ph = .idle
  · exact ⟨f s, whenTaken_idle hi hp⟩
  · rw [whenTaken_busy hi hp]
    exact edge_next_of_blockOk h hi

/-- A move that fetches nothing is an edge, or a step outside the block that cannot fail. -/
theorem otherMove_next {s : State} (h : blockOk s = true) (hi : s.inited = true) : ∃ t, otherMove s = .next t := by
  have hedge (p : Ports) (ms : List Move) : ∃ t, edge p { s with agenda := ms } = .next t := edge_next_of_blockOk h hi
  unfold otherMove
  split
  case h_1 => exact hedge quiet s.agenda
  case h_2 p ms _ => exact hedge p ms
  case h_3 w ms _ => exact hedge (present w) ms
  case h_4 ms _ => exact hedge resetPorts (.waitReady :: ms)
  case h_5 ms _ =>
    split
    · exact ⟨_, rfl⟩
    · exact hedge quiet s.agenda
  case h_6 | h_7 | h_8 => exact ⟨_, rfl⟩

/-- Settles O51: with no internal word, a step is a request or another move, and the invariant gives every edge its row. -/
theorem neverStalls : Obligations.NeverStalls := by
  intro s ⟨hb, _, hq⟩ hi
  unfold step
  cases hf : fetch s with
  | none => exact otherMove_next hb hi
  | some i =>
    obtain ⟨ms, ht⟩ := taken_of_no_probe hq
    rw [ht]
    exact exec_request_next (s := { s with agenda := ms }) (isRequest_of_fetch hq hf) hb hi

end Sys2Proof.Machine
end

section
/-! SUPPORT. Reset, the loss of power and the end of a host program (70_reset R138 to R142, R151, R155): the state a reset edge
leaves, the edges that follow it, a block that has had none, and request lines performed one after another. -/

namespace Sys2Proof.Machine

/-! ## The state a reset edge leaves (R138, R140) -/

@[simp] theorem applyReset_cfg (s : State) : (applyReset s).cfg = s.cfg := driveRst_cfg false s
@[simp] theorem applyReset_rstO (s : State) : (applyReset s).rstO = false := driveRst_rstO false s
@[simp] theorem applyReset_seq (s : State) : (applyReset s).dev.seq = .closed := rfl

/-- Free contents do not depend on what the device held. -/
theorem havoc_sameStore (n : Nat) (d e : Device) : SameStore (havoc n d) (havoc n e) := ⟨rfl, rfl, rfl, fun _ => rfl⟩

/-- A reset that cuts a frame short leaves the device with free contents (R140). -/
theorem applyReset_havocs {s : State} (h : cutShort s = true) : SameStore (havoc s.draws s.dev) (applyReset s).dev := by
  simp only [applyReset, h, if_true]
  exact (havoc_sameStore _ _ _).trans (.of_seq _ _)

/-- The first edge after a reset begins the recovery wait (R139). -/
theorem edge_after_reset {q : Ports} (hq : q.resetIn = false) (s : State) :
    edge q (advance (applyReset s)) = .next (advance (row1 (advance (applyReset s)))) :=
  edge_row hq rfl (rowAction_reset rfl)

theorem edge_after_reset_recovers {q : Ports} (hq : q.resetIn = false) (s : State) :
    ∃ u, edge q (advance (applyReset s)) = .next u ∧ u.ph = .recover ∧ u.t = nCWH s.cfg :=
  ⟨_, edge_after_reset hq s, rfl, congrArg nCWH (applyReset_cfg s)⟩

/-- At a reset edge that cuts no frame short, only time passes at the device (R141). -/
theorem reset_edge_keeps {s : State} (hr : s.rstO = false) (h : cutShort s = false) :
    SameStore s.dev (advance (applyReset s)).dev :=
  (applyReset_keeps hr h).trans (devPass_sameStore _ _)

/-- Settles O1: the registers are the literals of the reset actions; with RST low and no transaction no frame is cut short. -/
theorem resetEdge : Obligations.ResetEdge := by
  refine fun s => ⟨advance (applyReset s), fun p hp => edge_reset hp s, rfl, applyReset_rstO s, rfl, rfl, rfl, rfl, rfl, rfl,
    rfl, rfl, rfl, rfl, rfl, rfl, rfl, fun hr ha => reset_edge_keeps hr ?_, fun q hq => edge_after_reset_recovers hq s⟩
  cases hi : s.inited with
  | true => exact (cutShort_inited hi).trans (ha hi)
  | false => exact (cutShort_unreset hi).trans hr

theorem linesOk_of_blockOk {s : State} (h : blockOk s = true) (hi : s.inited = true) : linesOk s = true := by
  simp only [blockOk, hi, Bool.not_true, Bool.false_or, Bool.and_eq_true, and_assoc] at h
  exact h.1

/-- Settles O4: the lines before the edge are those of the phase, so that RST is high exactly in a transaction, and a transaction
is what a reset cuts short. -/
theorem abortedTransaction : Obligations.AbortedTransaction := by
  intro p s hp hi hb
  obtain ⟨hr, hc, ho, -⟩ := linesOk_iff.mp (linesOk_of_blockOk hb hi)
  have hcut := cutShort_inited hi
  refine ⟨advance (applyReset s), edge_reset hp s, applyReset_rstO s, rfl, rfl, rfl, rfl, rfl, fun ha => ⟨hr.trans ha, ?_⟩, ?_, ?_,
    fun ha => reset_edge_keeps (hr.trans ha) (hcut.trans ha), fun q hq => edge_after_reset_recovers hq s⟩
  · exact ⟨s.draws, s.dev, (applyReset_havocs (hcut.trans ha)).trans (devPass_sameStore _ _)⟩
  · rintro (h | h) <;> simp [hc, h, Phase.clockHigh]
  · rintro (h | h | h) <;> simp [ho, h, Phase.receiving]

/-! ## From a reset to the first acceptance (R139, R152) -/

/-- `n` edges after the edge that ends a reset: the lines rest, no frame is open, and the block recovers until READY rises at
the edge `nCWH + 1` (R139). -/
structure Released (c : Config) (n : Nat) (s : State) : Prop where
  inited : s.inited = true
  cfg : s.cfg = c
  rst : s.rstO = false
  clk : s.clkO = false
  seq : s.dev.seq = .closed
  reset : n = 0 → s.ph = .reset
  recover : 1 ≤ n → n ≤ nCWH c → s.ph = .recover ∧ s.t = nCWH c + 1 - n
  idle : n = nCWH c + 1 → s.ph = .idle

theorem released_zero (s : State) : Released s.cfg 0 (advance (applyReset s)) :=
  ⟨rfl, applyReset_cfg s, applyReset_rstO s, rfl, rfl, fun _ => rfl, nofun, nofun⟩

/-- An edge that moves phase and timer alone leads on, if it moves them as the recovery wait does. -/
theorem Released.passes {c : Config} {n : Nat} {p : Ports} {s : State} {ph : Phase} {k : Nat} (h : Released c n s)
    (he : edge p s = .next (advance { s with ph := ph, t := k }))
    (hrec : n + 1 ≤ nCWH c → ph = .recover ∧ k = nCWH c + 1 - (n + 1)) (hidle : n + 1 = nCWH c + 1 → ph = .idle) :
    ∃ t, edge p s = .next t ∧ Released c (n + 1) t :=
  ⟨_, he, h.inited, h.cfg, h.rst, h.clk, devPass_closed.mpr h.seq, nofun, fun _ => hrec, hidle⟩

/-- Rows 1 and 2 of 41_sequencer R91, and the count between them. -/
theorem Released.edge {c : Config} {n : Nat} {p : Ports} {s : State} (h : Released c n s) (hp : p.resetIn = false)
    (hn : n ≤ nCWH c) : ∃ t, edge p s = .next t ∧ Released c (n + 1) t := by
  have hpos := nCWH_pos c
  rcases Nat.eq_zero_or_pos n with h0 | h1
  · have he := edge_row hp h.inited (rowAction_reset (p := p) (h.reset h0))
    exact h.passes he (fun _ => ⟨rfl, by rw [h.cfg]; omega⟩) (by omega)
  · obtain ⟨hph, ht⟩ := h.recover h1 hn
    rcases Nat.lt_or_eq_of_le hn with hlt | heq
    · have he := edge_count hp h.inited (by simp [hph, Phase.isTimed]) (by omega : 1 < s.t)
      exact h.passes (ph := s.ph) he (fun _ => ⟨hph, by omega⟩) (by omega)
    · have he := edge_row hp h.inited (rowAction_recover (p := p) hph (by omega))
      exact h.passes (k := s.t) he (by omega) (fun _ => rfl)

theorem Released.edges {c : Config} {n : Nat} {ps : List Ports} {s : State} (h : Released c n s) (hp : noReset ps = true)
    (hn : n + ps.length ≤ nCWH c + 1) : ∃ t, runEdges ps s = .next t ∧ Released c (n + ps.length) t := by
  induction ps generalizing n s with
  | nil => exact ⟨s, rfl, h⟩
  | cons p ps ih =>
    simp only [noReset, List.all_cons, Bool.and_eq_true, Bool.not_eq_true'] at hp
    rw [List.length_cons, show n + (ps.length + 1) = n + 1 + ps.length by omega] at hn ⊢
    obtain ⟨u, hu, hru⟩ := h.edge hp.1 (by omega)
    rw [runEdges_cons hu]
    exact ih hru hp.2 hn

/-- READY rises at the edge N_CWH after the first one, not before (R139). -/
theorem Released.ready_iff {c : Config} {n : Nat} {s : State} (h : Released c n s) (hn : n ≤ nCWH c + 1) :
    ready s = true ↔ n = nCWH c + 1 := by
  rw [Machine.ready_iff]
  refine ⟨fun hp => ?_, h.idle⟩
  by_contra hne
  rcases Nat.eq_zero_or_pos n with h0 | h1
  · simp [h.reset h0] at hp
  · simp [(h.recover h1 (by omega)).1] at hp

/-- Settles O3: a reset edge gives the state 0 edges after a reset, each edge that follows the next of them; the wait alone is
long enough. -/
theorem resetReleaseTime : Obligations.ResetReleaseTime := by
  refine ⟨fun p ps s hp hps hn => ?_, fun c hc => ?_⟩
  · obtain ⟨t, ht, h⟩ := (released_zero s).edges hps (by omega)
    rw [Nat.zero_add] at h
    refine ⟨t, (runEdges_cons (edge_reset hp s)).trans ht, h.rst, h.clk, h.seq, fun h1 => ?_, h.ready_iff hn, fun hlen w hw => ?_⟩
    · obtain ⟨hph, hcount⟩ := h.recover (by omega) (h1 ▸ nCWH_pos s.cfg)
      exact ⟨hph, by omega⟩
    · exact ⟨_, edge_present_idle h.inited (h.idle hlen) hw, accept_ph .., accept_rstO ..⟩
  · calc c.tCWH ≤ nCWH c * c.tSys := cycles_covers _ hc
      _ ≤ (nCWH c + 2) * c.tSys := Nat.mul_le_mul_right _ (by omega)

/-! ## Before the first reset (R141, R142) -/

theorem whenTaken_unreset {f : State → State} {s : State} (hi : s.inited = false) :
    whenTaken f s = .fault .requestBeforeReset := by
  simp [whenTaken, hi]

theorem edge_unreset_request {p : Ports} {s : State} (hi : s.inited = false) (hr : p.resetIn = false)
    (hv : p.reqValid = true) : edge p s = .fault .requestBeforeReset := by
  simp [edge, hi, hr, hv]

theorem edge_unreset_idle {p : Ports} {s : State} (hi : s.inited = false) (hr : p.resetIn = false)
    (hv : p.reqValid = false) : edge p s = .next (advance (unspecified s)) := by
  simp [edge, hi, hr, hv]

/-- Before the first reset only time passes at a device whose RST is low, at the reset edge too. -/
theorem edge_unreset_keeps {p : Ports} {s t : State} (hi : s.inited = false) (hr : s.rstO = false)
    (he : edge p s = .next t) : SameStore s.dev t.dev := by
  cases hp : p.resetIn with
  | true =>
    rw [edge_reset hp] at he
    cases he
    exact reset_edge_keeps hr ((cutShort_unreset hi).trans hr)
  | false =>
    cases hv : p.reqValid with
    | true => rw [edge_unreset_request hi hp hv] at he; cases he
    | false =>
      rw [edge_unreset_idle hi hp hv] at he
      cases he
      exact (unspecified_keeps hr).trans (devPass_sameStore _ _)

theorem step_powerUp {b : Bool} {ms : List Move} {s : State} (hq : s.probe = none) (ha : s.agenda = .powerUp b :: ms) :
    step s = .next (powerUp b { s with agenda := ms }) := by
  simp only [step, fetch, otherMove, hq, ha]

/-- Settles O5: every request asks whether the block has been reset; the RAM passes through a loss of power that the backup
covers, and through each edge at which no frame is open. -/
theorem requestBeforeReset : Obligations.RequestBeforeReset := by
  refine ⟨fun i s hr hi => ?_, fun p s hi hr hv => edge_unreset_request hi hr hv, fun p s hp => ⟨_, edge_reset hp s, rfl⟩,
    fun b ms s hq ha => ⟨_, step_powerUp hq ha, rfl, rfl, ?_, ?_⟩, fun p s t hi hr he => (edge_unreset_keeps hi hr he).ram⟩
  · obtain ⟨f, hf⟩ := exec_request hr
    rw [hf, whenTaken_unreset hi]
  · rintro rfl hcut
    exact powerUp_ram (s := { s with agenda := ms }) hcut
  · rintro rfl
    exact ⟨s.draws, powerUp_ram_lost { s with agenda := ms }⟩

/-! ## A program of request lines (R151, R155) -/

/-- The edges a request line takes: one for a reserved word, for any other its transaction and the edge that follows it. -/
def requestEdges (c : Config) (w : ReqWord) : Nat :=
  if reqMarker w = false then 1 else if reqDir w = .read then readCycles c + 1 else writeCycles c + 1

/-- The block at rest, with the moves `ms` to come. -/
structure RestsBefore (ms : List Move) (s : State) : Prop where
  rest : AtRest s
  noProbe : s.probe = none
  agenda : s.agenda = ms

theorem RestsBefore.runEnded {s : State} (h : RestsBefore [] s) : runEnded s = true := by
  simp [Machine.runEnded, h.agenda, h.noProbe, (ready_iff s).mpr h.rest.2.1]

/-- The request word `w`, performed in `s`, leaves the block at rest in `t`, its edges later. -/
structure LineDone (w : ReqWord) (s t : State) : Prop where
  exec : exec (decodeRequest w) s = .next t
  done : RestsBefore s.agenda t
  cfg : t.cfg = s.cfg
  edges : t.edges = s.edges + requestEdges s.cfg w

theorem exec_request_done (w : ReqWord) {s : State} (hs : AtRest s) (hq : s.probe = none) : ∃ t, LineDone w s t := by
  have ⟨hi, hp, _⟩ := hs
  cases hm : reqMarker w with
  | false =>
    have he : exec (decodeRequest w) s = .next (advance (row4 s)) :=
      (edge_reserved hs hm).symm.trans (edge_row rfl hi (rowAction_reserved hp rfl hm))
    exact ⟨_, he, ⟨hs, hq, rfl⟩, rfl, by simp [requestEdges, hm, row4]⟩
  | true =>
    have he := (exec_decodeRequest hm s).trans (whenTaken_atRest hs)
    cases hd : reqDir w with
    | write =>
      rw [hd, transaction, writeTransaction_eq hs] at he
      exact ⟨_, he, ⟨written_atRest hs, hq, rfl⟩, rfl, by simp [requestEdges, hm, hd, written]⟩
    | read =>
      rw [hd, transaction, readTransaction_eq hs] at he
      exact ⟨_, he, ⟨readDone_atRest hs, hq, rfl⟩, rfl, by simp [requestEdges, hm, hd, readDone]⟩

/-- A request line at rest is one step, and the line is used up (30_encoding R74). -/
theorem RestsBefore.step {w : ReqWord} {ms : List Move} {s : State} (h : RestsBefore (.request w :: ms) s) :
    ∃ t, step s = .next t ∧ RestsBefore ms t ∧ t.cfg = s.cfg ∧ t.edges = s.edges + requestEdges s.cfg w := by
  obtain ⟨t, he, hdone, hcfg, hedges⟩ := exec_request_done w (s := { s with agenda := ms }) h.rest h.noProbe
  have ⟨hi, hp, _⟩ := h.rest
  refine ⟨t, ?_, hdone, hcfg, hedges⟩
  rw [step_request h.noProbe h.agenda, if_pos ⟨hi, hp⟩, he]

/-- One step per line, and the sum of the lines' edges. -/
theorem RestsBefore.runs {ws : List ReqWord} {s : State} (h : RestsBefore (ws.map .request) s) :
    ∃ t, Runs ws.length s t ∧ RestsBefore [] t ∧ t.edges = s.edges + (ws.map (requestEdges s.cfg)).sum := by
  induction ws generalizing s with
  | nil => exact ⟨s, .refl s, h, rfl⟩
  | cons w ws ih =>
    obtain ⟨u, hstep, hu, hcfg, hedges⟩ := h.step
    obtain ⟨t, hrun, ht, hsum⟩ := ih hu
    refine ⟨t, (runs_succ hstep).mpr hrun, ht, ?_⟩
    rw [hsum, hedges, hcfg, List.map_cons, List.sum_cons, Nat.add_assoc]

/-- Settles O53, by induction on the lines: each finds the block at rest and leaves it so. -/
theorem requestsEnd : Obligations.RequestsEnd := by
  intro ws s hs hq ha
  obtain ⟨t, hrun, ht, hedges⟩ := RestsBefore.runs ⟨hs, hq, ha⟩
  exact ⟨t, hrun, ht.runEnded, ht.rest, hedges⟩

end Sys2Proof.Machine
end
